-- ==== Sys2Proof/Word.lean ====
section
/-! DEFINITION. The word types of 00_scope.md R9 and R10: every value of the block is unsigned, a register
word has 32 bits and a frame is a list of bytes. -/

namespace Sys2Proof

/-- `bits32`: the width of every access to the register window (20_memory.md R51). -/
abbrev Word := BitVec 32

/-- `bits8`: one byte of a chip command frame (00_scope.md R10). -/
abbrev Byte := BitVec 8

end Sys2Proof
end

