-- ==== Sys2Proof/Config.lean ====
section
/-! DEFINITION. What an implementation of the block fixes (00_scope.md R6) and the free values of the model:
constants with no body, which no proof can evaluate. -/

namespace Sys2Proof

/-- CMD_LAYOUT of 10_state.md R37: which word of 0x0C0 to 0x0CF is the trigger (OPEN, decision D2). -/
inductive CmdLayout where
  /-- trigger at 0x0C0, buffer at 0x0C4, 0x0C8 and 0x0CC -/
  | trigFirst
  /-- buffer at 0x0C0, 0x0C4 and 0x0C8, trigger at 0x0CC -/
  | trigLast
  deriving DecidableEq, Repr, Inhabited

/-- The two tasks HOST may run as, 00_scope.md R7 and 60_exceptions.md R257. -/
inductive HostTask where
  /-- boot and bring-up, and after them the work feeder -/
  | main
  /-- the nonce drainer, which starts once chain initialization has completed -/
  | drainer
  deriving DecidableEq, Repr, Inhabited

/-- One turn of the interleaving of 00_scope.md R7: the agent that takes the next step. -/
inductive Turn where
  /-- HOST runs the next statement of one of its tasks (60_exceptions.md R257) -/
  | host (task : HostTask)
  /-- TX completes the posted frame, if there is one -/
  | tx
  /-- RX offers one nonce entry -/
  | rx
  /-- WB performs a posted write; `pick` chooses among the entries it may take (20_memory.md R60) -/
  | wb (pick : Nat)
  deriving DecidableEq, Repr, Inhabited

/-- A write of the bring-up whose place the source does not give: to a register of the chips, by a frame to one
chip or to all, or to a word of the window outside the block (91_not_in_source.md N15). -/
inductive BringUpWrite where
  | frame (chip : Option (BitVec 8)) (reg : BitVec 8) (value : BitVec 32)
  | window (word : Fin 1152) (value : BitVec 32)
  deriving DecidableEq, Repr, Inhabited

/-- The implementation parameters the machine's step reads (00_scope.md R6). They stand in `State` as
plain data that no step changes, so that every statement about a state holds for each of their values
(assumption log 4). -/
structure Params where
  /-- CMD_LAYOUT -/
  layout : CmdLayout
  /-- CMD_READY_BIT -/
  readyBit : Nat
  /-- CMD_CHAIN_LSB -/
  chainLsb : Nat
  /-- CMD_CHAIN_WIDTH -/
  chainWidth : Nat
  /-- CMD_CTL_EXTRA -/
  ctlExtra : Word
  /-- NONCE_FIFO_DEPTH, 1 to 32767 -/
  fifoDepth : Nat
  /-- NONCE_TIMEOUT_RESET, read by reset alone -/
  timeoutReset : Word
  /-- STRICT_MMIO_ORDER -/
  strictOrder : Bool
  /-- whether a host-script statement other than a branch that faults or is refused still ends with
  `pc <- pc + 1`: the rules R221 and R240 do not settle it (assumption log 8) -/
  faultAdvancesPc : Bool
  deriving DecidableEq, Repr

namespace Config

/-- The value of the n-th `draw(bits32)` of a run (00_scope.md R11): a free value, constrained by nothing. -/
opaque freeWord : Nat → BitVec 32

/-- The n-th two-way free choice of a run (`draw_from`, 00_scope.md R11). -/
opaque freeBool : Nat → Bool

/-- The free schedule: which agent moves at the n-th turn once the agenda of the state is used up
(00_scope.md R7, 60_exceptions.md R248). -/
opaque schedule : Nat → Turn

/-- NONCE_FIFO_DEPTH less one (OPEN, decision D15). -/
opaque fifoDepthLessOne : Fin 32767

/-- NONCE_TIMEOUT_RESET (OPEN, decision D20). -/
opaque timeoutReset : BitVec 32

/-- The open reading of rules R221 and R240 (assumption log 8). -/
opaque faultAdvancesPc : Bool

/-- The parameter values the reset state holds. The layout and the trigger bits are those that
92_eei_decisions.md D2 and D3 suggest from general knowledge (PRESUMED, assumption log 4), the order is
the default of decision D9, and the rest is free. -/
def params : Params where
  layout := .trigFirst
  readyBit := 31
  chainLsb := 16
  chainWidth := 4
  ctlExtra := 0x00800000
  fifoDepth := fifoDepthLessOne.val + 1
  timeoutReset := timeoutReset
  strictOrder := false
  faultAdvancesPc := faultAdvancesPc

/-! Open values of the payloads and of the bring-up around the block (00_scope.md R6, 45_payloads.md R212,
70_reset_and_hazards.md R276 to R281). No step of the block reads them. -/

/-- Raw CLK_CTRL_BASE; `clkCtrlBase` of Machine/Payloads.lean keeps it off the divisor's bits. -/
opaque clkCtrlBaseRaw : BitVec 32
/-- HIGH_SPEED_BIT, raw, as `clkCtrlBaseRaw` is. -/
opaque highSpeedBitRaw : BitVec 32
/-- HIGH_BAUD in bits per second, less 3,000,001: a high-speed rate whose divisor is in range (45_payloads.md
R203, R204; assumption log 32). -/
opaque highBaudExtra : Fin 47000000
/-- PLL_FIXED_HIGH. -/
opaque pllFixedHigh : BitVec 32
/-- VCO_RANGE_BIT. -/
opaque vcoRangeBit : Fin 32
/-- REFDIV_EFF away from field value 0, less one (it divides, so it is positive). -/
opaque refdivEffLessOne : Nat → Nat
/-- RESET_BIT(chain): the bit of register 0x034 that resets the hashboard of a chain. -/
opaque resetBit : Fin 3 → Fin 32
/-- RESET_POLARITY: whether writing 1 drives the line low. -/
opaque resetOneIsLow : Bool
/-- The 105 entries of the driver's register map that the source does not give, as word numbers of the window
(91_not_in_source.md N9). -/
opaque regMapRest : Nat → Fin 1152
/-- Register addresses of the chip registers the bring-up writes (91_not_in_source.md N5). -/
opaque softResetReg : BitVec 8
opaque powerControlReg : BitVec 8
opaque coreResetReg : BitVec 8
opaque coreEnableReg : BitVec 8
opaque ticketMaskReg : BitVec 8
opaque coreConfigReg : BitVec 8
opaque clkCtrlReg : BitVec 8
opaque pllReg : Fin 4 → BitVec 8
/-- Which of the four PLL parameter registers takes the frequency payload. That it is one of those four, which were
just zeroed, is the model's (DESIGN CHOICE, assumption log 17): the source names no register for it (45_payloads.md
R210). -/
opaque pllFrequencyReg : Fin 4
/-- Register address and value of the writes whose value is not given either (91_not_in_source.md N17). -/
opaque diodeMuxWrite : BitVec 8 × BitVec 32
opaque pulseModeValue : BitVec 32
opaque coreTimingWrite : BitVec 8 × BitVec 32
opaque ioDriverWrite : BitVec 8 × BitVec 32
opaque nonceOverflowDisabledValue : BitVec 32
/-- The values of the six soft-reset steps (91_not_in_source.md N17). -/
opaque softResetValue : Fin 6 → BitVec 32
/-- The values of the five broadcast writes of the core-reset sub-sequence (70_reset_and_hazards.md R281 step 13). -/
opaque coreResetValue : Fin 5 → BitVec 32
/-- Whether the CLK_CTRL or PLL write of a step of stage 2 is unicast, and to which chip: the source does not say
(70_reset_and_hazards.md R281; the other writes are broadcasts by 45_payloads.md R212). -/
opaque configureTarget : Nat → Option (BitVec 8)
/-- The dedicated PLL channel and the baud-config register of the high-speed mode, and the FPGA-side baud setting:
neither their places nor their values are in the source (45_payloads.md R203, 91_not_in_source.md N15). -/
opaque highSpeedPll : BringUpWrite
opaque baudConfig : BringUpWrite
opaque fpgaBaud : Fin 1152 × BitVec 32
/-- The time between two rounds of the nonce drainer in microseconds: a "fixed cadence" that the source does not
give (60_exceptions.md R257). -/
opaque drainCadence : Nat
/-- The detected bit of a chain in the hash-on-plug register 0x008, outside the block (70_reset_and_hazards.md
R279). -/
opaque hashOnPlug : Fin 3 → Bool
/-- The word numbers of the two boot-state registers of device open and their golden values, what a failed
verification does (nothing for 0, or the host error of that code, 1 to 4), and the register device open corrects with its constant
(70_reset_and_hazards.md R276, 91_not_in_source.md N18, N26). -/
opaque bootRegister : Fin 2 → Fin 1152
opaque goldenValue : Fin 2 → BitVec 32
opaque verificationFailure : Fin 5
opaque correctedRegister : Fin 1152
opaque correctedConstant : BitVec 32
/-- The other bits of the init-toggle register 0x080 and of the reset register 0x034 (91_not_in_source.md N18,
N19). -/
opaque initToggleRest : BitVec 32
opaque hashboardResetRest : BitVec 32

end Config

end Sys2Proof
end

