-- ==== Sys2Proof/Machine/Kinds.lean ====
section
/-! DEFINITION. The names the spec gives to outcomes and events: fault kinds, refusal reasons, host errors,
frame-decoder reasons, the block's registers, and the events of HIST. -/

namespace Sys2Proof.Machine

/-- The fault kinds of 60_exceptions.md R241. A spec fault is RECORDED in the state and the run goes on
(R240); it is no stop of the machine. -/
inductive FaultKind where
  | align | range | busy | chain | len | unwritten | empty | ro | undef | hazard
  deriving DecidableEq, Repr

/-- The refusal reasons of 60_exceptions.md R242, recorded in the state like a fault. -/
inductive RefusalReason where
  | width | outOfBlock | trigForm | kind | crcLen | noStmt | shift
  deriving DecidableEq, Repr

/-- The host errors of 60_exceptions.md R245. -/
inductive HostError where
  | validationError | commandTimeout | fifoTimeout | chainInitFailure | unsupportedFrequency
  deriving DecidableEq, Repr

/-- The reasons of the frame decoder, 30_encoding.md R77. -/
inductive FrameError where
  | badLength | lengthMismatch | badHeader | nonzeroReserved | badCrc
  deriving DecidableEq, Repr

/-- The reasons of the decoder of transaction records: the first three are the access checks of
60_exceptions.md R244 item 2, the rest are the record's own form (assumption log 2). -/
inductive TransactionError where
  | misaligned | outOfRange | outOfBlock | reservedCode | badRegister | badRecordLength
  deriving DecidableEq, Repr

/-- Why a byte list is no instruction. -/
inductive DecodeError where
  | frame (e : FrameError)
  | transaction (e : TransactionError)
  deriving DecidableEq, Repr

/-- The two encoded languages of 30_encoding.md. -/
inductive Language where
  | frame | transaction
  deriving DecidableEq, Repr

/-- The eight registers of the block, 10_state.md R37. -/
inductive BlockReg where
  | nonceData | nonceCount | nonceTimeout | cmdCtl | cmdBuf (k : Fin 3) | crcErr
  deriving DecidableEq, Repr

/-- The events of HIST, 10_state.md R34. -/
inductive Event where
  /-- `W(off, v)`: HOST issued a write -/
  | issued (off : Nat) (v : Word)
  /-- `P(off, v)`: the write was performed -/
  | performed (off : Nat) (v : Word)
  /-- `R(off, v)`: HOST read `v` -/
  | read (off : Nat) (v : Word)
  /-- `F`: HOST executed a fence -/
  | fence
  /-- `D(t)`: HOST waited `t` microseconds -/
  | delay (t : Nat)
  /-- `EMIT(chain, bytes)`: TX sent a frame -/
  | emit (chain : Fin 3) (bytes : List Byte)
  /-- `PUSH(nonce, meta)`: RX offered an entry and the FIFO took it -/
  | push (nonce metadata : Word)
  /-- `DROP(nonce, meta)`: RX offered an entry to a full FIFO -/
  | drop (nonce metadata : Word)
  /-- `DRAW(v)`: a draw returned `v` -/
  | draw (v : Word)
  /-- `FAULT(kind, off)`, `none` where R241 says so -/
  | fault (k : FaultKind) (off : Option Nat)
  /-- `REFUSE(reason)` -/
  | refuse (r : RefusalReason)
  deriving DecidableEq, Repr

end Sys2Proof.Machine
end

