-- ==== Sys2Proof/Machine/Codes.lean ====
section
/-! DEFINITION. The numbers of the spec: the fixed parameters of 00_scope.md R5 and the codes of
60_exceptions.md R241 and R245. -/

namespace Sys2Proof.Machine

/-- NUM_CHAINS -/
def numChains : Nat := 3
/-- CHIPS_PER_CHAIN -/
def chipsPerChain : Nat := 114
/-- WINDOW_BYTES: offsets run from 0 to 0x11FF (20_memory.md R50). -/
def windowBytes : Nat := 0x1200
/-- REGMAP_ENTRIES -/
def regmapEntries : Nat := 110
/-- MAX_FRAME_BYTES -/
def maxFrameBytes : Nat := 12
/-- POLL_CMD_MAX, 42_command_bus.md R153: 10 ms in polls of 1 microsecond. -/
def pollCmdMax : Nat := 10000
/-- The settle time after SET_ADDRESS in microseconds, 70_reset_and_hazards.md R294. -/
def settleMicros : Nat := 10000
/-- LOW_BAUD -/
def lowBaud : Nat := 115200
/-- BAUD_THRESHOLD -/
def baudThreshold : Nat := 3000000

/-- The codes of 60_exceptions.md R241. -/
def FaultKind.code : FaultKind → Nat
  | .align => 1
  | .range => 2
  | .busy => 3
  | .chain => 4
  | .len => 5
  | .unwritten => 6
  | .empty => 7
  | .ro => 8
  | .undef => 9
  | .hazard => 10

/-- The codes of 60_exceptions.md R245. -/
def HostError.code : HostError → Nat
  | .validationError => 1
  | .commandTimeout => 2
  | .fifoTimeout => 3
  | .chainInitFailure => 4
  | .unsupportedFrequency => 5

/-- The error of a code, if it is one (60_exceptions.md R245). -/
def HostError.ofCode (code : Nat) : Option HostError :=
  [HostError.validationError, .commandTimeout, .fifoTimeout, .chainInitFailure, .unsupportedFrequency].find?
    (fun e => e.code == code)

/-- Codes 1 to 4 stop the operation that raised them, code 5 is a warning (60_exceptions.md R245). -/
def HostError.stops (e : HostError) : Bool := e.code != 5

end Sys2Proof.Machine
end

