-- ==== Sys2Proof/Syntax.lean ====
section
/-! DEFINITION. The instructions of spec/opcode_table.json: one constructor per row, the six chip command
frames of 30_encoding.md R74 and the sixteen register transactions of 30_encoding.md R88. -/

namespace Sys2Proof

/-- The opcode table's rows. A frame carries the operands of its format and the five bits of its CRC byte,
as the table's `c` bits do (assumption log 3). A read transaction carries the host scratch register
that takes the word read (47_host_script.md R224), a write transaction the word written (30_encoding.md
R87, assumption log 2). -/
inductive Instr where
  /-- 41_command_frames.md R121 -/
  | chainInactive (crc : BitVec 5)
  /-- 41_command_frames.md R122 -/
  | setAddress (addr : Byte) (crc : BitVec 5)
  /-- 41_command_frames.md R124 -/
  | writeReg (chip reg : Byte) (value : Word) (crc : BitVec 5)
  /-- 41_command_frames.md R125; the decoder accepts any `chip` byte (30_encoding.md R73) -/
  | writeRegBc (chip reg : Byte) (value : Word) (crc : BitVec 5)
  /-- 41_command_frames.md R126 -/
  | readReg (chip reg : Byte) (crc : BitVec 5)
  /-- 41_command_frames.md R127; the decoder accepts any `chip` byte (30_encoding.md R73) -/
  | readRegBc (chip reg : Byte) (crc : BitVec 5)
  /-- 43_nonce_fifo.md R175 -/
  | nonceDataRd (d : Fin 8)
  /-- 43_nonce_fifo.md R177 -/
  | nonceDataWr (v : Word)
  /-- 43_nonce_fifo.md R170 -/
  | nonceCountRd (d : Fin 8)
  /-- 43_nonce_fifo.md R172 -/
  | nonceCountWr (v : Word)
  /-- 43_nonce_fifo.md R190 -/
  | nonceTimeoutRd (d : Fin 8)
  /-- 43_nonce_fifo.md R191 -/
  | nonceTimeoutWr (v : Word)
  /-- 42_command_bus.md R148 -/
  | cmdCtlRd (d : Fin 8)
  /-- 42_command_bus.md R145 -/
  | cmdCtlWr (v : Word)
  /-- 42_command_bus.md R142, k = 0 -/
  | cmdBuf0Rd (d : Fin 8)
  /-- 42_command_bus.md R140, k = 0 -/
  | cmdBuf0Wr (v : Word)
  /-- 42_command_bus.md R142, k = 1 -/
  | cmdBuf1Rd (d : Fin 8)
  /-- 42_command_bus.md R140, k = 1 -/
  | cmdBuf1Wr (v : Word)
  /-- 42_command_bus.md R142, k = 2 -/
  | cmdBuf2Rd (d : Fin 8)
  /-- 42_command_bus.md R140, k = 2 -/
  | cmdBuf2Wr (v : Word)
  /-- 43_nonce_fifo.md R188 -/
  | crcErrRd (d : Fin 8)
  /-- 43_nonce_fifo.md R189 -/
  | crcErrWr (v : Word)
  deriving DecidableEq, Repr

end Sys2Proof
end

