-- ==== Sys2Proof/Machine/Registers.lean ====
section
/-! DEFINITION. The register map of the block (10_state.md R37), the access checks of 20_memory.md R51 to
R54, and the transaction each access performs (30_encoding.md R88). -/

namespace Sys2Proof.Machine

/-- OFF_CMD_CTL of 10_state.md R37. -/
def ctlOffset : CmdLayout → Nat
  | .trigFirst => 0x0C0
  | .trigLast => 0x0CC

/-- OFF_CMD_BUF(k) of 10_state.md R37. -/
def bufOffset (l : CmdLayout) (k : Fin 3) : Nat :=
  match l with
  | .trigFirst => 0x0C4 + 4 * k.val
  | .trigLast => 0x0C0 + 4 * k.val

/-- The byte offset of a register, 10_state.md R37. -/
def regOffset (l : CmdLayout) : BlockReg → Nat
  | .nonceData => 0x010
  | .nonceCount => 0x018
  | .nonceTimeout => 0x08C
  | .cmdCtl => ctlOffset l
  | .cmdBuf k => bufOffset l k
  | .crcErr => 0x0F8

/-- Every register of the block. -/
def allRegs : List BlockReg :=
  [.nonceData, .nonceCount, .nonceTimeout, .cmdCtl, .cmdBuf 0, .cmdBuf 1, .cmdBuf 2, .crcErr]

/-- The register at an offset, if the block has one there. -/
def regAt (l : CmdLayout) (off : Nat) : Option BlockReg := allRegs.find? (fun r => regOffset l r == off)

/-- The outcome of the issue checks of an access. -/
inductive AccessCheck where
  | ok (r : BlockReg)
  | fault (k : FaultKind)
  | refuse (r : RefusalReason)
  deriving DecidableEq, Repr

/-- The issue checks of 60_exceptions.md R244 item 2, in its order: R_WIDTH, F_ALIGN, F_RANGE,
R_OUT_OF_BLOCK (20_memory.md R51, R52, R54). -/
def checkAccess (l : CmdLayout) (width off : Nat) : AccessCheck :=
  if width != 32 then .refuse .width
  else if off % 4 != 0 then .fault .align
  else if windowBytes ≤ off then .fault .range
  else match regAt l off with
    | some r => .ok r
    | none => .refuse .outOfBlock

/-- The read transaction of a register, its word going to scratch register `d` (30_encoding.md R88). -/
def readInstr (r : BlockReg) (d : Fin 8) : Instr :=
  match r with
  | .nonceData => .nonceDataRd d
  | .nonceCount => .nonceCountRd d
  | .nonceTimeout => .nonceTimeoutRd d
  | .cmdCtl => .cmdCtlRd d
  | .cmdBuf k => if k = 0 then .cmdBuf0Rd d else if k = 1 then .cmdBuf1Rd d else .cmdBuf2Rd d
  | .crcErr => .crcErrRd d

/-- The write transaction of a register (30_encoding.md R88). -/
def writeInstr (r : BlockReg) (v : Word) : Instr :=
  match r with
  | .nonceData => .nonceDataWr v
  | .nonceCount => .nonceCountWr v
  | .nonceTimeout => .nonceTimeoutWr v
  | .cmdCtl => .cmdCtlWr v
  | .cmdBuf k => if k = 0 then .cmdBuf0Wr v else if k = 1 then .cmdBuf1Wr v else .cmdBuf2Wr v
  | .crcErr => .crcErrWr v

/-- A transaction taken apart: read or write, its register, and its operand (the scratch register of a
read, the word of a write). -/
inductive Transaction where
  | read (r : BlockReg) (d : Fin 8)
  | write (r : BlockReg) (v : Word)
  deriving DecidableEq, Repr

/-- The transaction of an instruction; a frame is none. -/
def transactionOf : Instr → Option Transaction
  | .chainInactive _ => none
  | .setAddress _ _ => none
  | .writeReg _ _ _ _ => none
  | .writeRegBc _ _ _ _ => none
  | .readReg _ _ _ => none
  | .readRegBc _ _ _ => none
  | .nonceDataRd d => some (.read .nonceData d)
  | .nonceDataWr v => some (.write .nonceData v)
  | .nonceCountRd d => some (.read .nonceCount d)
  | .nonceCountWr v => some (.write .nonceCount v)
  | .nonceTimeoutRd d => some (.read .nonceTimeout d)
  | .nonceTimeoutWr v => some (.write .nonceTimeout v)
  | .cmdCtlRd d => some (.read .cmdCtl d)
  | .cmdCtlWr v => some (.write .cmdCtl v)
  | .cmdBuf0Rd d => some (.read (.cmdBuf 0) d)
  | .cmdBuf0Wr v => some (.write (.cmdBuf 0) v)
  | .cmdBuf1Rd d => some (.read (.cmdBuf 1) d)
  | .cmdBuf1Wr v => some (.write (.cmdBuf 1) v)
  | .cmdBuf2Rd d => some (.read (.cmdBuf 2) d)
  | .cmdBuf2Wr v => some (.write (.cmdBuf 2) v)
  | .crcErrRd d => some (.read .crcErr d)
  | .crcErrWr v => some (.write .crcErr v)

/-- The 14-bit transaction code `dir_bit ++ off[12:0]` of 30_encoding.md R87, 1 for a write. -/
def transactionCode (write : Bool) (off : Nat) : Nat := (if write then 0x2000 else 0) + off % 0x2000

end Sys2Proof.Machine
end

