-- ==== Sys2Proof/Machine/Crc.lean ====
section
/-! DEFINITION. The CRC5 generator of 40_crc5.md: the register, the step, the function, and the hardware
form with its two operations. -/

namespace Sys2Proof.Machine

/-- CRC_SEED, 40_crc5.md R100. -/
def crcSeed : BitVec 5 := 0x1F

/-- CRC_POLY, 40_crc5.md R102. -/
def crcPoly : BitVec 5 := 0x05

/-- CRC5_STEP, 40_crc5.md R102. -/
def crc5Step (crc : BitVec 5) (din : Bool) : BitVec 5 :=
  if crc.getLsbD 4 != din then (crc <<< 1) ^^^ crcPoly else crc <<< 1

/-- The bits of one byte in the order of 40_crc5.md R101, most significant first. -/
def bitsOfByte (b : Byte) : List Bool :=
  [b.getLsbD 7, b.getLsbD 6, b.getLsbD 5, b.getLsbD 4, b.getLsbD 3, b.getLsbD 2, b.getLsbD 1, b.getLsbD 0]

/-- The input bits of a byte list, 40_crc5.md R101. -/
def bitsOf (d : List Byte) : List Bool := d.flatMap bitsOfByte

/-- The register after a string of input bits, from the seed. -/
def crc5Bits (bits : List Bool) : BitVec 5 := bits.foldl crc5Step crcSeed

/-- CRC5 of the first `nbits` bits of `d`, 40_crc5.md R103; more bits than the bytes hold are refused
(R104). -/
def crc5 (d : List Byte) (nbits : Nat) : Except RefusalReason (BitVec 5) :=
  if nbits ≤ 8 * d.length then .ok (crc5Bits ((bitsOf d).take nbits)) else .error .crcLen

/-- The CRC5 of all the bits of a frame body, 40_crc5.md R103. -/
def crc5All (d : List Byte) : BitVec 5 := crc5Bits (bitsOf d)

/-- INIT of the hardware form, 40_crc5.md R105. -/
def crcInit (_ : BitVec 5) : BitVec 5 := crcSeed

/-- SHIFT of the hardware form, 40_crc5.md R105. -/
def crcShift (crc : BitVec 5) (din : Bool) : BitVec 5 := crc5Step crc din

end Sys2Proof.Machine
end

