-- ==== Sys2Proof/Machine/FrameFormat.lean ====
section
/-! DEFINITION. The frame formats F5 and F9 of 30_encoding.md R71 to R76, and the packing of a frame into
the three words of the command buffer (R80 to R83). -/

namespace Sys2Proof.Machine

/-- The four bytes of a word, most significant first (20_memory.md R56). -/
def wordBytes (w : Word) : List Byte :=
  [(w >>> 24).setWidth 8, (w >>> 16).setWidth 8, (w >>> 8).setWidth 8, w.setWidth 8]

/-- `word(b0,b1,b2,b3)` of 00_scope.md R10: b0 in the high bits. -/
def wordOf (b0 b1 b2 b3 : Byte) : Word := b0 ++ b1 ++ b2 ++ b3

/-- BODY of 41_command_frames.md R121 to R127: every byte of a frame but the CRC byte. A register
transaction has no frame. -/
def frameBody : Instr → List Byte
  | .chainInactive _ => [0x53, 0x05, 0x00, 0x00]
  | .setAddress addr _ => [0x40, 0x05, addr, 0x00]
  | .writeReg chip reg value _ => [0x41, 0x09, chip, reg] ++ wordBytes value
  | .writeRegBc chip reg value _ => [0x51, 0x09, chip, reg] ++ wordBytes value
  | .readReg chip reg _ => [0x42, 0x09, chip, reg, 0x00, 0x00, 0x00, 0x00]
  | .readRegBc chip reg _ => [0x52, 0x09, chip, reg, 0x00, 0x00, 0x00, 0x00]
  | .nonceDataRd _ => []
  | .nonceDataWr _ => []
  | .nonceCountRd _ => []
  | .nonceCountWr _ => []
  | .nonceTimeoutRd _ => []
  | .nonceTimeoutWr _ => []
  | .cmdCtlRd _ => []
  | .cmdCtlWr _ => []
  | .cmdBuf0Rd _ => []
  | .cmdBuf0Wr _ => []
  | .cmdBuf1Rd _ => []
  | .cmdBuf1Wr _ => []
  | .cmdBuf2Rd _ => []
  | .cmdBuf2Wr _ => []
  | .crcErrRd _ => []
  | .crcErrWr _ => []

/-- The CRC field of a frame; none for a register transaction. -/
def frameCrc : Instr → Option (BitVec 5)
  | .chainInactive crc => some crc
  | .setAddress _ crc => some crc
  | .writeReg _ _ _ crc => some crc
  | .writeRegBc _ _ _ crc => some crc
  | .readReg _ _ crc => some crc
  | .readRegBc _ _ crc => some crc
  | .nonceDataRd _ => none
  | .nonceDataWr _ => none
  | .nonceCountRd _ => none
  | .nonceCountWr _ => none
  | .nonceTimeoutRd _ => none
  | .nonceTimeoutWr _ => none
  | .cmdCtlRd _ => none
  | .cmdCtlWr _ => none
  | .cmdBuf0Rd _ => none
  | .cmdBuf0Wr _ => none
  | .cmdBuf1Rd _ => none
  | .cmdBuf1Wr _ => none
  | .cmdBuf2Rd _ => none
  | .cmdBuf2Wr _ => none
  | .crcErrRd _ => none
  | .crcErrWr _ => none

/-- The CRC byte `zext_8(crc5)`, 30_encoding.md R76. -/
def crcByte (crc : BitVec 5) : Byte := crc.setWidth 8

/-- The bytes of a frame, the CRC byte last (30_encoding.md R70). -/
def frameBytes (i : Instr) : List Byte :=
  match frameCrc i with
  | some crc => frameBody i ++ [crcByte crc]
  | none => []

/-- `pad(i)` of 30_encoding.md R80. -/
def padByte (bs : List Byte) (i : Nat) : Byte := bs.getD i 0

/-- `pack(b)[k]` of 30_encoding.md R80. -/
def packWord (bs : List Byte) (k : Nat) : Word :=
  wordOf (padByte bs (4 * k)) (padByte bs (4 * k + 1)) (padByte bs (4 * k + 2)) (padByte bs (4 * k + 3))

/-- `pack` of 30_encoding.md R80: the three words of the command buffer. -/
def pack (bs : List Byte) : Vector Word 3 := #v[packWord bs 0, packWord bs 1, packWord bs 2]

/-- `byte(i)` of 30_encoding.md R82 read from the buffer's words; the buffer has twelve bytes. -/
def bufByte (buf : Vector Word 3) (i : Nat) : Byte := ((buf.toList.flatMap wordBytes)).getD i 0

/-- The words a frame of `n` bytes occupies, `ceil(n/4)` (30_encoding.md R83). -/
def wordsNeeded (n : Nat) : Nat := (n + 3) / 4

end Sys2Proof.Machine
end

