-- ==== Sys2Proof/WellFormed.lean ====
section
/-! DEFINITION. Which instructions are well formed: a frame whose CRC field is the CRC5 of its body
(30_encoding.md R76). The operand widths of 41_command_frames.md R128 are the types of the operands. -/

namespace Sys2Proof

/-- The CRC rule of 30_encoding.md R76; a register transaction has nothing to check. -/
def Instr.wellFormed (i : Instr) : Bool :=
  match Machine.frameCrc i with
  | some crc => crc == Machine.crc5All (Machine.frameBody i)
  | none => true

end Sys2Proof
end

