-- ==== Sys2Proof/Decode.lean ====
section
/-! DEFINITION. The two decoders of 30_encoding.md and the encoder written from the same tables: chip command
frames (R70 to R79) and register transactions (R87 to R90). -/

namespace Sys2Proof

open Machine

/-- The CRC field of the last byte of a frame: bits 7 to 5 must be zero (30_encoding.md R76, R77 test 5). -/
def crcField (b : Byte) : Except FrameError (BitVec 5) :=
  if (b >>> 5) = 0 then .ok (b.setWidth 5) else .error .badCrc

/-- The five-byte frames, 30_encoding.md R71, R74, R77 tests 2 to 4 and the fixed bits of test 5. -/
def parseF5 (b0 b1 b2 b3 b4 : Byte) : Except FrameError Instr :=
  if b1 ≠ 0x05 then .error .lengthMismatch
  else if b0 = 0x53 then
    if b2 ≠ 0 ∨ b3 ≠ 0 then .error .nonzeroReserved else (crcField b4).map .chainInactive
  else if b0 = 0x40 then
    if b3 ≠ 0 then .error .nonzeroReserved else (crcField b4).map (.setAddress b2)
  else .error .badHeader

/-- The nine-byte frames, 30_encoding.md R72, R74, R77 tests 2 to 4 and the fixed bits of test 5. -/
def parseF9 (b0 b1 b2 b3 b4 b5 b6 b7 b8 : Byte) : Except FrameError Instr :=
  if b1 ≠ 0x09 then .error .lengthMismatch
  else if b0 = 0x41 then (crcField b8).map (.writeReg b2 b3 (wordOf b4 b5 b6 b7))
  else if b0 = 0x51 then (crcField b8).map (.writeRegBc b2 b3 (wordOf b4 b5 b6 b7))
  else if b0 = 0x42 then
    if b4 ≠ 0 ∨ b5 ≠ 0 ∨ b6 ≠ 0 ∨ b7 ≠ 0 then .error .nonzeroReserved else (crcField b8).map (.readReg b2 b3)
  else if b0 = 0x52 then
    if b4 ≠ 0 ∨ b5 ≠ 0 ∨ b6 ≠ 0 ∨ b7 ≠ 0 then .error .nonzeroReserved else (crcField b8).map (.readRegBc b2 b3)
  else .error .badHeader

/-- The frame a byte list spells by the opcode table's patterns (30_encoding.md R73, R92), the CRC bits
taken as a field: every test of R77 but the CRC's value. -/
def parseFrame : List Byte → Except FrameError Instr
  | [b0, b1, b2, b3, b4] => parseF5 b0 b1 b2 b3 b4
  | [b0, b1, b2, b3, b4, b5, b6, b7, b8] => parseF9 b0 b1 b2 b3 b4 b5 b6 b7 b8
  | _ => .error .badLength

/-- `decode_frame` of 30_encoding.md R77: total on byte lists, the first failing test as the reason. -/
def decodeFrame (bs : List Byte) : Except FrameError Instr :=
  match parseFrame bs with
  | .ok i => if i.wellFormed then .ok i else .error .badCrc
  | .error e => .error e

/-- The `n` low bytes of a number, the least significant first. -/
def bytesUp : Nat → Nat → List Byte
  | 0, _ => []
  | n + 1, w => BitVec.ofNat 8 w :: bytesUp n (w / 256)

/-- The number whose bytes, the least significant first, are given. -/
def numberUp : List Byte → Nat
  | [] => 0
  | b :: bs => b.toNat + 256 * numberUp bs

/-- A transaction from its code and operand: the access checks in the order of 60_exceptions.md R244, then
the register of 10_state.md R37. -/
def transactionAt (l : CmdLayout) (code operand : Nat) : Except TransactionError Instr :=
  if 0x4000 ≤ code then .error .reservedCode
  else
    match checkAccess l 32 (code % 0x2000) with
    | .fault .align => .error .misaligned
    | .fault _ => .error .outOfRange
    | .refuse _ => .error .outOfBlock
    | .ok r =>
      if 0x2000 ≤ code then .ok (writeInstr r (BitVec.ofNat 32 operand))
      else if h : operand < 8 then .ok (readInstr r ⟨operand, h⟩)
      else .error .badRegister

/-- A transaction record: the 14-bit code in two bytes and the operand word in four, the least significant
byte first (assumption log 2; the spec gives the code alone, 30_encoding.md R87). -/
def decodeTransaction (l : CmdLayout) (bs : List Byte) : Except TransactionError Instr :=
  if bs.length = 6 then transactionAt l (numberUp (bs.take 2)) (numberUp (bs.drop 2)) else .error .badRecordLength

/-- The decoder, total on any bytes in either language. -/
def decode (l : CmdLayout) (lang : Language) (bs : List Byte) : Except DecodeError Instr :=
  match lang with
  | .frame => (parseFrame bs).mapError .frame
  | .transaction => (decodeTransaction l bs).mapError .transaction

/-- The language an instruction belongs to. -/
def Instr.language (i : Instr) : Language :=
  match transactionOf i with
  | some _ => .transaction
  | none => .frame

/-- The bytes of an instruction: a frame's by 30_encoding.md R71 to R76, a transaction's code and operand. -/
def encode (l : CmdLayout) (i : Instr) : List Byte :=
  match transactionOf i with
  | some (.read r d) => bytesUp 2 (transactionCode false (regOffset l r)) ++ bytesUp 4 d.val
  | some (.write r v) => bytesUp 2 (transactionCode true (regOffset l r)) ++ bytesUp 4 v.toNat
  | none => frameBytes i

/-- The bytes of an opcode-table word: a transaction code has 14 bits and its operand counts on from bit
16, and a frame is sent from its highest byte (the table's bit numbering). -/
def tableBytes (nbits w : Nat) : List Byte :=
  if nbits ≤ 16 then bytesUp 6 w else (bytesUp (nbits / 8) w).reverse

/-- The language of an opcode-table word: only a transaction code is as short as 16 bits. -/
def tableLanguage (nbits : Nat) : Language := if nbits ≤ 16 then .transaction else .frame

/-- The instruction the decoder reads from an opcode-table word, in the table's layout TRIG_FIRST
(30_encoding.md R88). -/
def decodeTableWord (nbits w : Nat) : Option Instr :=
  (decode .trigFirst (tableLanguage nbits) (tableBytes nbits w)).toOption

end Sys2Proof
end

