-- ==== Sys2Proof/Machine/Context.lean ====
section
/-! DEFINITION. What the driver on HOST keeps about the block and the chains: the Device Context's flag, the Chain
Controller's records, how far the boot has come, and what it logged (70_reset_and_hazards.md R274, R275, R279). No step of an agent
reads or writes it. -/

namespace Sys2Proof.Machine

/-- The states of the Chain Controller, 70_reset_and_hazards.md R279. -/
inductive ChainStage where
  | uninitialized | hardwareReset | softReset | configure | ready
  deriving DecidableEq, Repr

/-- What the Chain Controller keeps of a chain, 70_reset_and_hazards.md R279. -/
structure ChainRecord where
  stage : ChainStage
  chipCount : Nat
  interval : Nat
  detected : Bool
  deriving DecidableEq, Repr

/-- A chain before bring-up, and one whose bring-up failed. The chip count 0, the interval 0 and the detected bit
false are the model's (DESIGN CHOICE, assumption log 34): the spec gives a chain these three in Ready alone. -/
def ChainRecord.fresh : ChainRecord := ⟨.uninitialized, 0, 0, false⟩

/-- A part of the boot that one script of HOST runs, 70_reset_and_hazards.md R274 steps 2 to 4. -/
inductive Phase where
  /-- device open, for a boot that brings up these chains -/
  | deviceOpen (chains : List (Fin 3))
  | hardwareReset (c : Fin 3)
  | softReset (c : Fin 3)
  /-- Configure, with the number of chips to enumerate and the frequency asked for -/
  | configure (c : Fin 3) (numChips mhz : Nat)
  | workControl
  deriving DecidableEq, Repr

/-- The driver's own state. The fields marked MODEL are what keeping the order of 70_reset_and_hazards.md R274
takes, and the spec names none of them (assumption log 18). -/
structure Driver where
  /-- whether the Device Context is initialized, 70_reset_and_hazards.md R275 -/
  opened : Bool
  /-- MODEL: whether device open has completed -/
  openDone : Bool
  /-- MODEL: the chains to bring up -/
  wanted : List (Fin 3)
  /-- MODEL: whether the work-control step has completed since the last bring-up -/
  workDone : Bool
  /-- MODEL: the phase whose script the main task runs -/
  phase : Option Phase
  /-- the record of each chain, 70_reset_and_hazards.md R279 -/
  chains : Vector ChainRecord 3
  /-- the warnings and soft failures the driver logged, oldest first (45_payloads.md R209, 60_exceptions.md R246) -/
  log : List HostError
  deriving DecidableEq, Repr

/-- The driver before device open. -/
def Driver.fresh : Driver := ⟨false, false, [], false, none, Vector.replicate 3 .fresh, []⟩

end Sys2Proof.Machine
end

