-- ==== Sys2Proof/Machine/Script.lean ====
section
/-! DEFINITION. The statements of the host script, 47_host_script.md. They have no hardware encoding and are
no rows of the opcode table (30_encoding.md R92). -/

namespace Sys2Proof.Machine

/-- One statement; labels are statement numbers (47_host_script.md R221). Offsets, delays and shift amounts
are numbers, so that every check of the spec has something to refuse. -/
inductive Stmt where
  /-- R222 -/
  | li (d : Fin 8) (imm : Word)
  /-- R223 -/
  | wr (off : Nat) (xs : Fin 8)
  /-- R223 -/
  | wri (off : Nat) (imm : Word)
  /-- R224 -/
  | rd (d : Fin 8) (off : Nat)
  /-- R225 -/
  | fence
  /-- R226, in microseconds -/
  | delay (t : Nat)
  /-- R227 -/
  | andi (d xs : Fin 8) (imm : Word)
  /-- R228 -/
  | ori (d xs : Fin 8) (imm : Word)
  /-- R229 -/
  | addi (d xs : Fin 8) (imm : Word)
  /-- R230 -/
  | slli (d xs : Fin 8) (sh : Nat)
  /-- R230 -/
  | srli (d xs : Fin 8) (sh : Nat)
  /-- R231 -/
  | beqz (xs : Fin 8) (label : Nat)
  /-- R232 -/
  | bnez (xs : Fin 8) (label : Nat)
  /-- R233 -/
  | j (label : Nat)
  /-- R234 -/
  | halt
  /-- R235 -/
  | fail (e : HostError)
  deriving DecidableEq, Repr

/-- The label a statement names, if it names one. -/
def Stmt.target : Stmt → Option Nat
  | .li _ _ => none
  | .wr _ _ => none
  | .wri _ _ => none
  | .rd _ _ => none
  | .fence => none
  | .delay _ => none
  | .andi _ _ _ => none
  | .ori _ _ _ => none
  | .addi _ _ _ => none
  | .slli _ _ _ => none
  | .srli _ _ _ => none
  | .beqz _ l => some l
  | .bnez _ l => some l
  | .j l => some l
  | .halt => none
  | .fail _ => none

/-- The check of a script before any step, 47_host_script.md R231: every label names a statement. -/
def labelsOk (script : List Stmt) : Bool :=
  script.all (fun st => match st.target with
    | some l => l < script.length
    | none => true)

/-- Whether a task of HOST takes steps (47_host_script.md R234, R235). -/
inductive HostStatus where
  /-- the task has not started (70_reset_and_hazards.md R283) -/
  | idle
  | running
  | halted
  | failed (e : HostError)
  deriving DecidableEq, Repr

/-- How a statement stops HOST, if it does: HALT and FAIL alone do (47_host_script.md R234, R235). -/
def Stmt.stops : Stmt → Option HostStatus
  | .li _ _ => none
  | .wr _ _ => none
  | .wri _ _ => none
  | .rd _ _ => none
  | .fence => none
  | .delay _ => none
  | .andi _ _ _ => none
  | .ori _ _ _ => none
  | .addi _ _ _ => none
  | .slli _ _ _ => none
  | .srli _ _ _ => none
  | .beqz _ _ => none
  | .bnez _ _ => none
  | .j _ => none
  | .halt => some .halted
  | .fail e => some (.failed e)

/-- One task of HOST: its pc and its script (47_host_script.md R221), and whether it takes steps. -/
structure Task where
  pc : Nat
  script : List Stmt
  status : HostStatus
  deriving DecidableEq, Repr

end Sys2Proof.Machine
end

