-- ==== Sys2Proof/Machine/State.lean ====
section
/-! DEFINITION. The state vector of 10_state.md R23 to R36, HOST's scratch registers and its two tasks
(47_host_script.md R220 and R221, 60_exceptions.md R257), the driver's state of 70_reset_and_hazards.md R275 and
R279, and the model's own counters; the reset state of R43 and R270. -/

namespace Sys2Proof.Machine

/-- What stops the MACHINE. The spec's own faults are no stop: R240 records them and the run goes on. -/
inductive Fault where
  /-- Raised by the transmitter when the posted length byte is over 12, so that `byte(i)` of
  30_encoding.md R82 would lie past the buffer. The trigger checks the length (42_command_bus.md R146
  test 5), so no state a run reaches raises it (SAFE: the machine stops, assumption log 14). -/
  | txPastBuffer
  deriving DecidableEq, Repr

/-- What the model gives no meaning. The spec's own refusals are no stop: R242 records them. -/
inductive Refusal where
  /-- Raised by `exec` for an instruction without a meaning yet; no arm of `exec` raises it (SAFE). -/
  | notModelled (mnemonic : String)
  deriving DecidableEq, Repr

/-- One nonce entry, 10_state.md R26: the nonce word and the metadata word. -/
structure Entry where
  nonce : Word
  metadata : Word
  deriving DecidableEq, Repr

/-- One posted write, 10_state.md R36. -/
structure Pending where
  off : Nat
  value : Word
  deriving DecidableEq, Repr

/-- The state of the machine. -/
structure State where
  /-- the implementation parameters, which no step changes (00_scope.md R6, assumption log 4) -/
  cfg : Params
  /-- CMDBUF, 10_state.md R23 -/
  cmdBuf : Vector Word 3
  /-- CMDBUF_W, 10_state.md R23 -/
  cmdBufW : Vector Bool 3
  /-- CMD_READY, 10_state.md R24 -/
  cmdReady : Bool
  /-- CMD_CHAIN, 10_state.md R25 -/
  cmdChain : Fin 3
  /-- NF_Q, oldest first, 10_state.md R26 -/
  nfQ : List Entry
  /-- NF_PHASE, 10_state.md R30 -/
  nfPhase : Bool
  /-- NONCE_TIMEOUT, 10_state.md R33 -/
  nonceTimeout : Word
  /-- WQ, oldest first, 10_state.md R36 -/
  wq : List Pending
  /-- HIST, oldest first, 10_state.md R34 -/
  hist : List Event
  /-- FAULT, each kind once in the order of its code, 10_state.md R35 (assumption log 20) -/
  faults : List FaultKind
  /-- REFUSED, 10_state.md R35 -/
  refused : Bool
  /-- the scratch registers x[0] to x[7], which are HOST's and so both tasks' (47_host_script.md R220, assumption
  log 25) -/
  x : Vector Word 8
  /-- which scratch registers have been written, 70_reset_and_hazards.md R270 -/
  xW : Vector Bool 8
  /-- the task that runs boot and bring-up and then the work feeder: pc, script and status (47_host_script.md R221,
  00_scope.md R7) -/
  main : Task
  /-- the nonce drainer: pc, script and status (00_scope.md R7, 60_exceptions.md R257) -/
  drainer : Task
  /-- MODEL: the task whose statement HOST runs, set at each turn of HOST (assumption log 25) -/
  active : HostTask
  /-- the Device Context and the Chain Controller's records (70_reset_and_hazards.md R275, R279) -/
  driver : Driver
  /-- MODEL: how many free values have been drawn (assumption log 6) -/
  drawNo : Nat
  /-- MODEL: how many turns the free schedule has given (assumption log 7) -/
  turnNo : Nat
  /-- MODEL: turns of the schedule already chosen, taken before the free schedule (assumption log 7) -/
  agenda : List Turn
  deriving DecidableEq, Repr

/-- The reset state of 10_state.md R43 and 70_reset_and_hazards.md R270 for given parameters. The words of
CMDBUF, CMD_CHAIN and the scratch registers have no reset value in the spec; they are zero here
(DESIGN CHOICE, unsafe, assumption log 11). -/
def State.resetWith (p : Params) : State where
  cfg := p
  cmdBuf := Vector.replicate 3 0
  cmdBufW := Vector.replicate 3 false
  cmdReady := false
  cmdChain := 0
  nfQ := []
  nfPhase := false
  nonceTimeout := p.timeoutReset
  wq := []
  hist := []
  faults := []
  refused := false
  x := Vector.replicate 8 0
  xW := Vector.replicate 8 false
  main := ⟨0, [], .running⟩
  drainer := ⟨0, [], .idle⟩
  active := .main
  driver := .fresh
  drawNo := 0
  turnNo := 0
  agenda := []

/-- The machine right after reset. -/
def State.reset : State := State.resetWith Config.params

end Sys2Proof.Machine
end

