-- ==== Sys2Proof/Machine/Ops.lean ====
section
/-! DEFINITION. The named operations every meaning is written over: recording events, raising a fault (the
block's only exception, 60_exceptions.md R240 and R250), refusing, drawing a free value, HOST's registers
and pc, and the choice of a posted write. -/

namespace Sys2Proof.Machine

/-- `emit(ev)` of 00_scope.md R11. -/
def State.record (e : Event) (s : State) : State := { s with hist := s.hist ++ [e] }

/-- Add a kind to the set FAULT, which holds each kind once (60_exceptions.md R251), in the order of the codes. -/
def insertKind (k : FaultKind) : List FaultKind → List FaultKind
  | [] => [k]
  | h :: t => if k = h then h :: t else if k.code < h.code then k :: h :: t else h :: insertKind k t

/-- `raise Fault(kind)`, 60_exceptions.md R240: the kind joins FAULT, the event joins HIST, and nothing else
changes. No state is saved, no mode changes and control goes nowhere (R250); there is no return (R251). -/
def State.raise (k : FaultKind) (off : Option Nat) (s : State) : State :=
  { s with faults := insertKind k s.faults, hist := s.hist ++ [.fault k off] }

/-- `refuse(reason)`, 60_exceptions.md R242. -/
def State.refuse (r : RefusalReason) (s : State) : State :=
  { s with refused := true, hist := s.hist ++ [.refuse r] }

/-- The value the next `draw(bits32)` returns. -/
def State.nextDraw (s : State) : Word := Config.freeWord s.drawNo

/-- The state after a draw that returned `v`: the draw is recorded in HIST (00_scope.md R11). -/
def State.drawn (v : Word) (s : State) : State :=
  { s with drawNo := s.drawNo + 1, hist := s.hist ++ [.draw v] }

/-- The state after `draw(bits32)`. -/
def State.afterDraw (s : State) : State := s.drawn s.nextDraw

/-- `draw_from({a, b})` of 00_scope.md R11. -/
def State.chooseOf (a b : Nat) (s : State) : Nat := if Config.freeBool s.drawNo then a else b

/-- Read a scratch register; one that is unwritten gives F_UNDEF (60_exceptions.md R241 code 9). -/
def State.readX (r : Fin 8) (s : State) : Option Word := if s.xW[r] then some s.x[r] else none

/-- `x[d] <- v`. -/
def State.writeX (d : Fin 8) (v : Word) (s : State) : State :=
  { s with x := s.x.set d v, xW := s.xW.set d true }

/-- A task of HOST, 60_exceptions.md R257. -/
def State.task (k : HostTask) (s : State) : Task :=
  match k with
  | .main => s.main
  | .drainer => s.drainer

/-- The task whose statement HOST runs. -/
def State.current (s : State) : Task := s.task s.active

/-- The pc of the task HOST runs, 47_host_script.md R221. -/
def State.pc (s : State) : Nat := s.current.pc

/-- The script of the task HOST runs, 47_host_script.md R221. -/
def State.script (s : State) : List Stmt := s.current.script

/-- Whether the task HOST runs takes steps, 47_host_script.md R234 and R235. -/
def State.host (s : State) : HostStatus := s.current.status

/-- HOST with one task replaced. -/
def State.setTask (k : HostTask) (t : Task) (s : State) : State :=
  { s with main := if k = .main then t else s.main, drainer := if k = .drainer then t else s.drainer }

/-- HOST running a given task: the steps come from either task in any interleaving (60_exceptions.md R257). -/
def State.activate (k : HostTask) (s : State) : State := { s with active := k }

/-- `pc <- n`. -/
def State.setPc (n : Nat) (s : State) : State := s.setTask s.active { s.current with pc := n }

/-- HOST stops: it is one agent, so neither task takes a further step (47_host_script.md R234, R235, 60_exceptions.md
R257). -/
def State.setHost (h : HostStatus) (s : State) : State :=
  { s with main := { s.main with status := h }, drainer := { s.drainer with status := h } }

/-- `pc <- pc + 1`, 47_host_script.md R221. -/
def State.nextPc (s : State) : State := s.setPc (s.pc + 1)

/-- Whether the pc moves past a statement that faulted or was refused: open between R221 and R240 for a statement
that R221 ends with `pc <- pc + 1`, and so for no branch (assumption log 8). -/
def State.pastFault (s : State) : State := if s.cfg.faultAdvancesPc then s.nextPc else s

/-- A fault raised by the statement HOST is running, a statement that is no branch. -/
def State.hostFault (k : FaultKind) (off : Option Nat) (s : State) : State := (s.raise k off).pastFault

/-- A refusal of the statement HOST is running. -/
def State.hostRefuse (r : RefusalReason) (s : State) : State := (s.refuse r).pastFault

/-- The end of a read that returned `v`: HIST records `R(off, v)` (20_memory.md R61), the word goes to x[d]
and the pc to the next statement (47_host_script.md R224). -/
def State.finishRead (d : Fin 8) (off : Nat) (v : Word) (s : State) : State :=
  ((s.record (.read off v)).writeX d v).nextPc

/-- The nonce FIFO and the read phase after a read (43_nonce_fifo.md R175). -/
def State.setNonces (q : List Entry) (phase : Bool) (s : State) : State := { s with nfQ := q, nfPhase := phase }

/-- The queue of posted writes after one was issued or taken (20_memory.md R60). -/
def State.setWq (wq : List Pending) (s : State) : State := { s with wq := wq }

/-- Write word k of the command buffer, 42_command_bus.md R140. -/
def State.setBuf (k : Fin 3) (v : Word) (s : State) : State :=
  { s with cmdBuf := s.cmdBuf.set k v, cmdBufW := s.cmdBufW.set k true }

/-- Post the frame now in the buffer to a chain, 42_command_bus.md R145. -/
def State.post (c : Fin 3) (s : State) : State := { s with cmdChain := c, cmdReady := true }

/-- The posted writes WB may take, each with the queue that is left: an entry with no older entry for the
same offset (20_memory.md R60). `older` are the entries already passed, oldest first. -/
def takeableFrom (older : List Pending) : List Pending → List (Pending × List Pending)
  | [] => []
  | e :: rest =>
    (if older.any (fun o => o.off == e.off) then [] else [(e, older ++ rest)]) ++
      takeableFrom (older ++ [e]) rest

/-- The posted writes WB may take under STRICT_MMIO_ORDER or without it (20_memory.md R60). -/
def takeable (strict : Bool) (wq : List Pending) : List (Pending × List Pending) :=
  if strict then (takeableFrom [] wq).take 1 else takeableFrom [] wq

/-- The entry a WB turn takes; every takeable entry is some `pick`'s. -/
def chooseWrite (strict : Bool) (pick : Nat) (wq : List Pending) : Option (Pending × List Pending) :=
  (takeable strict wq)[pick % (takeable strict wq).length]?

/-- Whether a read at `off` holds, 20_memory.md R61. -/
def State.readHolds (off : Nat) (s : State) : Bool :=
  s.wq.any (fun e => e.off == off) || (s.cfg.strictOrder && !s.wq.isEmpty)

end Sys2Proof.Machine
end

