-- ==== Sys2Proof/Machine/Operands.lean ====
section
/-! DEFINITION. The operand fields: the trigger word of 10_state.md R38, the length byte and the bytes of a
posted frame, and the fields of the nonce words (30_encoding.md R84 to R86). -/

namespace Sys2Proof.Machine

/-- READY_MASK, 42_command_bus.md R146. -/
def readyMask (p : Params) : Word := (1 : Word) <<< p.readyBit

/-- CHAIN_MASK, 42_command_bus.md R146. -/
def chainMask (p : Params) : Word := (((1 : Word) <<< p.chainWidth) - 1) <<< p.chainLsb

/-- The chain field of a trigger word, 10_state.md R38. -/
def chainField (p : Params) (v : Word) : Nat := (v.extractLsb' p.chainLsb p.chainWidth).toNat

/-- TRIG(c) of 47_host_script.md section 3: the trigger word for a chain. -/
def trigWord (p : Params) (c : Fin 3) : Word :=
  readyMask p ||| (BitVec.ofNat 32 c.val <<< p.chainLsb) ||| p.ctlExtra

/-- What decision D3 asks of the trigger parameters: disjoint fields inside the word and a chain field that
holds chain 2; and the range of NONCE_FIFO_DEPTH (10_state.md R27). -/
def paramsOk (p : Params) : Bool :=
  p.readyBit < 32 && 2 ≤ p.chainWidth && p.chainLsb + p.chainWidth ≤ 32 &&
    (readyMask p &&& chainMask p) == 0 && (p.ctlExtra &&& (readyMask p ||| chainMask p)) == 0 &&
    1 ≤ p.fifoDepth && p.fifoDepth ≤ 32767

/-- Frame byte 1, `CMDBUF[0][23:16]` (42_command_bus.md R146 test 5, R150). -/
def lengthByte (buf : Vector Word 3) : Nat := ((buf[0] >>> 16).setWidth 8).toNat

/-- The bytes TX sends, `byte(0)` to `byte(L-1)` (42_command_bus.md R150). -/
def postedBytes (buf : Vector Word 3) : List Byte := (List.range (lengthByte buf)).map (bufByte buf)

/-- Whether every buffer word a frame of `n` bytes needs has been written, 42_command_bus.md R146 test 6. -/
def wordsWritten (w : Vector Bool 3) (n : Nat) : Bool :=
  (List.range (wordsNeeded n)).all (fun k => w.toList.getD k false)

/-- The count field of a NONCE_COUNT word, `v & 0x7FFF` (30_encoding.md R86). -/
def countField (v : Word) : Nat := (v &&& 0x7FFF).toNat

end Sys2Proof.Machine
end

