-- ==== Sys2Proof/Machine/Flags.lean ====
section
/-! DEFINITION. The one status flag CMD_READY (10_state.md R22) as a read returns it, the count field of a
NONCE_COUNT read, the tests of the trigger, and the hazard check of TX. -/

namespace Sys2Proof.Machine

/-- `v` with bit `n` replaced. -/
def withBit (v : Word) (n : Nat) (b : Bool) : Word :=
  (v &&& ~~~((1 : Word) <<< n)) ||| (if b then (1 : Word) <<< n else 0)

/-- The word a CMD_CTL read returns: a draw with the ready bit in it (42_command_bus.md R148). -/
def statusWord (p : Params) (drawn : Word) (ready : Bool) : Word := withBit drawn p.readyBit ready

/-- The word a NONCE_COUNT read returns: a draw with the count in bits 14 to 0 (43_nonce_fifo.md R170). -/
def countWord (drawn : Word) (c : Nat) : Word := (drawn &&& ~~~(0x7FFF : Word)) ||| (BitVec.ofNat 32 c &&& 0x7FFF)

/-- The outcome of TRIGGER_CHECK. -/
inductive TriggerCheck where
  | ok (c : Fin 3)
  | fault (k : FaultKind)
  | refuse (r : RefusalReason)
  deriving DecidableEq, Repr

/-- TRIGGER_CHECK(v) of 42_command_bus.md R146, its six tests in order. -/
def triggerCheck (p : Params) (buf : Vector Word 3) (w : Vector Bool 3) (v : Word) : TriggerCheck :=
  if v &&& readyMask p = 0 then .refuse .trigForm
  else if v &&& ~~~(readyMask p ||| chainMask p) ≠ p.ctlExtra then .refuse .trigForm
  else if h : chainField p v < 3 then
    if !w[0] then .fault .unwritten
    else if lengthByte buf < 2 ∨ 12 < lengthByte buf then .fault .len
    else if !wordsWritten w (lengthByte buf) then .fault .unwritten
    else .ok ⟨chainField p v, h⟩
  else .fault .chain

/-- One event of the scan of 70_reset_and_hazards.md R294: whether the last frame to the chain was SET_ADDRESS,
and the delays since it. -/
def settleStep (c : Fin 3) (acc : Option (Bool × Nat)) (e : Event) : Option (Bool × Nat) :=
  match e with
  | .emit c' bytes => if c' = c then some (bytes.head? == some 0x40, 0) else acc
  | .delay t => acc.map (fun a => (a.1, a.2 + t))
  | _ => acc

/-- The last frame to a chain and the time since it, 70_reset_and_hazards.md R293 and R294. -/
def sinceLastFrame (c : Fin 3) (hist : List Event) : Option (Bool × Nat) := hist.foldl (settleStep c) none

/-- HAZARD_CHECK(c) of 70_reset_and_hazards.md R294: whether it raises F_HAZARD. -/
def hazard (c : Fin 3) (hist : List Event) : Bool :=
  match sinceLastFrame c hist with
  | some (true, t) => t < settleMicros
  | some (false, _) => false
  | none => false

/-- The state in which HAZARD_CHECK leaves the machine before the emit. -/
def State.hazardChecked (s : State) : State :=
  if hazard s.cmdChain s.hist then s.raise .hazard none else s

/-- TX_COMPLETE of 42_command_bus.md R150 for the bytes of the posted frame: the hazard check, the emit, and
the ready bit cleared. -/
def State.sendFrame (bytes : List Byte) (s : State) : State :=
  { s.hazardChecked.record (.emit s.cmdChain bytes) with cmdReady := false }

end Sys2Proof.Machine
end

