-- ==== Sys2Proof/Machine/CommandBus.lean ====
section
/-! DEFINITION. The meanings of the command-bus transactions (42_command_bus.md R140 to R148). A write's meaning
is its performance by WB, a read's is HOST's read (20_memory.md R60, R61; assumption log 2). -/

namespace Sys2Proof.Machine

/-- CMD_BUF_WR(k, v) of 42_command_bus.md R140, with the busy rule R141. -/
def bufWrite (k : Fin 3) (v : Word) (s : State) : State :=
  if s.cmdReady then s.raise .busy (some (bufOffset s.cfg.layout k)) else s.setBuf k v

/-- CMD_BUFk_RD of 42_command_bus.md R142: the word is a draw. -/
def bufRead (k : Fin 3) (d : Fin 8) (s : State) : State :=
  s.afterDraw.finishRead d (bufOffset s.cfg.layout k) s.nextDraw

/-- CMD_BUF0_WR, 42_command_bus.md R140. -/
def execCmdBuf0Wr (v : Word) (s : State) : Host.Outcome State Fault Refusal := .next (bufWrite 0 v s)

/-- CMD_BUF1_WR, 42_command_bus.md R140. -/
def execCmdBuf1Wr (v : Word) (s : State) : Host.Outcome State Fault Refusal := .next (bufWrite 1 v s)

/-- CMD_BUF2_WR, 42_command_bus.md R140. -/
def execCmdBuf2Wr (v : Word) (s : State) : Host.Outcome State Fault Refusal := .next (bufWrite 2 v s)

/-- CMD_BUF0_RD, 42_command_bus.md R142. -/
def execCmdBuf0Rd (d : Fin 8) (s : State) : Host.Outcome State Fault Refusal := .next (bufRead 0 d s)

/-- CMD_BUF1_RD, 42_command_bus.md R142. -/
def execCmdBuf1Rd (d : Fin 8) (s : State) : Host.Outcome State Fault Refusal := .next (bufRead 1 d s)

/-- CMD_BUF2_RD, 42_command_bus.md R142. -/
def execCmdBuf2Rd (d : Fin 8) (s : State) : Host.Outcome State Fault Refusal := .next (bufRead 2 d s)

/-- CMD_CTL_WR, 42_command_bus.md R145: F_BUSY before TRIGGER_CHECK (60_exceptions.md R244), then the frame in
the buffer is posted. -/
def execCmdCtlWr (v : Word) (s : State) : Host.Outcome State Fault Refusal :=
  if s.cmdReady then .next (s.raise .busy (some (ctlOffset s.cfg.layout)))
  else match triggerCheck s.cfg s.cmdBuf s.cmdBufW v with
    | .ok c => .next (s.post c)
    | .fault k => .next (s.raise k (some (ctlOffset s.cfg.layout)))
    | .refuse r => .next (s.refuse r)

/-- CMD_CTL_RD, 42_command_bus.md R148: a draw with the ready bit in its place. -/
def execCmdCtlRd (d : Fin 8) (s : State) : Host.Outcome State Fault Refusal :=
  .next (s.afterDraw.finishRead d (ctlOffset s.cfg.layout) (statusWord s.cfg s.nextDraw s.cmdReady))

end Sys2Proof.Machine
end

