-- ==== Sys2Proof/Machine/CommandFrames.lean ====
section
/-! DEFINITION. The meanings of the six chip command frames (41_command_frames.md R121 to R127). The machine
executes a frame when TX sends it (42_command_bus.md R150, assumption log 1): the frame's bytes go to the
chain the trigger named and the ready bit clears. What a chip does with them is outside the model (R8). -/

namespace Sys2Proof.Machine

/-- Send a frame's bytes. TX has a step exactly when CMD_READY = 1 (42_command_bus.md R150); otherwise
nothing happens. -/
def transmit (bytes : List Byte) (s : State) : Host.Outcome State Fault Refusal :=
  if s.cmdReady then .next (s.sendFrame bytes) else .next s

/-- CHAIN_INACTIVE, 41_command_frames.md R121. -/
def execChainInactive (crc : BitVec 5) (s : State) : Host.Outcome State Fault Refusal :=
  transmit (frameBytes (.chainInactive crc)) s

/-- SET_ADDRESS, 41_command_frames.md R122. -/
def execSetAddress (addr : Byte) (crc : BitVec 5) (s : State) : Host.Outcome State Fault Refusal :=
  transmit (frameBytes (.setAddress addr crc)) s

/-- WRITE_REG, 41_command_frames.md R124. -/
def execWriteReg (chip reg : Byte) (value : Word) (crc : BitVec 5) (s : State) : Host.Outcome State Fault Refusal :=
  transmit (frameBytes (.writeReg chip reg value crc)) s

/-- WRITE_REG_BC, 41_command_frames.md R125. -/
def execWriteRegBc (chip reg : Byte) (value : Word) (crc : BitVec 5) (s : State) : Host.Outcome State Fault Refusal :=
  transmit (frameBytes (.writeRegBc chip reg value crc)) s

/-- READ_REG, 41_command_frames.md R126; no reply is observable (20_memory.md R53). -/
def execReadReg (chip reg : Byte) (crc : BitVec 5) (s : State) : Host.Outcome State Fault Refusal :=
  transmit (frameBytes (.readReg chip reg crc)) s

/-- READ_REG_BC, 41_command_frames.md R127; no reply is observable (20_memory.md R53). -/
def execReadRegBc (chip reg : Byte) (crc : BitVec 5) (s : State) : Host.Outcome State Fault Refusal :=
  transmit (frameBytes (.readRegBc chip reg crc)) s

end Sys2Proof.Machine
end

