-- ==== Sys2Proof/Machine/NonceFifo.lean ====
section
/-! DEFINITION. The meanings of the nonce-path transactions (43_nonce_fifo.md R170 to R177, R188 to R191) and
the RX step that fills the FIFO (R185, R186). -/

namespace Sys2Proof.Machine

/-- NONCE_DATA_RD, 43_nonce_fifo.md R175 and R176: the nonce word, then the metadata word with the entry
removed; F_EMPTY on an empty FIFO. -/
def execNonceDataRd (d : Fin 8) (s : State) : Host.Outcome State Fault Refusal :=
  match s.nfQ with
  | [] => .next (s.hostFault .empty (some (regOffset s.cfg.layout .nonceData)))
  | e :: rest =>
    if s.nfPhase then
      .next ((s.setNonces rest false).finishRead d (regOffset s.cfg.layout .nonceData) e.metadata)
    else
      .next ((s.setNonces s.nfQ true).finishRead d (regOffset s.cfg.layout .nonceData) e.nonce)

/-- NONCE_DATA_WR, 43_nonce_fifo.md R177. -/
def execNonceDataWr (_v : Word) (s : State) : Host.Outcome State Fault Refusal :=
  .next (s.raise .ro (some (regOffset s.cfg.layout .nonceData)))

/-- The count a NONCE_COUNT read sees, 43_nonce_fifo.md R170: while the head entry is half read it is n or
n - 1, a free choice. -/
def visibleCount (s : State) : Nat :=
  if s.nfPhase then s.chooseOf s.nfQ.length (s.nfQ.length - 1) else s.nfQ.length

/-- The state after the choice of `visibleCount`: `draw_from` is a draw and is recorded (assumption log 6). -/
def countChosen (s : State) : State :=
  if s.nfPhase then s.drawn (BitVec.ofNat 32 (visibleCount s)) else s

/-- NONCE_COUNT_RD, 43_nonce_fifo.md R170. -/
def execNonceCountRd (d : Fin 8) (s : State) : Host.Outcome State Fault Refusal :=
  .next ((countChosen s).afterDraw.finishRead d (regOffset s.cfg.layout .nonceCount)
    (countWord (countChosen s).nextDraw (visibleCount s)))

/-- NONCE_COUNT_WR, 43_nonce_fifo.md R172. -/
def execNonceCountWr (_v : Word) (s : State) : Host.Outcome State Fault Refusal :=
  .next (s.raise .ro (some (regOffset s.cfg.layout .nonceCount)))

/-- NONCE_TIMEOUT_RD, 43_nonce_fifo.md R190. -/
def execNonceTimeoutRd (d : Fin 8) (s : State) : Host.Outcome State Fault Refusal :=
  .next (s.finishRead d (regOffset s.cfg.layout .nonceTimeout) s.nonceTimeout)

/-- NONCE_TIMEOUT_WR, 43_nonce_fifo.md R191. -/
def execNonceTimeoutWr (v : Word) (s : State) : Host.Outcome State Fault Refusal :=
  .next { s with nonceTimeout := v }

/-- CRC_ERR_RD, 43_nonce_fifo.md R188: the word is a draw. -/
def execCrcErrRd (d : Fin 8) (s : State) : Host.Outcome State Fault Refusal :=
  .next (s.afterDraw.finishRead d (regOffset s.cfg.layout .crcErr) s.nextDraw)

/-- CRC_ERR_WR, 43_nonce_fifo.md R189. -/
def execCrcErrWr (_v : Word) (s : State) : Host.Outcome State Fault Refusal :=
  .next (s.raise .ro (some (regOffset s.cfg.layout .crcErr)))

/-- RX offers one entry, 43_nonce_fifo.md R185; a full FIFO discards it (R186). -/
def offerEntry (e : Entry) (s : State) : State :=
  if s.nfQ.length < s.cfg.fifoDepth then
    (s.setNonces (s.nfQ ++ [e]) s.nfPhase).record (.push e.nonce e.metadata)
  else s.record (.drop e.nonce e.metadata)

/-- The entry RX offers next: two draws, the nonce word first (43_nonce_fifo.md R185). -/
def nextOffer (s : State) : Entry := ⟨s.nextDraw, s.afterDraw.nextDraw⟩

/-- RX_PUSH, 43_nonce_fifo.md R185. -/
def rxPush (s : State) : State := offerEntry (nextOffer s) s.afterDraw.afterDraw

end Sys2Proof.Machine
end

