-- ==== Sys2Proof/Machine/Dispatch.lean ====
section
/-! DEFINITION. The meaning of every instruction, one arm per row of spec/opcode_table.json. -/

namespace Sys2Proof.Machine

def exec (i : Instr) (s : State) : Host.Outcome State Fault Refusal :=
  match i with
  | .chainInactive crc => Sys2Proof.Machine.execChainInactive crc s
  | .setAddress addr crc => Sys2Proof.Machine.execSetAddress addr crc s
  | .writeReg chip reg value crc => Sys2Proof.Machine.execWriteReg chip reg value crc s
  | .writeRegBc chip reg value crc => Sys2Proof.Machine.execWriteRegBc chip reg value crc s
  | .readReg chip reg crc => Sys2Proof.Machine.execReadReg chip reg crc s
  | .readRegBc chip reg crc => Sys2Proof.Machine.execReadRegBc chip reg crc s
  | .nonceDataRd d => Sys2Proof.Machine.execNonceDataRd d s
  | .nonceDataWr v => Sys2Proof.Machine.execNonceDataWr v s
  | .nonceCountRd d => Sys2Proof.Machine.execNonceCountRd d s
  | .nonceCountWr v => Sys2Proof.Machine.execNonceCountWr v s
  | .nonceTimeoutRd d => Sys2Proof.Machine.execNonceTimeoutRd d s
  | .nonceTimeoutWr v => Sys2Proof.Machine.execNonceTimeoutWr v s
  | .cmdCtlRd d => Sys2Proof.Machine.execCmdCtlRd d s
  | .cmdCtlWr v => Sys2Proof.Machine.execCmdCtlWr v s
  | .cmdBuf0Rd d => Sys2Proof.Machine.execCmdBuf0Rd d s
  | .cmdBuf0Wr v => Sys2Proof.Machine.execCmdBuf0Wr v s
  | .cmdBuf1Rd d => Sys2Proof.Machine.execCmdBuf1Rd d s
  | .cmdBuf1Wr v => Sys2Proof.Machine.execCmdBuf1Wr v s
  | .cmdBuf2Rd d => Sys2Proof.Machine.execCmdBuf2Rd d s
  | .cmdBuf2Wr v => Sys2Proof.Machine.execCmdBuf2Wr v s
  | .crcErrRd d => Sys2Proof.Machine.execCrcErrRd d s
  | .crcErrWr v => Sys2Proof.Machine.execCrcErrWr v s

end Sys2Proof.Machine
end

