-- ==== Sys2Proof/Machine/HostScript.lean ====
section
/-! DEFINITION. The meanings of HOST's statements (47_host_script.md R222 to R235) and of the two accesses they
make: issuing a posted write and performing a read (20_memory.md R60, R61). -/

namespace Sys2Proof.Machine

/-- Run `f` on the value of a source register; an unwritten one raises F_UNDEF, checked before anything else
(60_exceptions.md R244 item 1). For the statements that R221 ends with `pc <- pc + 1`. -/
def withX (xs : Fin 8) (f : Word → State → State) (s : State) : State :=
  match s.readX xs with
  | some v => f v s
  | none => s.hostFault .undef none

/-- `x[d] <- v` as the end of a statement. -/
def setX (d : Fin 8) (v : Word) (s : State) : State := (s.writeX d v).nextPc

/-- `pc <- label`. -/
def jump (label : Nat) (s : State) : State := s.setPc label

/-- BEQZ and BNEZ, 47_host_script.md R231 and R232: the label when the source register's value meets `taken`, else
the next statement. An unwritten register raises F_UNDEF and nothing else changes: R221 moves no branch's pc, so
60_exceptions.md R240 alone rules it. -/
def branch (taken : Word → Bool) (xs : Fin 8) (label : Nat) (s : State) : State :=
  match s.readX xs with
  | some v => if taken v then jump label s else s.nextPc
  | none => s.raise .undef none

/-- Put a checked write in WQ, 20_memory.md R60. -/
def postWrite (off : Nat) (v : Word) (s : State) : State :=
  ((s.setWq (s.wq ++ [Pending.mk off v])).record (.issued off v)).nextPc

/-- `MmioWrite(off, v)` of a given access width: the issue checks, then the write joins WQ (20_memory.md R51,
R52, R54, R60). -/
def mmioWrite (width off : Nat) (v : Word) (s : State) : State :=
  match checkAccess s.cfg.layout width off with
  | .ok _ => postWrite off v s
  | .fault k => s.hostFault k (some off)
  | .refuse r => s.hostRefuse r

/-- `x[d] <- MmioRead(off)` of a given access width: the issue checks, the hold of 20_memory.md R61, then the
register's own transaction. A read that holds, holds its own task: the other task may step on (DESIGN CHOICE, assumption
log 37). -/
def mmioRead (width : Nat) (d : Fin 8) (off : Nat) (s : State) : Host.Outcome State Fault Refusal :=
  match checkAccess s.cfg.layout width off with
  | .ok r => if s.readHolds off then .next s else exec (readInstr r d) s
  | .fault k => .next (s.hostFault k (some off))
  | .refuse r => .next (s.hostRefuse r)

/-- A shift by a constant: 32 or more is refused after the operand check (47_host_script.md R230). -/
def shiftStmt (shift : Word → Nat → Word) (d xs : Fin 8) (sh : Nat) (s : State) : State :=
  withX xs (fun v t => if sh < 32 then setX d (shift v sh) t else t.hostRefuse .shift) s

/-- FENCE, 20_memory.md R62: a step only when WQ is empty. It holds its own task alone (DESIGN CHOICE, assumption
log 37). -/
def fenceStmt (s : State) : State := if s.wq.isEmpty then (s.record .fence).nextPc else s

/-- One statement of the host script, 47_host_script.md R222 to R235. -/
def execStmt (st : Stmt) (s : State) : Host.Outcome State Fault Refusal :=
  match st with
  | .li d imm => .next (setX d imm s)
  | .wr off xs => .next (withX xs (fun v t => mmioWrite 32 off v t) s)
  | .wri off imm => .next (mmioWrite 32 off imm s)
  | .rd d off => mmioRead 32 d off s
  | .fence => .next (fenceStmt s)
  | .delay t => .next (s.record (.delay t)).nextPc
  | .andi d xs imm => .next (withX xs (fun v t => setX d (v &&& imm) t) s)
  | .ori d xs imm => .next (withX xs (fun v t => setX d (v ||| imm) t) s)
  | .addi d xs imm => .next (withX xs (fun v t => setX d (v + imm) t) s)
  | .slli d xs sh => .next (shiftStmt (fun v n => v <<< n) d xs sh s)
  | .srli d xs sh => .next (shiftStmt (fun v n => v >>> n) d xs sh s)
  | .beqz xs label => .next (branch (· == 0) xs label s)
  | .bnez xs label => .next (branch (· != 0) xs label s)
  | .j label => .next (jump label s)
  | .halt => .next (s.setHost .halted)
  | .fail e => .next (s.setHost (.failed e))

/-- One step of the task HOST runs: the statement at pc; a pc that names no statement is refused (47_host_script.md
R221), and a task that has ended or not started takes no step (R234, R235, 70_reset_and_hazards.md R283). A last
statement that runs off the script's end takes its step, and the refusal comes at the task's next turn (DESIGN CHOICE,
assumption log 36). -/
def hostStep (s : State) : Host.Outcome State Fault Refusal :=
  match s.host with
  | .running =>
    match s.script[s.pc]? with
    | some st => execStmt st s
    | none => .next (s.refuse .noStmt)
  | .idle => .next s
  | .halted => .next s
  | .failed _ => .next s

/-- A task's script comes to run from outside the machine: its labels are checked before any step
(47_host_script.md R231), then the task starts at statement 0 (R221, 70_reset_and_hazards.md R272). -/
def loadTask (k : HostTask) (script : List Stmt) (s : State) : State :=
  if labelsOk script then s.setTask k ⟨0, script, .running⟩ else s.refuse .noStmt

/-- The script of a HOST that is one task. -/
def loadScript (script : List Stmt) (s : State) : State := loadTask .main script s

end Sys2Proof.Machine
end

