-- ==== Sys2Proof/Machine/Agents.lean ====
section
/-! DEFINITION. The steps of the other agents (00_scope.md R7): TX completes a posted frame, WB performs a
posted write, RX offers an entry; the turn each takes, and where an instruction is placed to run next. -/

namespace Sys2Proof.Machine

/-- Apply a change to a next state, and leave a stop as it is. -/
def onNext (f : State → State) : Host.Outcome State Fault Refusal → Host.Outcome State Fault Refusal
  | .next s => .next (f s)
  | .fault r => .fault r
  | .refused r => .refused r

/-- TX fetches the posted frame's bytes from the buffer and executes it: the instruction they spell, or the
same bytes verbatim where they spell none (42_command_bus.md R150, R151). -/
def txStep (s : State) : Host.Outcome State Fault Refusal :=
  if s.cmdReady then
    if maxFrameBytes < lengthByte s.cmdBuf then .fault .txPastBuffer
    else match decode s.cfg.layout .frame (postedBytes s.cmdBuf) with
      | .ok i => exec i s
      | .error _ => transmit (postedBytes s.cmdBuf) s
  else .next s

/-- The write rule of the register at an offset, 20_memory.md R60; WQ holds only offsets of the block
(assumption log 12). -/
def performWrite (off : Nat) (v : Word) (s : State) : Host.Outcome State Fault Refusal :=
  match regAt s.cfg.layout off with
  | some r => exec (writeInstr r v) s
  | none => .next (s.refuse .outOfBlock)

/-- A WB step: one posted write leaves WQ, its register's write rule applies, and HIST records `P(off, v)`
(20_memory.md R60). -/
def wbStep (pick : Nat) (s : State) : Host.Outcome State Fault Refusal :=
  match chooseWrite s.cfg.strictOrder pick s.wq with
  | some (e, rest) =>
    onNext (State.record (.performed e.off e.value)) (performWrite e.off e.value (s.setWq rest))
  | none => .next s

/-- The step of the agent whose turn it is (60_exceptions.md R248); HOST's comes from the task the turn names (R257).
An agent without a step leaves the state. -/
def runTurn (t : Turn) (s : State) : Host.Outcome State Fault Refusal :=
  match t with
  | .host k => hostStep (s.activate k)
  | .tx => txStep s
  | .rx => .next (rxPush s)
  | .wb pick => wbStep pick s

/-- The turn that comes next: the first one already chosen, else the free schedule's (assumption log 7). -/
def turnOf (s : State) : Turn :=
  match s.agenda with
  | t :: _ => t
  | [] => Config.schedule s.turnNo

/-- The state with that turn used up. -/
def turnTaken (s : State) : State :=
  match s.agenda with
  | _ :: rest => { s with agenda := rest }
  | [] => { s with turnNo := s.turnNo + 1 }

/-- A frame placed where TX sends from: in the buffer, posted, with TX's turn next. -/
def placeFrame (bs : List Byte) (s : State) : State :=
  { s with
    cmdBuf := pack bs
    cmdBufW := Vector.replicate 3 true
    cmdReady := true
    agenda := .tx :: s.agenda }

/-- A write transaction placed where WB takes it: the oldest of WQ, with WB's turn next. -/
def placeWrite (off : Nat) (v : Word) (s : State) : State :=
  { s with wq := Pending.mk off v :: s.wq, agenda := .wb 0 :: s.agenda }

/-- A read transaction placed where HOST performs it: the statement at pc of the task it runs, nothing in WQ to hold
it, and HOST's turn next. -/
def placeRead (off : Nat) (d : Fin 8) (s : State) : State :=
  State.setTask s.active ⟨s.script.length, s.script ++ [.rd d off], .running⟩ { s with
    wq := if s.cfg.strictOrder then [] else s.wq.filter (fun e => e.off != off)
    agenda := .host s.active :: s.agenda }

/-- An opcode-table word placed where the machine's next step runs it. -/
def placeWord (nbits w : Nat) (s : State) : State :=
  match tableLanguage nbits with
  | .frame => placeFrame (tableBytes nbits w) s
  | .transaction =>
    if 0x2000 ≤ w % 0x10000 then placeWrite (w % 0x2000) (BitVec.ofNat 32 (w / 0x10000)) s
    else placeRead (w % 0x2000) (Fin.ofNat 8 (w / 0x10000)) s

end Sys2Proof.Machine
end

