-- ==== Sys2Proof/Machine/Deframer.lean ====
section
/-! DEFINITION. The deframer of 43_nonce_fifo.md: DEFRAME (R180), COLLECT and DRAIN_STALE as HOST's reads
(R183, R184), and the correlation rule (R195, R196). -/

namespace Sys2Proof.Machine

/-- The Nonce Response of 43_nonce_fifo.md R180; R181 calls the last four fields its origin. -/
structure NonceResponse where
  nonce : Word
  chainId : Byte
  chipId : Byte
  coreId : Byte
  workId : Byte
  deriving DecidableEq, Repr

/-- DEFRAME(w0, w1) of 43_nonce_fifo.md R180 with the layout of 30_encoding.md R84. -/
def deframe (w0 w1 : Word) : NonceResponse where
  nonce := w0
  chainId := w1.extractLsb' 24 8
  chipId := w1.extractLsb' 16 8
  coreId := w1.extractLsb' 8 8
  workId := w1.extractLsb' 0 8

/-- What one MMIO read gives a driver operation: the word, nothing yet while the read holds (20_memory.md R61), or no
value at all, in the state that records why (60_exceptions.md R240, R242). -/
inductive ReadResult where
  | value (v : Word) (s : State)
  | held
  | noValue (s : State)
  deriving DecidableEq, Repr

/-- `MmioRead(off)` by a driver operation, the word going through scratch register `d` as a statement's would
(assumption log 28). The one read of the block that faults is NONCE_DATA on an empty FIFO (43_nonce_fifo.md R176). -/
def readWord (off : Nat) (d : Fin 8) (s : State) : ReadResult :=
  match checkAccess s.cfg.layout 32 off, mmioRead 32 d off s with
  | .ok r, .next t =>
    if s.readHolds off then .held
    else if r = .nonceData ∧ s.nfQ = [] then .noValue t
    else .value t.x[d] t
  | _, .next t => .noValue t
  | _, _ => .held

/-- Where COLLECT of 43_nonce_fifo.md R183 stands: before its count read, before the first or the second read of a
pair with `left` pairs to go, at its end, or at a read that gave no value. `out` are the responses so far. -/
inductive Collection where
  | counting
  | atNonce (left : Nat) (out : List NonceResponse)
  | atMetadata (left : Nat) (w0 : Word) (out : List NonceResponse)
  | done (out : List NonceResponse)
  | stopped (out : List NonceResponse)
  deriving DecidableEq, Repr

/-- The next pair, or the end. -/
def pairsLeft (left : Nat) (out : List NonceResponse) : Collection :=
  if left = 0 then .done out else .atNonce left out

/-- One step of COLLECT, 43_nonce_fifo.md R183: its next read, through x5, x0 and x1 as in the DRAIN expansion
(47_host_script.md R238). A read that holds leaves everything; after a read without a value COLLECT goes no further,
with the fault recorded. -/
def collectStep (c : Collection) (s : State) : Collection × State :=
  match c with
  | .counting =>
    match readWord (regOffset s.cfg.layout .nonceCount) 5 s with
    | .value v t => (pairsLeft (countField v) [], t)
    | .held => (c, s)
    | .noValue t => (.stopped [], t)
  | .atNonce left out =>
    match readWord (regOffset s.cfg.layout .nonceData) 0 s with
    | .value w0 t => (.atMetadata left w0 out, t)
    | .held => (c, s)
    | .noValue t => (.stopped out, t)
  | .atMetadata left w0 out =>
    match readWord (regOffset s.cfg.layout .nonceData) 1 s with
    | .value w1 t => (pairsLeft (left - 1) (out ++ [deframe w0 w1]), t)
    | .held => (c, s)
    | .noValue t => (.stopped out, t)
  | .done _ => (c, s)
  | .stopped _ => (c, s)

/-- Several steps of COLLECT with no other agent's step in between. -/
def collectSteps : Nat → Collection → State → Collection × State
  | 0, c, s => (c, s)
  | n + 1, c, s => collectSteps n (collectStep c s).1 (collectStep c s).2

/-- The reads a collection still makes once its count is known. -/
def Collection.readsLeft : Collection → Nat
  | .counting => 0
  | .atNonce left _ => 2 * left
  | .atMetadata left _ _ => 2 * left - 1
  | .done _ => 0
  | .stopped _ => 0

/-- COLLECT of 43_nonce_fifo.md R183 with no other agent's step in between (assumption log 28): the count read, then
that many pairs. Where a read holds, COLLECT stands there. -/
def collect (s : State) : Collection × State :=
  collectSteps (collectStep .counting s).1.readsLeft (collectStep .counting s).1 (collectStep .counting s).2

/-- COLLECT among the steps of TX, RX and WB, in any interleaving: what a collection can have come to from where it
stood. -/
inductive CollectRun : Collection → State → Collection → State → Prop
  | start (c : Collection) (s : State) : CollectRun c s c s
  | own {c c' : Collection} {s s' : State} (h : CollectRun c s c' s') :
      CollectRun c s (collectStep c' s').1 (collectStep c' s').2
  | other {c c' : Collection} {s s' t : State} (h : CollectRun c s c' s') (turn : Turn)
      (hturn : ∀ k, turn ≠ .host k) (ht : runTurn turn s' = .next t) : CollectRun c s c' t

/-- DRAIN_STALE of 43_nonce_fifo.md R184: COLLECT with the results thrown away. -/
def drainStale (s : State) : State := (collect s).2

/-- The responses of the words read at NONCE_DATA, two a response: what a run of the DRAIN script collected, read off
HIST (43_nonce_fifo.md R183, 47_host_script.md R238). -/
def responsesOf : List Word → List NonceResponse
  | w0 :: w1 :: rest => deframe w0 w1 :: responsesOf rest
  | _ => []

/-- The 116-byte pattern record of 43_nonce_fifo.md R195. -/
structure PatternRecord where
  header : Vector Byte 15
  workData : Vector Byte 12
  midstate : Vector Byte 32
  reserved : Vector Byte 29
  expected : Vector Byte 4
  trailer : Vector Byte 24
  deriving DecidableEq, Repr

/-- A record as its 116 bytes lie, split by the sizes of 43_nonce_fifo.md R195. -/
def recordOf (bs : Vector Byte 116) : PatternRecord where
  header := Vector.ofFn (fun i => bs[i.val])
  workData := Vector.ofFn (fun i => bs[15 + i.val])
  midstate := Vector.ofFn (fun i => bs[27 + i.val])
  reserved := Vector.ofFn (fun i => bs[59 + i.val])
  expected := Vector.ofFn (fun i => bs[88 + i.val])
  trailer := Vector.ofFn (fun i => bs[92 + i.val])

/-- `expected_nonce`, little-endian (43_nonce_fifo.md R195, decision D30). -/
def expectedNonce (r : PatternRecord) : Word :=
  wordOf r.expected[3] r.expected[2] r.expected[1] r.expected[0]

/-- The outcome of a correlation: the index of the first matching record and whether its work id differs, a
warning that leaves the match standing (43_nonce_fifo.md R195); no match raises nothing (R196). -/
inductive Correlation where
  | noMatch
  | matched (index : Nat) (workIdWarning : Bool)
  deriving DecidableEq, Repr

/-- Correlate a response with pattern entries, each with the work id it was submitted under, from `index` on;
the first in record order wins (43_nonce_fifo.md R195). -/
def correlateFrom (index : Nat) : List (PatternRecord × Nat) → NonceResponse → Correlation
  | [], _ => .noMatch
  | (e, workId) :: rest, r =>
    if expectedNonce e = r.nonce then .matched index (r.workId.toNat != workId)
    else correlateFrom (index + 1) rest r

/-- The correlation rule of 43_nonce_fifo.md R195. -/
def correlate (entries : List (PatternRecord × Nat)) (r : NonceResponse) : Correlation :=
  correlateFrom 0 entries r

end Sys2Proof.Machine
end

