-- ==== Sys2Proof/Machine/Framer.lean ====
section
/-! DEFINITION. The command framer of 41_command_frames.md: FRAME, its checks (R128), and FRAME_WORDS (R130). -/

namespace Sys2Proof.Machine

/-- A request to the framer: one of the six kinds of 41_command_frames.md R121 to R127 with its operands as
plain numbers, or a kind outside them. -/
inductive FrameRequest where
  | chainInactive
  | setAddress (addr : Nat)
  | writeReg (chip reg value : Nat)
  | writeRegBc (reg value : Nat)
  | readReg (chip reg : Nat)
  | readRegBc (reg : Nat)
  | unknown (kind : Nat)
  deriving DecidableEq, Repr

/-- Why the framer gives no frame: a refusal, or a host error (41_command_frames.md R128). -/
inductive FramerError where
  | refuse (r : RefusalReason)
  | fail (e : HostError)
  deriving DecidableEq, Repr

/-- The frame with the CRC5 of its body in its CRC field (41_command_frames.md R120). -/
def withCrc (frame : BitVec 5 → Instr) : Instr := frame (crc5All (frameBody (frame 0)))

/-- The frame of a request whose operands fit, before the CRC; `none` for an unknown kind. The broadcast
kinds carry chip address 0x00 (41_command_frames.md R123). -/
def requestFrame : FrameRequest → Option (BitVec 5 → Instr)
  | .chainInactive => some .chainInactive
  | .setAddress addr => some (.setAddress (BitVec.ofNat 8 addr))
  | .writeReg chip reg value => some (.writeReg (BitVec.ofNat 8 chip) (BitVec.ofNat 8 reg) (BitVec.ofNat 32 value))
  | .writeRegBc reg value => some (.writeRegBc 0 (BitVec.ofNat 8 reg) (BitVec.ofNat 32 value))
  | .readReg chip reg => some (.readReg (BitVec.ofNat 8 chip) (BitVec.ofNat 8 reg))
  | .readRegBc reg => some (.readRegBc 0 (BitVec.ofNat 8 reg))
  | .unknown _ => none

/-- Whether every operand fits its width (41_command_frames.md R128 check 2). -/
def operandsFit : FrameRequest → Bool
  | .chainInactive => true
  | .setAddress addr => addr < 0x100
  | .writeReg chip reg value => chip < 0x100 && reg < 0x100 && value < 0x100000000
  | .writeRegBc reg value => reg < 0x100 && value < 0x100000000
  | .readReg chip reg => chip < 0x100 && reg < 0x100
  | .readRegBc reg => reg < 0x100
  | .unknown _ => true

/-- FRAME(kind, ops) of 41_command_frames.md R120 with the checks of R128 in their order. -/
def framer (q : FrameRequest) : Except FramerError Instr :=
  match requestFrame q with
  | none => .error (.refuse .kind)
  | some frame =>
    if !operandsFit q then .error (.fail .validationError)
    else if maxFrameBytes < (frameBytes (withCrc frame)).length then .error (.fail .validationError)
    else .ok (withCrc frame)

/-- FRAME_WORDS(kind, ops) of 41_command_frames.md R130. -/
def frameWords (q : FrameRequest) : Except FramerError (Vector Word 3) :=
  (framer q).map (fun i => pack (frameBytes i))

/-- The check of 42_command_bus.md R153 on the byte list of a transmission. -/
def sendWords (bs : List Byte) : Except FramerError (Vector Word 3) :=
  if maxFrameBytes < bs.length then .error (.fail .validationError) else .ok (pack bs)

end Sys2Proof.Machine
end

