-- ==== Sys2Proof/Machine/Payloads.lean ====
section
/-! DEFINITION. The payloads of 45_payloads.md: the UART divisor, the PLL word and its VCO check, and the
enumeration addresses; and the driver's register map of 20_memory.md R55. -/

namespace Sys2Proof.Machine

/-- The bits of the CLK_CTRL payload that hold the divisor, 45_payloads.md R201. -/
def divisorMask : Word := 0xF1F

/-- CLK_CTRL_BASE, kept off the divisor's bits (45_payloads.md R201). -/
def clkCtrlBase : Word := Config.clkCtrlBaseRaw &&& ~~~divisorMask

/-- HIGH_SPEED_BIT, kept off the divisor's bits (45_payloads.md R201). -/
def highSpeedBit : Word := Config.highSpeedBitRaw &&& ~~~divisorMask

/-- CLK_CTRL(d, hs) of 45_payloads.md R201. -/
def clkCtrl (d : Nat) (hs : Bool) : Word :=
  clkCtrlBase ||| (BitVec.ofNat 32 (d / 32 % 16) <<< 8) ||| BitVec.ofNat 32 (d % 32) |||
    (if hs then highSpeedBit else 0)

/-- The reference clock and the speed mode of a baud rate, 45_payloads.md R202 and R203. -/
def baudReference (baud : Nat) : Nat × Bool :=
  if baud ≤ baudThreshold then (25000000, false) else (400000000, true)

/-- The divisor of a baud rate, `floor(ref / (baud * 8)) - 1`; a divisor outside 0 to 511 or a baud of 0 is a
ValidationError (45_payloads.md R202 to R204). -/
def baudDivisor (baud : Nat) : Except HostError Nat :=
  let quotient := (baudReference baud).1 / (baud * 8)
  if baud = 0 ∨ quotient = 0 ∨ 512 < quotient then .error .validationError else .ok (quotient - 1)

/-- HIGH_BAUD, a rate above BAUD_THRESHOLD whose divisor is in range (45_payloads.md R203, R204; assumption log
32). -/
def highBaud : Nat := baudThreshold + 1 + Config.highBaudExtra.val

/-- The CLK_CTRL payload for a baud rate, 45_payloads.md R201 to R204. -/
def uartPayload (baud : Nat) : Except HostError Word :=
  (baudDivisor baud).map (fun d => clkCtrl d (baudReference baud).2)

/-- PLL(refdiv, fbdiv, postdiv1, postdiv2, hi) of 45_payloads.md R206; an operand that does not fit its field is a
ValidationError. -/
def pllPack (refdiv fbdiv postdiv1 postdiv2 : Nat) (hi : Bool) : Except HostError Word :=
  if refdiv < 8 ∧ fbdiv < 4096 ∧ postdiv1 < 64 ∧ postdiv2 < 8 then
    .ok (Config.pllFixedHigh ||| (BitVec.ofNat 32 fbdiv <<< 16) ||| (BitVec.ofNat 32 postdiv1 <<< 8) |||
      (BitVec.ofNat 32 refdiv <<< 4) ||| BitVec.ofNat 32 postdiv2 |||
      (if hi then (1 : Word) <<< Config.vcoRangeBit.val else 0))
  else .error .validationError

/-- REFDIV_EFF, 1 at field value 0 and open elsewhere (45_payloads.md R207, 90_conflicts.md C1). -/
def refdivEff (refdiv : Nat) : Nat := if refdiv = 0 then 1 else Config.refdivEffLessOne refdiv + 1

/-- The VCO check of 45_payloads.md R207 on the exact rational `25 * fbdiv / REFDIV_EFF`, multiplied out; the
result is whether the high range is used. -/
def vcoCheck (refdiv fbdiv : Nat) : Except HostError Bool :=
  if 1600 * refdivEff refdiv ≤ 25 * fbdiv ∧ 25 * fbdiv ≤ 3200 * refdivEff refdiv then
    .ok (decide (2400 * refdivEff refdiv ≤ 25 * fbdiv))
  else .error .validationError

/-- The PLL payload of an operating point, 45_payloads.md R206 and R207. -/
def pllPayload (refdiv fbdiv postdiv1 postdiv2 : Nat) : Except HostError Word :=
  match vcoCheck refdiv fbdiv with
  | .ok hi => pllPack refdiv fbdiv postdiv1 postdiv2 hi
  | .error e => .error e

/-- The payload for a frequency in MHz, with the warning of the fallback: only 525 MHz is validated
(45_payloads.md R208, R209). -/
def frequencyPayload (mhz : Nat) : Except HostError Word × Option HostError :=
  (pllPayload 0 84 1 0, if mhz = 525 then none else some .unsupportedFrequency)

/-- The address interval, 45_payloads.md R211. -/
def enumInterval (numChips : Nat) : Nat := max 1 (256 / numChips)

/-- The enumeration addresses of 45_payloads.md R211. -/
def enumAddresses (numChips : Nat) : Except HostError (List Nat) :=
  if 1 ≤ numChips ∧ numChips ≤ 256 then
    .ok ((List.range numChips).map (fun i => i * enumInterval numChips))
  else .error .validationError

/-- The physical offset of an entry of the driver's register map, 20_memory.md R55; the entries the source
does not give are open words of the window (91_not_in_source.md N9, assumption log 26). -/
def regMapEntry (index : Nat) : Nat :=
  if index = 13 then 0x034
  else if index = 16 then 0x040
  else if index = 17 then 0x040
  else if index = 20 then 0x08C
  else if index = 35 then 0x118
  else 4 * (Config.regMapRest index).val

/-- A lookup in the driver's register map: an index outside `[0, 110)` or use before the Device Context is
open fails (20_memory.md R55, 70_reset_and_hazards.md R275). -/
def regMapLookup (opened : Bool) (index : Nat) : Except HostError Nat :=
  if opened ∧ index < regmapEntries then .ok (regMapEntry index) else .error .validationError

end Sys2Proof.Machine
end

