-- ==== Sys2Proof/Machine/Expand.lean ====
section
/-! DEFINITION. The pseudo-instructions of 47_host_script.md R236 to R239 and their expansions into statements. A
part of a script is a function of the number of its first statement, since its labels are numbers. -/

namespace Sys2Proof.Machine

/-- A part of a script, given where it starts. -/
abbrev Part := Nat → List Stmt

/-- Parts one after another. -/
def inSequence : List Part → Part
  | [], _ => []
  | p :: ps, start => p start ++ inSequence ps (start + (p start).length)

/-- A part that is the same wherever it stands. -/
def plain (stmts : List Stmt) : Part := fun _ => stmts

/-- POLL_READY, 47_host_script.md R237; `giveUp` is the statement after the last poll. -/
def pollReadyOr (giveUp : Nat → Stmt) (p : Params) : Part := fun start =>
  [.li 7 (BitVec.ofNat 32 pollCmdMax),
   .rd 6 (ctlOffset p.layout),
   .andi 6 6 (readyMask p),
   .beqz 6 (start + 8),
   .delay 1,
   .addi 7 7 0xFFFFFFFF,
   .bnez 7 (start + 1),
   giveUp (start + 8)]

/-- POLL_READY of 47_host_script.md R237: after the last poll the script fails with CommandTimeout. -/
def pollReady (p : Params) : Part := pollReadyOr (fun _ => .fail .commandTimeout) p

/-- The four writes of a transmission, each with its fence (42_command_bus.md R153). -/
def sendWrites (p : Params) (w : Vector Word 3) (c : Fin 3) : List Stmt :=
  [.wri (bufOffset p.layout 0) w[0], .fence, .wri (bufOffset p.layout 1) w[1], .fence,
   .wri (bufOffset p.layout 2) w[2], .fence, .wri (ctlOffset p.layout) (trigWord p c), .fence]

/-- SEND(bytes, chain) of 42_command_bus.md R153 with a given poll: more than 12 bytes are a ValidationError and touch
no hardware; else the packed words are written, triggered and polled for. -/
def sendPolling (poll : Part) (p : Params) (bs : List Byte) (c : Fin 3) : Except FramerError Part :=
  (sendWords bs).map (fun w => inSequence [plain (sendWrites p w c), poll])

/-- SEND(bytes, chain) of 42_command_bus.md R153: after the last poll it fails with CommandTimeout. -/
def sendBytes (p : Params) (bs : List Byte) (c : Fin 3) : Except FramerError Part := sendPolling (pollReady p) p bs c

/-- `SEND kind ops, c` of 47_host_script.md R236: SEND of the frame's bytes. The framer runs when the script is
written. -/
def send (p : Params) (q : FrameRequest) (c : Fin 3) : Except FramerError Part :=
  (framer q).bind (fun i => sendBytes p (frameBytes i) c)

/-- DRAIN, 47_host_script.md R238. -/
def drain (p : Params) : Part := fun start =>
  [.rd 5 (regOffset p.layout .nonceCount),
   .andi 5 5 0x7FFF,
   .beqz 5 (start + 7),
   .rd 0 (regOffset p.layout .nonceData),
   .rd 1 (regOffset p.layout .nonceData),
   .addi 5 5 0xFFFFFFFF,
   .j (start + 2)]

/-- The nonce drainer's script: DRAIN again and again at its cadence (60_exceptions.md R257, 70_reset_and_hazards.md
R283; the cadence is not given, assumption log 33). -/
def drainerScript (p : Params) : List Stmt :=
  inSequence [drain p, plain [.delay Config.drainCadence, .j 0]] 0

/-- A list of parts, or the first error among them. -/
def allParts : List (Except FramerError Part) → Except FramerError (List Part)
  | [] => .ok []
  | .error e :: _ => .error e
  | .ok p :: rest => (allParts rest).map (fun ps => p :: ps)

/-- One address assignment of enumeration, 70_reset_and_hazards.md R282. -/
def assignAddress (p : Params) (c : Fin 3) (addr : Nat) : Except FramerError Part :=
  (send p (.setAddress addr) c).map (fun part => inSequence [part, plain [.delay settleMicros]])

/-- `ENUMERATE n, c` of 47_host_script.md R239. -/
def enumerate (p : Params) (n : Nat) (c : Fin 3) : Except FramerError Part :=
  match enumAddresses n with
  | .error e => .error (.fail e)
  | .ok addrs =>
    (allParts (send p .chainInactive c :: addrs.map (assignAddress p c))).map inSequence

end Sys2Proof.Machine
end

