-- ==== Sys2Proof/Machine/Driver.lean ====
section
/-! DEFINITION. The driver around the block: the boot and bring-up stages of 70_reset_and_hazards.md R274 to R284 as
host scripts, and the Device Context and Chain Controller (R275, R279) that start them and take their results. The
values the source does not give are free (assumption logs 17, 32); an access to a register outside the block is
refused when the script runs (R54). -/

namespace Sys2Proof.Machine

/-- A register of the window outside the block, for a word number the source does not give: no block register stands
there (70_reset_and_hazards.md R276, assumption log 17). -/
def outsideOffset (word : Fin 1152) : Nat :=
  if (regAt .trigFirst (4 * word.val)).isSome then 0x000 else 4 * word.val

/-- What a script of the boot does with the driver's accesses to window registers outside the block: it makes them, and
a run refuses them (20_memory.md R54), or it leaves them out, as a script of this spec that is to make a claim does
(70_reset_and_hazards.md R276). The frames are the same in both, and the delays but for the 100 ms after a correction,
which is left out with the correction (DESIGN CHOICE, assumption log 30). -/
inductive OutsideAccess where
  | made
  | leftOut
  deriving DecidableEq, Repr

/-- Statements that access window registers outside the block. -/
def OutsideAccess.part (o : OutsideAccess) (x : Part) : Part :=
  match o with
  | .made => x
  | .leftOut => plain []

/-- A write of a window register outside the block, with its fence. -/
def OutsideAccess.write (o : OutsideAccess) (off : Nat) (v : Word) : List Stmt :=
  match o with
  | .made => [.wri off v, .fence]
  | .leftOut => []

/-- A broadcast register write whose address and value are bytes and words already. -/
def broadcastWrite (p : Params) (c : Fin 3) (reg : Byte) (value : Word) : Except FramerError Part :=
  send p (.writeRegBc reg.toNat value.toNat) c

/-- A CLK_CTRL or PLL write of stage 2, whose addressing the source does not state (70_reset_and_hazards.md R281). -/
def configureWrite (p : Params) (c : Fin 3) (stepNo : Nat) (reg : Byte) (value : Word) : Except FramerError Part :=
  match Config.configureTarget stepNo with
  | none => broadcastWrite p c reg value
  | some chip => send p (.writeReg chip.toNat reg.toNat value.toNat) c

/-- A write of the bring-up whose place the source does not give (91_not_in_source.md N15). -/
def openWrite (o : OutsideAccess) (p : Params) (c : Fin 3) : BringUpWrite → Except FramerError Part
  | .frame none reg value => broadcastWrite p c reg value
  | .frame (some chip) reg value => send p (.writeReg chip.toNat reg.toNat value.toNat) c
  | .window word value => .ok (plain (o.write (outsideOffset word) value))

/-- A part and the delay after it, in microseconds. -/
def thenDelay (t : Nat) (part : Except FramerError Part) : Except FramerError Part :=
  part.map (fun x => inSequence [x, plain [.delay t]])

/-- Parts in sequence, or the first error among them. -/
def stage (parts : List (Except FramerError Part)) : Except FramerError Part := (allParts parts).map inSequence

/-- A call of the CRC5 generator in a run: more bits than the bytes hold are a refusal (40_crc5.md R104,
60_exceptions.md R242). -/
def callCrc5 (d : List Byte) (nbits : Nat) (s : State) : Option (BitVec 5) × State :=
  match crc5 d nbits with
  | .ok c => (some c, s)
  | .error r => (none, s.refuse r)

/-- A call of the framer in a run: an unknown kind is a refusal, a host error touches no hardware
(41_command_frames.md R128, 60_exceptions.md R242 and R245). -/
def callFramer (q : FrameRequest) (s : State) : Except FramerError Instr × State :=
  match framer q with
  | .ok i => (.ok i, s)
  | .error (.refuse r) => (.error (.refuse r), s.refuse r)
  | .error (.fail e) => (.error (.fail e), s)

/-- A write through the driver's register map: a failed lookup touches no hardware (20_memory.md R55). The spec gives
the driver's own accesses no place in a script; the model runs one as a statement of the task HOST runs, so the pc
moves past it too (DESIGN CHOICE, assumption log 26). -/
def writeIndirect (index : Nat) (v : Word) (s : State) : Except HostError State :=
  (regMapLookup s.driver.opened index).map (fun off => mmioWrite 32 off v s)

/-- A read through the driver's register map (20_memory.md R55). The model runs it as a statement, so the word goes to
x[d] and the pc moves past it (DESIGN CHOICE, assumption log 26). -/
def readIndirect (index : Nat) (d : Fin 8) (s : State) : Except HostError (Host.Outcome State Fault Refusal) :=
  (regMapLookup s.driver.opened index).map (fun off => mmioRead 32 d off s)

/-- What follows a register that fails its verification: the source does not say (70_reset_and_hazards.md R276,
91_not_in_source.md N18), so the script goes on or fails with an error, as a free constant has it. -/
def verificationFailed (next : Nat) : Stmt :=
  match HostError.ofCode Config.verificationFailure.val with
  | some e => .fail e
  | none => .j next

/-- The check of one boot-state register against its golden value (70_reset_and_hazards.md R276). x2 is 0 before the
read, so that a refused read leaves the comparison a value (assumption log 30). -/
def verifyRegister (n : Fin 2) : Part := fun start =>
  [.li 2 0,
   .rd 2 (outsideOffset (Config.bootRegister n)),
   .addi 2 2 (-Config.goldenValue n),
   .beqz 2 (start + 5),
   verificationFailed (start + 5)]

/-- The boot-state verification of device open, 70_reset_and_hazards.md R276. -/
def bootVerification : Part := inSequence [verifyRegister 0, verifyRegister 1]

/-- The correction of device open, 70_reset_and_hazards.md R276: a register that differs from its constant is
written, with 100 ms after it. -/
def bootCorrection : Part := fun start =>
  [.li 4 0,
   .rd 4 (outsideOffset Config.correctedRegister),
   .addi 4 4 (-Config.correctedConstant),
   .beqz 4 (start + 7),
   .wri (outsideOffset Config.correctedRegister) Config.correctedConstant,
   .fence,
   .delay 100000]

/-- The init toggle of register 0x080, 70_reset_and_hazards.md R277: set bit 31, 10 ms, clear it, 10 ms. -/
def initToggle (o : OutsideAccess) : Part :=
  plain (o.write 0x080 (Config.initToggleRest ||| 0x80000000) ++ [.delay 10000] ++
    o.write 0x080 (Config.initToggleRest &&& 0x7FFFFFFF) ++ [.delay 10000])

/-- Device open after the Device Context exists: verify, toggle, correct (70_reset_and_hazards.md R274 step 2). -/
def deviceOpen (o : OutsideAccess) : Part := inSequence [o.part bootVerification, initToggle o, o.part bootCorrection]

/-- The word of register 0x034 that drives one chain's reset line low or high (70_reset_and_hazards.md R278). -/
def resetLineWord (c : Fin 3) (low : Bool) : Word :=
  let bit : Word := (1 : Word) <<< (Config.resetBit c).val
  if low == Config.resetOneIsLow then Config.hashboardResetRest ||| bit else Config.hashboardResetRest &&& ~~~bit

/-- HardwareReset of one chain, 70_reset_and_hazards.md R278: 700 ms, low 10 ms, high 72 ms, low 10 ms, high
10 ms. -/
def hardwareReset (o : OutsideAccess) (c : Fin 3) : Part :=
  plain ([.delay 700000] ++ o.write 0x034 (resetLineWord c true) ++ [.delay 10000] ++
    o.write 0x034 (resetLineWord c false) ++ [.delay 72000] ++
    o.write 0x034 (resetLineWord c true) ++ [.delay 10000] ++
    o.write 0x034 (resetLineWord c false) ++ [.delay 10000])

/-- The chip registers of the first six steps of SoftReset, in their order (70_reset_and_hazards.md R280): disable soft
reset, clear power-control bit, enable and disable core reset, enable soft reset, set power-control bit. -/
def softResetRegs : Vector Byte 6 :=
  #v[Config.softResetReg, Config.powerControlReg, Config.coreResetReg, Config.coreResetReg, Config.softResetReg,
    Config.powerControlReg]

/-- The first six steps of SoftReset: one broadcast write and 10 ms each (70_reset_and_hazards.md R280). -/
def softResetStep (p : Params) (c : Fin 3) (n : Fin 6) : Except FramerError Part :=
  thenDelay 10000 (broadcastWrite p c softResetRegs[n] (Config.softResetValue n))

/-- SoftReset, 70_reset_and_hazards.md R280: the six steps, then the ticket mask all-ones and 50 ms. -/
def softReset (p : Params) (c : Fin 3) : Except FramerError Part :=
  stage ((List.finRange 6).map (softResetStep p c) ++
    [thenDelay 50000 (broadcastWrite p c Config.ticketMaskReg 0xFFFFFFFF)])

/-- The UART divisor write for a baud rate and its 50 ms (45_payloads.md R202 to R205). -/
def uartWrite (p : Params) (c : Fin 3) (stepNo baud : Nat) : Except FramerError Part :=
  match uartPayload baud with
  | .error e => .error (.fail e)
  | .ok v => thenDelay 50000 (configureWrite p c stepNo Config.clkCtrlReg v)

/-- Zero one PLL parameter register, 45_payloads.md R210. The four writes are one step of stage 2 and share its one open
target (DESIGN CHOICE, assumption log 17). -/
def zeroPll (p : Params) (c : Fin 3) (n : Fin 4) : Except FramerError Part :=
  configureWrite p c 9 (Config.pllReg n) 0

/-- The frequency write and its 500 ms, 45_payloads.md R208 to R210: every request sends the validated point's
payload; `configureWarning` is the warning of another frequency. -/
def frequencyWrite (p : Params) (c : Fin 3) (mhz : Nat) : Except FramerError Part :=
  match (frequencyPayload mhz).1 with
  | .error e => .error (.fail e)
  | .ok v => thenDelay 500000 (configureWrite p c 10 (Config.pllReg Config.pllFrequencyReg) v)

/-- The warning of stage 2: UnsupportedFrequency for a frequency that is not validated, with which the stage goes on
(45_payloads.md R209, 60_exceptions.md R245 code 5). -/
def configureWarning (mhz : Nat) : Option HostError := (frequencyPayload mhz).2

/-- The switch to the high-speed UART, 45_payloads.md R203 and 70_reset_and_hazards.md R281 step 11: a dedicated PLL
channel, a baud-config register, the CLK_CTRL write and the FPGA-side baud setting, then 50 ms. The source gives the
places and values of none but CLK_CTRL, nor the setting's place in the order (assumption log 32). -/
def highSpeedSwitch (o : OutsideAccess) (p : Params) (c : Fin 3) : Except FramerError Part :=
  match uartPayload highBaud with
  | .error e => .error (.fail e)
  | .ok v =>
    thenDelay 50000 (stage [openWrite o p c Config.highSpeedPll,
      openWrite o p c Config.baudConfig,
      configureWrite p c 11 Config.clkCtrlReg v,
      openWrite o p c (.window Config.fpgaBaud.1 Config.fpgaBaud.2)])

/-- The scratch register that keeps a failure of the soft step for the driver's log (assumption log 21). -/
def softRegister : Fin 8 := 3

/-- The soft step of 60_exceptions.md R246: a timeout of its poll is kept for the log and bring-up goes on (assumption
log 21). -/
def ioDriverPart (p : Params) (c : Fin 3) : Except FramerError Part :=
  (framer (.writeRegBc Config.ioDriverWrite.1.toNat Config.ioDriverWrite.2.toNat)).bind (fun i =>
    sendPolling (pollReadyOr (fun _ => .li softRegister (BitVec.ofNat 32 HostError.commandTimeout.code)) p) p
      (frameBytes i) c)

/-- The chip registers of the core-reset sub-sequence, in their order (70_reset_and_hazards.md R281 step 13): soft
reset, clock control, core config and timing, which earlier steps wrote, and core enable. -/
def coreResetRegs : Vector Byte 5 :=
  #v[Config.softResetReg, Config.clkCtrlReg, Config.coreConfigReg, Config.coreTimingWrite.1, Config.coreEnableReg]

/-- One write of the core-reset sub-sequence and its 100 ms (70_reset_and_hazards.md R281 step 13). -/
def coreResetStep (p : Params) (c : Fin 3) (n : Fin 5) : Except FramerError Part :=
  thenDelay 100000 (broadcastWrite p c coreResetRegs[n] (Config.coreResetValue n))

/-- Configure, 70_reset_and_hazards.md R281 steps 1 to 16; steps 14 and 15 write nothing (R192, R281). The writes of
45_payloads.md R212 are broadcasts. Before them no soft failure is kept. -/
def configure (o : OutsideAccess) (p : Params) (c : Fin 3) (numChips mhz : Nat) : Except FramerError Part :=
  stage ([.ok (plain [.li softRegister 0]),
          broadcastWrite p c Config.diodeMuxWrite.1 Config.diodeMuxWrite.2,
          send p .chainInactive c,
          uartWrite p c 3 lowBaud,
          enumerate p numChips c,
          broadcastWrite p c Config.coreConfigReg 0x8000851F,
          broadcastWrite p c Config.coreConfigReg 0x80000600,
          broadcastWrite p c Config.coreConfigReg Config.pulseModeValue,
          broadcastWrite p c Config.coreTimingWrite.1 Config.coreTimingWrite.2,
          ioDriverPart p c] ++
         (List.finRange 4).map (zeroPll p c) ++
         [frequencyWrite p c mhz,
          highSpeedSwitch o p c,
          .ok (drain p)] ++
         (List.finRange 5).map (coreResetStep p c) ++
         [.ok (plain [.delay 2000000]),
          broadcastWrite p c Config.coreConfigReg Config.nonceOverflowDisabledValue])

/-- The work-control step before the first submission, 70_reset_and_hazards.md R284: the word read back with
bit 14 clear; the register is outside the block. -/
def clearAutoPattern (o : OutsideAccess) : Part :=
  o.part (plain [.li 2 0, .rd 2 0x118, .andi 2 2 0xFFFFBFFF, .wr 0x118 2, .fence])

/-! ### Boot order, Device Context and Chain Controller -/

/-- The phases of a boot in their order: device open, the chains strictly one after another, the work-control step
(70_reset_and_hazards.md R274). -/
def bootPhases (numChips mhz : Nat) (chains : List (Fin 3)) : List Phase :=
  [.deviceOpen chains] ++ chains.flatMap (fun c => [.hardwareReset c, .softReset c, .configure c numChips mhz]) ++
    [.workControl]

/-- What a phase runs. -/
def phasePart (o : OutsideAccess) (p : Params) : Phase → Except FramerError Part
  | .deviceOpen _ => .ok (deviceOpen o)
  | .hardwareReset c => .ok (hardwareReset o c)
  | .softReset c => softReset p c
  | .configure c numChips mhz => configure o p c numChips mhz
  | .workControl => .ok (clearAutoPattern o)

/-- The warning a phase gives, 45_payloads.md R209. -/
def phaseWarning : Phase → Option HostError
  | .deviceOpen _ => none
  | .hardwareReset _ => none
  | .softReset _ => none
  | .configure _ _ mhz => configureWarning mhz
  | .workControl => none

/-- Steps 2 to 4 of a boot as one script, 70_reset_and_hazards.md R274, without the driver's records; a run phase by
phase keeps them (`startPhase`, `endPhase`). -/
def boot (o : OutsideAccess) (p : Params) (numChips mhz : Nat) (chains : List (Fin 3)) : Except FramerError (List Stmt) :=
  (stage ((bootPhases numChips mhz chains).map (phasePart o p) ++ [.ok (plain [.halt])])).map (fun part => part 0)

/-- The end of a phase: completed, with a warning or without, or failed. -/
inductive PhaseEnd where
  | completed (warning : Option HostError)
  | failed (e : HostError)
  deriving DecidableEq, Repr

/-- How a task's status reads as the end of its phase: HALT and FAIL end it, and a task that runs has not ended it
(47_host_script.md R234, R235). The warning, which is in the log either way, is the result of a phase that completes; a
phase that fails has its failure alone as its result (DESIGN CHOICE, assumption log 35). -/
def phaseEnd (warning : Option HostError) : HostStatus → Option PhaseEnd
  | .idle => none
  | .running => none
  | .halted => some (.completed warning)
  | .failed e => some (.failed e)

/-- The stage after one that completed. -/
def ChainStage.next : ChainStage → ChainStage
  | .uninitialized => .hardwareReset
  | .hardwareReset => .softReset
  | .softReset => .configure
  | .configure => .ready
  | .ready => .ready

/-- A chain whose stage `st` completed; one that reaches Ready has its chip count, its interval and its detected bit
(70_reset_and_hazards.md R279). -/
def ChainRecord.completed (c : Fin 3) (st : ChainStage) (numChips : Nat) (r : ChainRecord) : ChainRecord :=
  match st.next with
  | .ready => ⟨.ready, numChips, enumInterval numChips, Config.hashOnPlug c⟩
  | next => { r with stage := next }

/-- How the end of a mandatory stage moves the controller: a failure ends the chain's bring-up with ChainInitFailure,
and a warning does not stop it (70_reset_and_hazards.md R279, 60_exceptions.md R245 and R246). The whole bring-up of a
failed chain is tried again, so its record is a fresh one (DESIGN CHOICE: the spec does not say in what state a failed
chain is left; assumption log 34). -/
def advanceChain (e : PhaseEnd) (c : Fin 3) (st : ChainStage) (numChips : Nat) (r : ChainRecord) :
    Option HostError × ChainRecord :=
  match e with
  | .failed _ => (some .chainInitFailure, .fresh)
  | .completed warning =>
    if warning.any HostError.stops then (some .chainInitFailure, .fresh) else (warning, r.completed c st numChips)

/-- Whether no stage of a chain is under way. -/
def ChainRecord.settled (r : ChainRecord) : Bool := r.stage == .uninitialized || r.stage == .ready

/-- Whether chain c may be the one in bring-up: device open has completed, the chain is to be brought up, and no other
chain is under way (70_reset_and_hazards.md R274). -/
def Driver.mayBring (c : Fin 3) (d : Driver) : Bool :=
  d.openDone && d.wanted.contains c && (List.finRange 3).all (fun k => k == c || d.chains[k].settled)

/-- Whether chain initialization has completed: device open has, every chain to bring up is Ready, there is one, and no
chain is under way (70_reset_and_hazards.md R274, R283). -/
def Driver.chainsDone (d : Driver) : Bool :=
  d.openDone && !d.wanted.isEmpty && d.wanted.all (fun k => d.chains[k].stage == .ready) &&
    (List.finRange 3).all (fun k => d.chains[k].settled)

/-- Whether a phase may start after the phases that have ended, by the order of 70_reset_and_hazards.md R274 and the
stages of R279. One phase runs at a time, to its end (R286). -/
def Driver.mayStart (ph : Phase) (d : Driver) : Bool :=
  d.phase.isNone &&
    match ph with
    | .deviceOpen chains => !chains.isEmpty
    | .hardwareReset c => d.mayBring c
    | .softReset c => d.mayBring c && d.chains[c].stage == .softReset
    | .configure c _ _ => d.mayBring c && d.chains[c].stage == .configure
    | .workControl => d.chainsDone

/-- The driver's record when a phase starts: device open creates the Device Context (70_reset_and_hazards.md R274 step
2), and HardwareReset starts its chain from the beginning (R279). -/
def Driver.started (ph : Phase) (d : Driver) : Driver :=
  match ph with
  | .deviceOpen chains => { Driver.fresh with opened := true, wanted := chains, phase := some ph, log := d.log }
  | .hardwareReset c =>
    { d with
      workDone := false
      phase := some ph
      chains := d.chains.set c { ChainRecord.fresh with stage := .hardwareReset } }
  | .softReset _ => { d with phase := some ph }
  | .configure _ _ _ => { d with phase := some ph }
  | .workControl => { d with phase := some ph }

/-- The end of a stage of a chain. -/
def Driver.stageEnded (c : Fin 3) (st : ChainStage) (numChips : Nat) (e : PhaseEnd) (d : Driver) :
    Option HostError × Driver :=
  ((advanceChain e c st numChips d.chains[c]).1,
    { d with phase := none, chains := d.chains.set c (advanceChain e c st numChips d.chains[c]).2 })

/-- The driver's record when a phase ends, and the error or warning it ends with. -/
def Driver.ended (ph : Phase) (e : PhaseEnd) (d : Driver) : Option HostError × Driver :=
  match ph, e with
  | .hardwareReset c, e => d.stageEnded c .hardwareReset 0 e
  | .softReset c, e => d.stageEnded c .softReset 0 e
  | .configure c numChips _, e => d.stageEnded c .configure numChips e
  | .deviceOpen _, .completed warning => (warning, { d with phase := none, openDone := true })
  | .deviceOpen _, .failed err => (some err, { d with phase := none })
  | .workControl, .completed warning => (warning, { d with phase := none, workDone := true })
  | .workControl, .failed err => (some err, { d with phase := none })

/-- The driver's log with more entries, 45_payloads.md R209 and 60_exceptions.md R246. -/
def Driver.logged (es : List HostError) (d : Driver) : Driver := { d with log := d.log ++ es }

/-- The soft failure a phase left for the log: the IO-driver step of Configure keeps one in a scratch register
(60_exceptions.md R246). -/
def softFailure (ph : Phase) (s : State) : Option HostError :=
  match ph with
  | .deviceOpen _ => none
  | .hardwareReset _ => none
  | .softReset _ => none
  | .configure _ _ _ => (s.readX softRegister).bind (fun v => HostError.ofCode v.toNat)
  | .workControl => none

/-- Whether a task is in the middle of a script. -/
def State.busy (k : HostTask) (s : State) : Bool :=
  decide ((s.task k).status = .running ∧ (s.task k).pc < (s.task k).script.length)

/-- Whether HOST runs nothing: no other bus activity may run during chain initialization, and nothing that runs is cut
short (70_reset_and_hazards.md R283, R286). -/
def State.hostFree (s : State) : Bool := !s.busy .main && !s.busy .drainer

/-- HOST starts a phase: its script, ended by HALT, comes to the main task (70_reset_and_hazards.md R274). A phase out of
its order, or while HOST runs something, is a ValidationError that changes nothing: the spec says so of a use before
device open (R275), for the rest it is the model's (DESIGN CHOICE, assumption log 30). A phase whose operands no script
can be written for fails before it touches hardware (60_exceptions.md R245), a stage of a chain with ChainInitFailure
(R246). A request for a frequency that is not validated is logged as the phase starts (45_payloads.md R209, assumption
log 35). -/
def startPhase (o : OutsideAccess) (ph : Phase) (s : State) : Option HostError × State :=
  if s.hostFree && s.driver.mayStart ph then
    let d := (s.driver.started ph).logged (phaseWarning ph).toList
    match phasePart o s.cfg ph with
    | .ok part => (none, loadTask .main (inSequence [part, plain [.halt]] 0) { s with driver := d })
    | .error (.fail e) => ((d.ended ph (.failed e)).1, { s with driver := (d.ended ph (.failed e)).2 })
    | .error (.refuse r) => (none, s.refuse r)
  else (some .validationError, s)

/-- HOST takes the result of the phase its main task has ended, once, and logs its soft failure; none while the task
still runs. -/
def endPhase (s : State) : Option (Option HostError × State) :=
  s.driver.phase.bind (fun ph => (phaseEnd (phaseWarning ph) s.main.status).map (fun e =>
    ((s.driver.ended ph e).1,
      { s with driver := (s.driver.ended ph e).2.logged (softFailure ph s).toList })))

/-- Steady state, 70_reset_and_hazards.md R274 step 5 and R283: once chain initialization and the work-control step have
completed and HOST runs nothing, the work feeder and the nonce drainer start and run concurrently. The feeder's script
is an argument, since the work path is outside the block (00_scope.md R4). -/
def startSteadyState (feeder : List Stmt) (s : State) : Option State :=
  if s.hostFree && s.driver.phase.isNone && s.driver.chainsDone && s.driver.workDone then
    some (loadTask .drainer (drainerScript s.cfg) (loadTask .main feeder s))
  else none

end Sys2Proof.Machine
end

