-- ==== Sys2Proof/Safety.lean ====
section
/-! DEFINITION. What a claim about the block is stated in: clean states and the end of a run (60_exceptions.md
R240, 47_host_script.md R234), runs and weak fairness (70_reset_and_hazards.md R292), the state invariant,
and the host duties the model does not check (R295). -/

namespace Sys2Proof.Machine

/-- No fault and no refusal: only such a run makes a claim (60_exceptions.md R240, R242). -/
def State.clean (s : State) : Bool := s.faults.isEmpty && !s.refused

/-- The end of a run, 47_host_script.md R234 and R235: HOST takes no step in either task, nothing is posted and no
frame waits. -/
def State.over (s : State) : Bool :=
  s.main.status != .running && s.drainer.status != .running && s.wq.isEmpty && !s.cmdReady

/-- A run: states linked by steps. -/
def IsRun (σ : Nat → State) : Prop := ∀ n, step (σ n) = .next (σ (n + 1))

/-- Whether a task of HOST has an enabled step: one that changes the state (70_reset_and_hazards.md R292, assumption
log 31). -/
def State.enabled (k : HostTask) (s : State) : Prop := hostStep (s.activate k) ≠ .next (s.activate k)

/-- Weak fairness of TX, WB and HOST, 70_reset_and_hazards.md R292; RX has none. HOST is one agent: while a task of it
has an enabled step, an enabled step of a task of it is taken. -/
structure WeaklyFair (σ : Nat → State) : Prop where
  tx : ∀ n, (∀ m, n ≤ m → (σ m).cmdReady = true) → ∃ m, n ≤ m ∧ turnOf (σ m) = .tx
  wb : ∀ n, (∀ m, n ≤ m → (σ m).wq ≠ []) → ∃ m pick, n ≤ m ∧ turnOf (σ m) = .wb pick
  host : ∀ n, (∀ m, n ≤ m → ∃ k, (σ m).enabled k) → ∃ m k, n ≤ m ∧ turnOf (σ m) = .host k ∧ (σ m).enabled k

/-- FAULT holds each kind once, in the order of the codes (assumption log 20). -/
def kindsInOrder (ks : List FaultKind) : Prop := ks.Pairwise (fun a b => a.code < b.code)

/-- A posted frame that TX can send: a length byte of 2 to 12 and every word it needs written
(42_command_bus.md R146). -/
def State.sendable (s : State) : Prop :=
  2 ≤ lengthByte s.cmdBuf ∧ lengthByte s.cmdBuf ≤ maxFrameBytes ∧
    wordsWritten s.cmdBufW (lengthByte s.cmdBuf) = true

/-- Every posted write names a register of the block (20_memory.md R54, R60). -/
def State.queueInBlock (s : State) : Prop := ∀ e ∈ s.wq, ∃ r, regAt s.cfg.layout e.off = some r

/-- FAULT and REFUSED say what HIST records (60_exceptions.md R240, R242). -/
def State.marksMatchHist (s : State) : Prop :=
  (∀ k, k ∈ s.faults ↔ ∃ off, Event.fault k off ∈ s.hist) ∧
    (s.refused = true ↔ ∃ r, Event.refuse r ∈ s.hist)

/-- The invariant of the machine. -/
structure State.Inv (s : State) : Prop where
  /-- a posted frame is sendable (42_command_bus.md R146, R150) -/
  posted : s.cmdReady = true → s.sendable
  /-- the FIFO never holds more than its depth (10_state.md R26) -/
  depth : s.nfQ.length ≤ s.cfg.fifoDepth
  /-- a half-read entry is still in the FIFO (43_nonce_fifo.md R175) -/
  phase : s.nfPhase = true → s.nfQ ≠ []
  /-- WQ holds writes to the block alone -/
  queue : s.queueInBlock
  /-- FAULT is a set -/
  kinds : kindsInOrder s.faults
  /-- FAULT and REFUSED agree with HIST -/
  marks : s.marksMatchHist

/-! What a step leaves alone, by parts of the state. -/

/-- The command bus: buffer, written flags, ready bit, chain. -/
def sameBus (s t : State) : Prop :=
  t.cmdBuf = s.cmdBuf ∧ t.cmdBufW = s.cmdBufW ∧ t.cmdReady = s.cmdReady ∧ t.cmdChain = s.cmdChain

/-- The nonce path: FIFO, phase, timeout. -/
def sameNonce (s t : State) : Prop :=
  t.nfQ = s.nfQ ∧ t.nfPhase = s.nfPhase ∧ t.nonceTimeout = s.nonceTimeout

/-- HOST: scratch registers, both tasks, and the one it runs. -/
def sameHost (s t : State) : Prop :=
  t.x = s.x ∧ t.xW = s.xW ∧ t.main = s.main ∧ t.drainer = s.drainer ∧ t.active = s.active

/-- HOST's tasks with the pc of the running one at `n`: its script and status, and the other task, as before. -/
def pcAt (n : Nat) (s t : State) : Prop :=
  t.active = s.active ∧ t.pc = n ∧ t.script = s.script ∧ t.host = s.host ∧ ∀ k, k ≠ s.active → t.task k = s.task k

/-- The tasks of HOST other than the one whose statement ran: as before, unless the statement stops HOST, which stops
them too (47_host_script.md R234, R235). -/
def othersKept (st : Stmt) (s t : State) : Prop :=
  ∀ k, k ≠ s.active → t.task k = match st.stops with
    | some h => { s.task k with status := h }
    | none => s.task k

/-- FAULT and REFUSED. -/
def sameMarks (s t : State) : Prop := t.faults = s.faults ∧ t.refused = s.refused

/-- Parameters, posted writes, the schedule and the driver's records. -/
def sameRest (s t : State) : Prop :=
  t.cfg = s.cfg ∧ t.wq = s.wq ∧ t.agenda = s.agenda ∧ t.turnNo = s.turnNo ∧ t.driver = s.driver

/-- The end of a read of `v` at `off` into x[d] in HOST's state: x[d] holds `v` and is written, the other
registers are as before, and the pc is at the next statement (47_host_script.md R224). -/
def readInto (d : Fin 8) (v : Word) (s t : State) : Prop :=
  t.x[d] = v ∧ t.xW[d] = true ∧ (∀ r : Fin 8, r ≠ d → t.x[r] = s.x[r] ∧ t.xW[r] = s.xW[r]) ∧
    pcAt (s.pc + 1) s t

/-- A fault raised and nothing else changed but for the pc of the statement, which `moved` says (60_exceptions.md
R240). -/
def faultOnly (k : FaultKind) (off : Option Nat) (moved : Bool) (s t : State) : Prop :=
  (∀ k', k' ∈ t.faults ↔ k' = k ∨ k' ∈ s.faults) ∧ t.refused = s.refused ∧
    t.hist = s.hist ++ [.fault k off] ∧ sameBus s t ∧ sameNonce s t ∧ sameRest s t ∧
    t.x = s.x ∧ t.xW = s.xW ∧ t.drawNo = s.drawNo ∧ pcAt (if moved then s.pc + 1 else s.pc) s t

/-- A refusal and nothing else changed but for the pc of the statement (60_exceptions.md R242). -/
def refusalOnly (r : RefusalReason) (moved : Bool) (s t : State) : Prop :=
  t.refused = true ∧ t.faults = s.faults ∧
    t.hist = s.hist ++ [.refuse r] ∧ sameBus s t ∧ sameNonce s t ∧ sameRest s t ∧
    t.x = s.x ∧ t.xW = s.xW ∧ t.drawNo = s.drawNo ∧ pcAt (if moved then s.pc + 1 else s.pc) s t

/-- The frames HIST says TX sent. -/
def emitted (hist : List Event) : List (Fin 3 × List Byte) :=
  hist.filterMap (fun e => match e with
    | .emit c bytes => some (c, bytes)
    | _ => none)

/-- The time HIST shows, the sum of its delays in microseconds (70_reset_and_hazards.md R293). -/
def elapsed (hist : List Event) : Nat :=
  (hist.map (fun e => match e with
    | .delay t => t
    | _ => 0)).sum

/-- The words HIST says HOST issued to an offset. -/
def issuedAt (off : Nat) (hist : List Event) : List Word :=
  hist.filterMap (fun e => match e with
    | .issued o v => if o = off then some v else none
    | _ => none)

/-- The words posted to an offset and not yet performed. -/
def pendingAt (off : Nat) (wq : List Pending) : List Word :=
  wq.filterMap (fun e => if e.off = off then some e.value else none)

/-- The words an entry list gives to the reads of NONCE_DATA (43_nonce_fifo.md R175). -/
def entryWords (q : List Entry) : List Word := q.flatMap (fun e => [e.nonce, e.metadata])

/-- The words the next reads of NONCE_DATA return: all of the queue's, less the nonce word already read. -/
def wordsLeft (s : State) : List Word := if s.nfPhase then (entryWords s.nfQ).drop 1 else entryWords s.nfQ

/-- The performed writes to an offset that HIST records. -/
def performedAt (off : Nat) (hist : List Event) : List Word :=
  hist.filterMap (fun e => match e with
    | .performed o v => if o = off then some v else none
    | _ => none)

/-- The words HIST says HOST read at an offset. -/
def readAt (off : Nat) (hist : List Event) : List Word :=
  hist.filterMap (fun e => match e with
    | .read o v => if o = off then some v else none
    | _ => none)

/-- The entries HIST says the FIFO took. -/
def pushed (hist : List Event) : List Entry :=
  hist.filterMap (fun e => match e with
    | .push n m => some ⟨n, m⟩
    | _ => none)

/-- Whether a statement issues a write (47_host_script.md R223). -/
def Stmt.writes : Stmt → Bool
  | .wr _ _ => true
  | .wri _ _ => true
  | .li _ _ => false
  | .rd _ _ => false
  | .fence => false
  | .delay _ => false
  | .andi _ _ _ => false
  | .ori _ _ _ => false
  | .addi _ _ _ => false
  | .slli _ _ _ => false
  | .srli _ _ _ => false
  | .beqz _ _ => false
  | .bnez _ _ => false
  | .j _ => false
  | .halt => false
  | .fail _ => false

/-- The duty of 20_memory.md R63 read off a script: the statement after a write is a fence. -/
def fencedScript (script : List Stmt) : Bool :=
  (List.range script.length).all (fun i =>
    !(script.getD i .halt).writes || script[i + 1]? == some .fence)

/-- What a HOST that keeps the duty of 20_memory.md R63 guarantees between steps, where one task alone writes: at most
one posted write, and while there is one that task's pc is at a fence. -/
def State.fencedHost (s : State) : Prop :=
  ∃ k, fencedScript (s.task k).script = true ∧
    (∀ k', k' ≠ k → ∀ st ∈ (s.task k').script, st.writes = false) ∧ s.wq.length ≤ 1 ∧
    (s.wq ≠ [] → (s.task k).script[(s.task k).pc]? = some .fence)

/-- The duty of 43_nonce_fifo.md R192: HOST never writes NONCE_TIMEOUT. -/
def leavesTimeout (hist : List Event) : Bool :=
  hist.all (fun e => match e with
    | .issued off _ => off != 0x08C
    | _ => true)

end Sys2Proof.Machine
end

