-- ==== Sys2Proof/Certificates/Slice0/Obligations.lean ====
section
/-! DEFINITION. The statements for the provers, from the numbered rules of spec/ (OBLIGATIONS.json lists them). -/

open Sys2Proof Sys2Proof.Machine

/-! ## The CRC5 generator, 40_crc5.md -/

/-- 40_crc5.md R108: feeding an input's own CRC5 after it, most significant bit first, leaves the register at 0; all the
bits of a frame, whose CRC byte has three zero bits in front, do not in general. -/
def Obligations.CrcResidueIsZero : Prop :=
  (∀ (d : List Byte) (nbits : Nat) (c : BitVec 5), crc5 d nbits = .ok c →
    crc5Bits ((bitsOf d).take nbits ++
      [c.getLsbD 4, c.getLsbD 3, c.getLsbD 2, c.getLsbD 1, c.getLsbD 0]) = 0) ∧
  (∃ i : Instr, i.language = .frame ∧ i.wellFormed = true ∧ crc5All (frameBytes i) ≠ 0)

/-- 40_crc5.md R109: the affine law; the pattern of a flipped bit depends on its place and the length alone, it is
never zero, two flips 31 apart cancel, and two flips nearer than 31 do not. -/
def Obligations.CrcAffineAndErrorDetection : Prop :=
  (∀ x y : List Bool, x.length = y.length →
    crc5Bits (List.zipWith (· ^^ ·) x y) =
      crc5Bits x ^^^ crc5Bits y ^^^ crc5Bits (List.replicate x.length false)) ∧
  (∀ (x y : List Bool) (j : Nat), x.length = y.length → j < x.length →
    crc5Bits (x.modify j (! ·)) ^^^ crc5Bits x = crc5Bits (y.modify j (! ·)) ^^^ crc5Bits y) ∧
  (∀ (x : List Bool) (j : Nat), j < x.length → crc5Bits (x.modify j (! ·)) ≠ crc5Bits x) ∧
  (∀ (x : List Bool) (j : Nat), j + 31 < x.length →
    crc5Bits ((x.modify j (! ·)).modify (j + 31) (! ·)) = crc5Bits x) ∧
  (∀ (x : List Bool) (j k : Nat), j < k → k < j + 31 → k < x.length →
    crc5Bits ((x.modify j (! ·)).modify k (! ·)) ≠ crc5Bits x)

/-- 40_crc5.md R110: the chain-inactive example, with the register after each of its 32 steps. -/
def Obligations.CrcChainInactiveTrace : Prop :=
  crc5 [0x53, 0x05, 0x00, 0x00] 32 = .ok 0x03 ∧
  (List.range 32).map (fun n => crc5Bits ((bitsOf [0x53, 0x05, 0x00, 0x00]).take (n + 1))) =
    [0x1B, 0x16, 0x09, 0x17, 0x0B, 0x16, 0x0C, 0x1D, 0x1F, 0x1B, 0x13, 0x03, 0x06, 0x09, 0x12, 0x04,
     0x08, 0x10, 0x05, 0x0A, 0x14, 0x0D, 0x1A, 0x11, 0x07, 0x0E, 0x1C, 0x1D, 0x1F, 0x1B, 0x13, 0x03]

/-! ## Encoding, 30_encoding.md and 41_command_frames.md -/

/-- Decode and encode agree for every instruction, every operand value and both layouts: no bit of an encoding is
dropped. -/
def Obligations.DecodeOfEncodeIsTheInstruction : Prop :=
  ∀ (l : CmdLayout) (i : Instr), decode l i.language (encode l i) = .ok i

/-- 30_encoding.md R77: the frame decoder accepts exactly the frames with a right CRC, each as itself. -/
def Obligations.FrameDecoderAcceptsExactlyTheFrames : Prop :=
  ∀ (bs : List Byte) (i : Instr), decodeFrame bs = .ok i ↔
    (i.language = .frame ∧ i.wellFormed = true ∧ bs = frameBytes i)

/-- 30_encoding.md R77: the frame decoder gives the first failing of its five tests as the reason, and a frame, which
spells the bytes it was read from, exactly when all five hold. -/
def Obligations.FrameDecoderRejectsByTheFirstFailingTest : Prop :=
  ∀ bs : List Byte,
    let n := bs.length
    let b := fun k => bs.getD k 0
    let lengthOk := n = 5 ∨ n = 9
    let matches1 := (b 1).toNat = n
    let headerOk := (n = 5 ∧ (b 0 = 0x53 ∨ b 0 = 0x40)) ∨
      (n = 9 ∧ (b 0 = 0x41 ∨ b 0 = 0x51 ∨ b 0 = 0x42 ∨ b 0 = 0x52))
    let fixedZero := (n = 5 → b 3 = 0) ∧ (b 0 = 0x53 → b 2 = 0) ∧
      (b 0 = 0x42 ∨ b 0 = 0x52 → b 4 = 0 ∧ b 5 = 0 ∧ b 6 = 0 ∧ b 7 = 0)
    let crcOk := b (n - 1) >>> 5 = 0 ∧ crc5 (bs.take (n - 1)) (8 * (n - 1)) = .ok ((b (n - 1)).setWidth 5)
    (decodeFrame bs = .error .badLength ↔ ¬lengthOk) ∧
    (decodeFrame bs = .error .lengthMismatch ↔ lengthOk ∧ ¬matches1) ∧
    (decodeFrame bs = .error .badHeader ↔ lengthOk ∧ matches1 ∧ ¬headerOk) ∧
    (decodeFrame bs = .error .nonzeroReserved ↔ lengthOk ∧ matches1 ∧ headerOk ∧ ¬fixedZero) ∧
    (decodeFrame bs = .error .badCrc ↔ lengthOk ∧ matches1 ∧ headerOk ∧ fixedZero ∧ ¬crcOk) ∧
    ((∃ i, decodeFrame bs = .ok i) ↔ lengthOk ∧ matches1 ∧ headerOk ∧ fixedZero ∧ crcOk) ∧
    ∀ i, decodeFrame bs = .ok i → frameBytes i = bs

/-- 41_command_frames.md R128: an unknown kind is refused first, an operand that does not fit its width (8 bits for an
address, a chip or a register, 32 bits for a value) is a ValidationError, and every other request gives a frame, of at
most 12 bytes. -/
def Obligations.FramerChecksInOrder : Prop :=
  (∀ k : Nat, framer (.unknown k) = .error (.refuse .kind)) ∧
  (∀ q : FrameRequest,
    let fits := match q with
      | .chainInactive => True
      | .setAddress addr => addr < 0x100
      | .writeReg chip reg value => chip < 0x100 ∧ reg < 0x100 ∧ value < 2 ^ 32
      | .writeRegBc reg value => reg < 0x100 ∧ value < 2 ^ 32
      | .readReg chip reg => chip < 0x100 ∧ reg < 0x100
      | .readRegBc reg => reg < 0x100
      | .unknown _ => False
    (∀ k, q ≠ .unknown k) →
      (¬fits → framer q = .error (.fail .validationError)) ∧
      (fits → ∃ i, framer q = .ok i ∧ (frameBytes i).length ≤ 12))

/-- 41_command_frames.md R129: every frame the framer builds decodes, to the kind and operands it was built from, a
broadcast kind with chip address 0x00. -/
def Obligations.FramerOutputDecodes : Prop :=
  (∀ (q : FrameRequest) (i : Instr), framer q = .ok i → decodeFrame (frameBytes i) = .ok i) ∧
  (∃ crc, framer .chainInactive = .ok (.chainInactive crc)) ∧
  (∀ a : Byte, ∃ crc, framer (.setAddress a.toNat) = .ok (.setAddress a crc)) ∧
  (∀ (c r : Byte) (v : Word), ∃ crc, framer (.writeReg c.toNat r.toNat v.toNat) = .ok (.writeReg c r v crc)) ∧
  (∀ (r : Byte) (v : Word), ∃ crc, framer (.writeRegBc r.toNat v.toNat) = .ok (.writeRegBc 0x00 r v crc)) ∧
  (∀ c r : Byte, ∃ crc, framer (.readReg c.toNat r.toNat) = .ok (.readReg c r crc)) ∧
  (∀ r : Byte, ∃ crc, framer (.readRegBc r.toNat) = .ok (.readRegBc 0x00 r crc))

/-- 41_command_frames.md R130: the three words of a frame. -/
def Obligations.FrameWordsShape : Prop :=
  ∀ (q : FrameRequest) (i : Instr) (w : Vector Word 3), framer q = .ok i → frameWords q = .ok w →
    w = pack (frameBytes i) ∧
    match i with
    | .chainInactive crc => w[1] = crc.setWidth 32 <<< 24 ∧ w[2] = 0
    | .setAddress _ crc => w[1] = crc.setWidth 32 <<< 24 ∧ w[2] = 0
    | .writeReg _ _ value crc => w[1] = value ∧ w[2] = crc.setWidth 32 <<< 24
    | .writeRegBc _ _ value crc => w[1] = value ∧ w[2] = crc.setWidth 32 <<< 24
    | .readReg _ _ crc => w[1] = 0 ∧ w[2] = crc.setWidth 32 <<< 24
    | .readRegBc _ _ crc => w[1] = 0 ∧ w[2] = crc.setWidth 32 <<< 24
    | _ => False

/-- 30_encoding.md R82: `byte(i)` reads back byte `i` of the packed list, at the bits R81 gives, and a byte past the
list is the padding 0x00. -/
def Obligations.BufferBytesInvertPacking : Prop :=
  (∀ (bs : List Byte) (i : Nat), bs.length ≤ 12 → bufByte (pack bs) i = bs.getD i 0) ∧
  (∀ (buf : Vector Word 3) (k : Fin 3) (j : Fin 4),
    bufByte buf (4 * k.val + j.val) = (buf[k]).extractLsb' (24 - 8 * j.val) 8)

/-- Words of the opcode table, written out from 30_encoding.md R73 and R88, decode to what they stand for (a sanity
statement). -/
def Obligations.TableWordsDecode : Prop :=
  decodeTableWord 40 0x5305000003 = some (.chainInactive 0x03) ∧
  decodeTableWord 40 0x400555000A = some (.setAddress 0x55 0x0A) ∧
  decodeTableWord 72 0x410900001234567809 = some (.writeReg 0x00 0x00 0x12345678 0x09) ∧
  decodeTableWord 72 0x51090014FFFFFFFF19 = some (.writeRegBc 0x00 0x14 0xFFFFFFFF 0x19) ∧
  decodeTableWord 16 0x0010 = some (.nonceDataRd 0) ∧
  decodeTableWord 16 0x20C0 = some (.cmdCtlWr 0)

/-! ## The register window, 10_state.md and 20_memory.md -/

/-- 10_state.md R37: the offset of each register under each layout, and that no offset holds two registers. -/
def Obligations.RegisterMapOffsets : Prop :=
  (∀ l, regOffset l .nonceData = 0x010 ∧ regOffset l .nonceCount = 0x018 ∧ regOffset l .nonceTimeout = 0x08C ∧
    regOffset l .crcErr = 0x0F8) ∧
  regOffset .trigFirst .cmdCtl = 0x0C0 ∧ (∀ k : Fin 3, regOffset .trigFirst (.cmdBuf k) = 0x0C4 + 4 * k.val) ∧
  regOffset .trigLast .cmdCtl = 0x0CC ∧ (∀ k : Fin 3, regOffset .trigLast (.cmdBuf k) = 0x0C0 + 4 * k.val) ∧
  (∀ (l : CmdLayout) (off : Nat) (r : BlockReg), regAt l off = some r ↔ regOffset l r = off)

/-- 20_memory.md R51, R52 and R54 in the order of 60_exceptions.md R244: an access of another width than 32 bits is
refused, then a misaligned one raises F_ALIGN, then one at or past 0x1200 raises F_RANGE, then one outside the block is
refused; nothing else changes. What becomes of the pc is the model's parameter (assumption log 8). -/
def Obligations.IssueChecksInOrder : Prop :=
  ∀ (s : State) (width off : Nat) (d : Fin 8) (v : Word),
    let both := fun (p : State → Prop) =>
      (∃ t, mmioRead width d off s = .next t ∧ p t) ∧ p (mmioWrite width off v s)
    (width ≠ 32 → both (refusalOnly .width s.cfg.faultAdvancesPc s)) ∧
    (width = 32 → off % 4 ≠ 0 → both (faultOnly .align (some off) s.cfg.faultAdvancesPc s)) ∧
    (width = 32 → off % 4 = 0 → 0x1200 ≤ off → both (faultOnly .range (some off) s.cfg.faultAdvancesPc s)) ∧
    (width = 32 → off % 4 = 0 → off < 0x1200 → (∀ r, regOffset s.cfg.layout r ≠ off) →
      both (refusalOnly .outOfBlock s.cfg.faultAdvancesPc s))

/-- 47_host_script.md R223: a write to a register of the block, of a constant or of a written scratch register, joins WQ
and is recorded; nothing else but the pc changes. -/
def Obligations.WriteStatementIssues : Prop :=
  ∀ (s : State) (r : BlockReg),
    let issues := fun (st : Stmt) (v : Word) => ∃ t, execStmt st s = .next t ∧
      t.wq = s.wq ++ [⟨regOffset s.cfg.layout r, v⟩] ∧
      t.hist = s.hist ++ [.issued (regOffset s.cfg.layout r) v] ∧ pcAt (s.pc + 1) s t ∧
      sameBus s t ∧ sameNonce s t ∧ sameMarks s t ∧ t.cfg = s.cfg ∧ t.x = s.x ∧ t.xW = s.xW ∧
      t.agenda = s.agenda ∧ t.turnNo = s.turnNo ∧ t.drawNo = s.drawNo ∧ t.driver = s.driver
    (∀ v : Word, issues (.wri (regOffset s.cfg.layout r) v) v) ∧
    (∀ xs : Fin 8, s.xW[xs] = true → issues (.wr (regOffset s.cfg.layout r) xs) s.x[xs])

/-- 20_memory.md R60: the entries a WB step may take are exactly those with no older entry for the same offset, under
STRICT_MMIO_ORDER only the oldest, and every one of them can be taken. -/
def Obligations.WriteBufferMayTake : Prop :=
  ∀ (strict : Bool) (wq rest : List Pending) (e : Pending),
    (∃ pick, chooseWrite strict pick wq = some (e, rest)) ↔
      ∃ older newer, wq = older ++ [e] ++ newer ∧ rest = older ++ newer ∧
        (∀ o ∈ older, o.off ≠ e.off) ∧ (strict = true → older = [])

/-- 20_memory.md R60: writes to one offset take effect in program order. At every offset the words issued are the
words performed followed by the words pending, and every step keeps it. A write that faults counts as performed, the
model's reading of R60 (assumption log 9). -/
def Obligations.WritesToOneOffsetKeepProgramOrder : Prop :=
  ∀ (s t : State) (off : Nat),
    issuedAt off s.hist = performedAt off s.hist ++ pendingAt off s.wq → step s = .next t →
    issuedAt off t.hist = performedAt off t.hist ++ pendingAt off t.wq

/-- 20_memory.md R61: a read at a register of the block holds while WQ has an entry for its offset, or any entry under
STRICT_MMIO_ORDER, and is performed otherwise. -/
def Obligations.ReadHoldsBehindPostedWrites : Prop :=
  ∀ (s : State) (r : BlockReg) (d : Fin 8),
    ((∃ e ∈ s.wq, e.off = regOffset s.cfg.layout r) ∨ (s.cfg.strictOrder = true ∧ s.wq ≠ []) →
      execStmt (.rd d (regOffset s.cfg.layout r)) s = .next s) ∧
    ((∀ e ∈ s.wq, e.off ≠ regOffset s.cfg.layout r) → (s.cfg.strictOrder = true → s.wq = []) →
      execStmt (.rd d (regOffset s.cfg.layout r)) s = exec (readInstr r d) s)

/-- 20_memory.md R62 and 47_host_script.md R225: a fence holds until WQ is empty, then records `F` and goes on. -/
def Obligations.FenceWaitsForEmptyQueue : Prop :=
  ∀ s : State,
    (s.wq ≠ [] → execStmt .fence s = .next s) ∧
    (s.wq = [] → ∃ t, execStmt .fence s = .next t ∧ t.hist = s.hist ++ [.fence] ∧ pcAt (s.pc + 1) s t ∧
      sameBus s t ∧ sameNonce s t ∧ sameMarks s t ∧ sameRest s t ∧ t.x = s.x ∧ t.xW = s.xW ∧ t.drawNo = s.drawNo)

/-- 20_memory.md R63: a HOST whose one writing task follows every write with a fence never has more than one posted
write, whatever its other task reads meanwhile; every step keeps this. -/
def Obligations.FencedHostKeepsOnePostedWrite : Prop :=
  ∀ s t : State, s.fencedHost → step s = .next t → t.fencedHost

/-! ## The command bus, 42_command_bus.md -/

/-- 42_command_bus.md R140: a buffer write performed while no frame is posted stores its word and marks it written;
nothing else changes. -/
def Obligations.BufferWriteStores : Prop :=
  ∀ (s : State) (v : Word), s.cmdReady = false →
    exec (.cmdBuf0Wr v) s = .next { s with cmdBuf := s.cmdBuf.set 0 v, cmdBufW := s.cmdBufW.set 0 true } ∧
    exec (.cmdBuf1Wr v) s = .next { s with cmdBuf := s.cmdBuf.set 1 v, cmdBufW := s.cmdBufW.set 1 true } ∧
    exec (.cmdBuf2Wr v) s = .next { s with cmdBuf := s.cmdBuf.set 2 v, cmdBufW := s.cmdBufW.set 2 true }

/-- 42_command_bus.md R141: a write to the buffer or the trigger performed while a frame is posted raises F_BUSY and
changes no block state. -/
def Obligations.BusyWritesFault : Prop :=
  ∀ (s : State) (v : Word), s.cmdReady = true →
    (∃ t, exec (.cmdBuf0Wr v) s = .next t ∧ faultOnly .busy (some (regOffset s.cfg.layout (.cmdBuf 0))) false s t) ∧
    (∃ t, exec (.cmdBuf1Wr v) s = .next t ∧ faultOnly .busy (some (regOffset s.cfg.layout (.cmdBuf 1))) false s t) ∧
    (∃ t, exec (.cmdBuf2Wr v) s = .next t ∧ faultOnly .busy (some (regOffset s.cfg.layout (.cmdBuf 2))) false s t) ∧
    (∃ t, exec (.cmdCtlWr v) s = .next t ∧ faultOnly .busy (some (regOffset s.cfg.layout .cmdCtl)) false s t)

/-- 42_command_bus.md R142 and 43_nonce_fifo.md R188: a read of a buffer word or of the CRC error count returns a draw,
recorded, and changes no block state. The place of the DRAW event in HIST, before R, is the model's (00_scope.md R11,
assumption log 6). -/
def Obligations.ReadsWithoutAValueReturnDraws : Prop :=
  ∀ (s : State) (d : Fin 8),
    let drawn := Config.freeWord s.drawNo
    let returnsDraw := fun (i : Instr) (off : Nat) => ∃ t, exec i s = .next t ∧
      readInto d drawn s t ∧ t.drawNo = s.drawNo + 1 ∧ t.hist = s.hist ++ [.draw drawn, .read off drawn] ∧
      sameBus s t ∧ sameNonce s t ∧ sameMarks s t ∧ sameRest s t
    returnsDraw (.cmdBuf0Rd d) (regOffset s.cfg.layout (.cmdBuf 0)) ∧
    returnsDraw (.cmdBuf1Rd d) (regOffset s.cfg.layout (.cmdBuf 1)) ∧
    returnsDraw (.cmdBuf2Rd d) (regOffset s.cfg.layout (.cmdBuf 2)) ∧
    returnsDraw (.crcErrRd d) 0x0F8

/-- 42_command_bus.md R145: with no frame posted and a sendable frame in the buffer, the trigger word of a chain posts
it: CMD_CHAIN and CMD_READY are set and nothing else changes. -/
def Obligations.TriggerPostsTheFrame : Prop :=
  ∀ (s : State) (c : Fin 3), paramsOk s.cfg = true → s.cmdReady = false → s.sendable →
    exec (.cmdCtlWr (trigWord s.cfg c)) s = .next { s with cmdChain := c, cmdReady := true }

/-- 42_command_bus.md R146: the six tests of TRIGGER_CHECK in order, with no frame posted; the first that fails
decides and no other state changes. -/
def Obligations.TriggerChecksInOrder : Prop :=
  ∀ (s : State) (v : Word), s.cmdReady = false →
    let off := some (regOffset s.cfg.layout .cmdCtl)
    let noReady := v.getLsbD s.cfg.readyBit = false
    let badExtra := v &&& ~~~(readyMask s.cfg ||| chainMask s.cfg) ≠ s.cfg.ctlExtra
    let badChain := 3 ≤ (v.extractLsb' s.cfg.chainLsb s.cfg.chainWidth).toNat
    let badLen := lengthByte s.cmdBuf < 2 ∨ 12 < lengthByte s.cmdBuf
    s.cfg.readyBit < 32 →
    (noReady ∨ badExtra → ∃ t, exec (.cmdCtlWr v) s = .next t ∧ refusalOnly .trigForm false s t) ∧
    (¬noReady → ¬badExtra → badChain → ∃ t, exec (.cmdCtlWr v) s = .next t ∧ faultOnly .chain off false s t) ∧
    (¬noReady → ¬badExtra → ¬badChain → s.cmdBufW[0] = false →
      ∃ t, exec (.cmdCtlWr v) s = .next t ∧ faultOnly .unwritten off false s t) ∧
    (¬noReady → ¬badExtra → ¬badChain → s.cmdBufW[0] = true → badLen →
      ∃ t, exec (.cmdCtlWr v) s = .next t ∧ faultOnly .len off false s t) ∧
    (¬noReady → ¬badExtra → ¬badChain → s.cmdBufW[0] = true → ¬badLen →
      (∃ k : Fin 3, k.val < (lengthByte s.cmdBuf + 3) / 4 ∧ s.cmdBufW[k] = false) →
      ∃ t, exec (.cmdCtlWr v) s = .next t ∧ faultOnly .unwritten off false s t) ∧
    (¬noReady → ¬badExtra → ¬badChain → s.cmdBufW[0] = true → ¬badLen →
      (∀ k : Fin 3, k.val < (lengthByte s.cmdBuf + 3) / 4 → s.cmdBufW[k] = true) →
      ∃ c : Fin 3, c.val = (v.extractLsb' s.cfg.chainLsb s.cfg.chainWidth).toNat ∧
        exec (.cmdCtlWr v) s = .next { s with cmdChain := c, cmdReady := true })

/-- 42_command_bus.md R148: a status poll returns a draw with CMD_READY in the ready bit and changes no block state. The
place of the DRAW event in HIST, before R, is the model's (00_scope.md R11, assumption log 6). -/
def Obligations.StatusPollReadsReadyBit : Prop :=
  ∀ (s : State) (d : Fin 8), s.cfg.readyBit < 32 →
    ∃ t v, exec (.cmdCtlRd d) s = .next t ∧ readInto d v s t ∧
      v.getLsbD s.cfg.readyBit = s.cmdReady ∧
      (∀ n, n ≠ s.cfg.readyBit → v.getLsbD n = (Config.freeWord s.drawNo).getLsbD n) ∧
      t.hist = s.hist ++ [.draw (Config.freeWord s.drawNo), .read (regOffset s.cfg.layout .cmdCtl) v] ∧
      t.drawNo = s.drawNo + 1 ∧ sameBus s t ∧ sameNonce s t ∧ sameMarks s t ∧ sameRest s t

/-- 42_command_bus.md R150 for the five-byte frames, bytes by 30_encoding.md R71: while a frame is posted, executing one
emits its bytes to the chain the trigger named and clears the ready bit; the hazard check alone may add a fault. -/
def Obligations.FiveByteFramesAreSent : Prop :=
  ∀ (s : State) (addr : Byte) (crc : BitVec 5), s.cmdReady = true →
    let sent := fun (t : State) (bytes : List Byte) =>
      t.hist = s.hist ++ (if hazard s.cmdChain s.hist then [.fault .hazard none] else []) ++
        [.emit s.cmdChain bytes] ∧
      (∀ k, k ∈ t.faults ↔ k ∈ s.faults ∨ (hazard s.cmdChain s.hist = true ∧ k = .hazard)) ∧
      t.refused = s.refused ∧ t.cmdReady = false ∧ t.cmdBuf = s.cmdBuf ∧ t.cmdBufW = s.cmdBufW ∧
      t.cmdChain = s.cmdChain ∧ sameNonce s t ∧ sameHost s t ∧ sameRest s t ∧ t.drawNo = s.drawNo
    (∃ t, exec (.chainInactive crc) s = .next t ∧ sent t [0x53, 0x05, 0x00, 0x00, 0#3 ++ crc]) ∧
    (∃ t, exec (.setAddress addr crc) s = .next t ∧ sent t [0x40, 0x05, addr, 0x00, 0#3 ++ crc])

/-- 42_command_bus.md R150 for the nine-byte frames, bytes by 30_encoding.md R72. -/
def Obligations.NineByteFramesAreSent : Prop :=
  ∀ (s : State) (chip reg b4 b5 b6 b7 : Byte) (crc : BitVec 5), s.cmdReady = true →
    let sent := fun (t : State) (bytes : List Byte) =>
      t.hist = s.hist ++ (if hazard s.cmdChain s.hist then [.fault .hazard none] else []) ++
        [.emit s.cmdChain bytes] ∧
      (∀ k, k ∈ t.faults ↔ k ∈ s.faults ∨ (hazard s.cmdChain s.hist = true ∧ k = .hazard)) ∧
      t.refused = s.refused ∧ t.cmdReady = false ∧ t.cmdBuf = s.cmdBuf ∧ t.cmdBufW = s.cmdBufW ∧
      t.cmdChain = s.cmdChain ∧ sameNonce s t ∧ sameHost s t ∧ sameRest s t ∧ t.drawNo = s.drawNo
    (∃ t, exec (.writeReg chip reg (b4 ++ b5 ++ b6 ++ b7) crc) s = .next t ∧
      sent t [0x41, 0x09, chip, reg, b4, b5, b6, b7, 0#3 ++ crc]) ∧
    (∃ t, exec (.writeRegBc chip reg (b4 ++ b5 ++ b6 ++ b7) crc) s = .next t ∧
      sent t [0x51, 0x09, chip, reg, b4, b5, b6, b7, 0#3 ++ crc]) ∧
    (∃ t, exec (.readReg chip reg crc) s = .next t ∧
      sent t [0x42, 0x09, chip, reg, 0x00, 0x00, 0x00, 0x00, 0#3 ++ crc]) ∧
    (∃ t, exec (.readRegBc chip reg crc) s = .next t ∧
      sent t [0x52, 0x09, chip, reg, 0x00, 0x00, 0x00, 0x00, 0#3 ++ crc])

/-- 42_command_bus.md R151: TX sends the buffer's bytes unchanged, whatever they spell: it checks neither the header nor
the fixed bytes nor the CRC. -/
def Obligations.TransmitterSendsTheBufferVerbatim : Prop :=
  ∀ s : State, s.cmdReady = true → lengthByte s.cmdBuf ≤ 12 →
    ∃ t, txStep s = .next t ∧
      t.hist = s.hist ++ (if hazard s.cmdChain s.hist then [.fault .hazard none] else []) ++
        [.emit s.cmdChain ((List.range (s.cmdBuf[0].extractLsb' 16 8).toNat).map
          (fun i => (s.cmdBuf.toList.getD (i / 4) 0).extractLsb' (24 - 8 * (i % 4)) 8))] ∧
      t.cmdReady = false ∧ t.cmdBuf = s.cmdBuf ∧ t.cmdBufW = s.cmdBufW ∧ t.cmdChain = s.cmdChain ∧
      sameNonce s t ∧ sameHost s t ∧ sameRest s t

/-- 42_command_bus.md R150: TX has a step exactly when CMD_READY = 1; without one neither the agent nor any frame
changes the state. -/
def Obligations.TransmitterIdlesWithoutPostedFrame : Prop :=
  ∀ s : State, s.cmdReady = false →
    txStep s = .next s ∧ (∀ i : Instr, i.language = .frame → exec i s = .next s)

/-- 10_state.md R22: only the trigger write sets CMD_READY, and only a TX completion clears it, over all steps. -/
def Obligations.OnlyTriggerSetsAndOnlyTxClearsReady : Prop :=
  ∀ s t : State, step s = .next t →
    (s.cmdReady = false → t.cmdReady = true → ∃ pick v, turnOf s = .wb pick ∧
      t.hist = s.hist ++ [.performed (regOffset s.cfg.layout .cmdCtl) v]) ∧
    (s.cmdReady = true → t.cmdReady = false → turnOf s = .tx ∧
      ∃ pre bytes, t.hist = s.hist ++ pre ++ [.emit s.cmdChain bytes])

/-- 20_memory.md R66: the buffer does not change while a frame is posted, so TX sends the bytes that were in it when the
trigger took effect. -/
def Obligations.BufferUnchangedWhilePosted : Prop :=
  ∀ s t : State, s.cmdReady = true → step s = .next t →
    t.cmdBuf = s.cmdBuf ∧ t.cmdBufW = s.cmdBufW ∧ t.cmdChain = s.cmdChain

/-- 42_command_bus.md R152: no frame is emitted without a trigger and none twice. The frames emitted, and one more while
a frame is posted, are never more than the triggers performed; every step keeps it. -/
def Obligations.EmittedFramesNeverOutnumberTriggers : Prop :=
  ∀ s t : State, step s = .next t →
    (emitted s.hist).length + s.cmdReady.toNat ≤
      (performedAt (regOffset s.cfg.layout .cmdCtl) s.hist).length →
    (emitted t.hist).length + t.cmdReady.toNat ≤
      (performedAt (regOffset t.cfg.layout .cmdCtl) t.hist).length

/-- 70_reset_and_hazards.md R294: F_HAZARD is raised exactly when the last frame to the chain was SET_ADDRESS and the
delays after it sum to less than 10000 microseconds; the frame is emitted either way. -/
def Obligations.HazardExactlyWithinSettleTime : Prop :=
  (∀ (c : Fin 3) (hist : List Event), hazard c hist = true ↔
    ∃ before after bytes, hist = before ++ [.emit c bytes] ++ after ∧
      (∀ bytes', .emit c bytes' ∉ after) ∧ bytes[0]? = some 0x40 ∧ elapsed after < 10000) ∧
  (∀ (s : State) (bytes : List Byte), s.cmdReady = true → ∃ t, transmit bytes s = .next t ∧
    t.hist = s.hist ++ (if hazard s.cmdChain s.hist then [.fault .hazard none] else []) ++ [.emit s.cmdChain bytes] ∧
    (hazard s.cmdChain s.hist = true → .hazard ∈ t.faults))

/-! ## The nonce path, 43_nonce_fifo.md -/

/-- 43_nonce_fifo.md R170: a count read returns a draw whose bits 14 to 0 are the number of entries, or one of n and
n - 1 while the head entry is half read; no block state changes. The second DRAW that a choice records is the
model's (assumption log 6). -/
def Obligations.CountReadReturnsQueueLength : Prop :=
  ∀ (s : State) (d : Fin 8), s.nfQ.length ≤ 32767 →
    ∃ t v, exec (.nonceCountRd d) s = .next t ∧ readInto d v s t ∧
      (s.nfPhase = false → (v &&& 0x7FFF).toNat = s.nfQ.length ∧ t.drawNo = s.drawNo + 1 ∧
        (∀ n, 15 ≤ n → v.getLsbD n = (Config.freeWord s.drawNo).getLsbD n) ∧
        t.hist = s.hist ++ [.draw (Config.freeWord s.drawNo), .read 0x018 v]) ∧
      (s.nfPhase = true →
        ((v &&& 0x7FFF).toNat = s.nfQ.length ∨ (v &&& 0x7FFF).toNat = s.nfQ.length - 1) ∧
        t.drawNo = s.drawNo + 2 ∧
        (∀ n, 15 ≤ n → v.getLsbD n = (Config.freeWord (s.drawNo + 1)).getLsbD n) ∧
        t.hist = s.hist ++ [.draw (v &&& 0x7FFF), .draw (Config.freeWord (s.drawNo + 1)), .read 0x018 v]) ∧
      sameBus s t ∧ sameNonce s t ∧ sameMarks s t ∧ sameRest s t

/-- 43_nonce_fifo.md R175: with an entry queued, a data read returns the nonce word and moves the phase, then the
metadata word with the entry removed. -/
def Obligations.DataReadPopsHalfAnEntry : Prop :=
  ∀ (s : State) (d : Fin 8) (e : Entry) (rest : List Entry), s.nfQ = e :: rest →
    ∃ t v, exec (.nonceDataRd d) s = .next t ∧ readInto d v s t ∧
      (s.nfPhase = false → v = e.nonce ∧ t.nfPhase = true ∧ t.nfQ = s.nfQ) ∧
      (s.nfPhase = true → v = e.metadata ∧ t.nfPhase = false ∧ t.nfQ = rest) ∧
      t.hist = s.hist ++ [.read 0x010 v] ∧ t.nonceTimeout = s.nonceTimeout ∧ t.drawNo = s.drawNo ∧
      sameBus s t ∧ sameMarks s t ∧ sameRest s t

/-- 43_nonce_fifo.md R176: a data read of an empty FIFO raises F_EMPTY and changes no state. The clause on the pc is the
model's (assumption log 8). -/
def Obligations.EmptyDataReadFaults : Prop :=
  ∀ (s : State) (d : Fin 8), s.nfQ = [] →
    ∃ t, exec (.nonceDataRd d) s = .next t ∧ faultOnly .empty (some 0x010) s.cfg.faultAdvancesPc s t

/-- 43_nonce_fifo.md R172, R177 and R189: a write to a read-only register raises F_RO and changes no state. -/
def Obligations.ReadOnlyRegisterWritesFault : Prop :=
  ∀ (s : State) (v : Word),
    (∃ t, exec (.nonceDataWr v) s = .next t ∧ faultOnly .ro (some 0x010) false s t) ∧
    (∃ t, exec (.nonceCountWr v) s = .next t ∧ faultOnly .ro (some 0x018) false s t) ∧
    (∃ t, exec (.crcErrWr v) s = .next t ∧ faultOnly .ro (some 0x0F8) false s t)

/-- 43_nonce_fifo.md R190 and R191: NONCE_TIMEOUT stores what is written, reads back what it holds, and neither changes
anything else. -/
def Obligations.TimeoutRegisterReadsBackWhatWasWritten : Prop :=
  ∀ (s : State) (d : Fin 8) (v : Word),
    exec (.nonceTimeoutWr v) s = .next { s with nonceTimeout := v } ∧
    (∃ t, exec (.nonceTimeoutRd d) s = .next t ∧ readInto d s.nonceTimeout s t ∧
      t.hist = s.hist ++ [.read 0x08C s.nonceTimeout] ∧ t.drawNo = s.drawNo ∧
      sameBus s t ∧ sameNonce s t ∧ sameMarks s t ∧ sameRest s t)

/-- 43_nonce_fifo.md R185 and R186: RX offers two draws; below the depth they join the tail of the FIFO, at the depth
they are dropped and queue and phase stay. The places of the DRAW events in HIST, before PUSH or DROP, are the model's
(00_scope.md R11, assumption log 6). -/
def Obligations.ReturnPathOffersOneEntry : Prop :=
  ∀ s : State, ∃ t, runTurn .rx s = .next t ∧
    let n := Config.freeWord s.drawNo
    let m := Config.freeWord (s.drawNo + 1)
    (s.nfQ.length < s.cfg.fifoDepth →
      t.nfQ = s.nfQ ++ [⟨n, m⟩] ∧ t.hist = s.hist ++ [.draw n, .draw m, .push n m]) ∧
    (s.cfg.fifoDepth ≤ s.nfQ.length →
      t.nfQ = s.nfQ ∧ t.hist = s.hist ++ [.draw n, .draw m, .drop n m]) ∧
    t.nfPhase = s.nfPhase ∧ t.nonceTimeout = s.nonceTimeout ∧ t.drawNo = s.drawNo + 2 ∧
    sameBus s t ∧ sameHost s t ∧ sameMarks s t ∧ sameRest s t

/-- 20_memory.md R68: entries leave the FIFO in the order RX pushed them. The words pushed are the words read at 0x010
followed by the words still to be read; every step from a state of the invariant keeps it. -/
def Obligations.NonceWordsAreReadInPushOrder : Prop :=
  ∀ s t : State, s.Inv →
    entryWords (pushed s.hist) = readAt 0x010 s.hist ++ wordsLeft s → step s = .next t →
    entryWords (pushed t.hist) = readAt 0x010 t.hist ++ wordsLeft t

/-- 43_nonce_fifo.md R180: DEFRAME takes the four bytes of the metadata word, most significant first, and passes the
nonce through. -/
def Obligations.DeframeSplitsTheMetadataWord : Prop :=
  ∀ (w0 : Word) (chain chip core work : Byte),
    deframe w0 (chain ++ chip ++ core ++ work) = ⟨w0, chain, chip, core, work⟩

/-- 43_nonce_fifo.md R183: with no half-read entry and no write that holds its reads, COLLECT returns every entry of the
FIFO, decoded, oldest first, and leaves the FIFO empty; a count read that holds leaves everything (20_memory.md R61); and
a pair begun on an empty FIFO records F_EMPTY (43_nonce_fifo.md R176). That no other agent steps between its reads, so
that the FIFO is empty afterwards, and that COLLECT ends at the fault with the responses so far, are the model's choices
(assumption log 28), and so is the pc after the fault (assumption log 8). R184 promises no empty FIFO, and
CollectReadsWhatIsQueued says what holds among other agents' steps. -/
def Obligations.CollectReturnsTheWholeQueue : Prop :=
  ∀ s : State,
    (s.nfPhase = false → s.nfQ.length ≤ 32767 → (∀ e ∈ s.wq, e.off ≠ 0x018 ∧ e.off ≠ 0x010) →
      (s.cfg.strictOrder = true → s.wq = []) →
      ∃ t, collect s = (.done (s.nfQ.map (fun e => deframe e.nonce e.metadata)), t) ∧
        t.nfQ = [] ∧ t.nfPhase = false ∧ sameBus s t ∧ sameMarks s t ∧ t.nonceTimeout = s.nonceTimeout) ∧
    ((∃ e ∈ s.wq, e.off = 0x018) ∨ (s.cfg.strictOrder = true ∧ s.wq ≠ []) → collect s = (.counting, s)) ∧
    (∀ (left : Nat) (out : List NonceResponse), s.nfQ = [] → s.wq = [] →
      ∃ t, collectStep (.atNonce left out) s = (.stopped out, t) ∧
        faultOnly .empty (some 0x010) s.cfg.faultAdvancesPc s t)

/-- 43_nonce_fifo.md R183 and 70_reset_and_hazards.md R291: a COLLECT that begins with no half-read entry, with steps of
TX, RX and WB between its reads in any interleaving and no other reader, never reads an empty FIFO; at its end it has
returned the oldest entries, those queued at the start and then those RX pushed, decoded and in order, as many as its one
count read showed, and the words read at 0x010 are theirs. -/
def Obligations.CollectReadsWhatIsQueued : Prop :=
  ∀ (s t : State) (c : Collection), s.nfPhase = false → s.nfQ.length ≤ s.cfg.fifoDepth → s.cfg.fifoDepth ≤ 32767 →
    CollectRun .counting s c t →
    (∀ out, c ≠ .stopped out) ∧
    (∀ out, c = .done out → ∃ taken later count, s.nfQ ++ later = taken ++ t.nfQ ∧ t.nfPhase = false ∧
      pushed t.hist = pushed s.hist ++ later ∧ readAt 0x018 t.hist = readAt 0x018 s.hist ++ [count] ∧
      out.length = countField count ∧
      out = taken.map (fun e => deframe e.nonce e.metadata) ∧
      readAt 0x010 t.hist = readAt 0x010 s.hist ++ entryWords taken ∧ out = responsesOf (entryWords taken))

/-- 43_nonce_fifo.md R195 and R196: a record's expected nonce is its bytes 88 to 91, little-endian; the first record whose expected nonce is the response's matches, with a warning
exactly when the work ids differ, and where none matches the correlation says so. How the work ids are compared, and so
when there is a warning, is the model's (assumption log 27). -/
def Obligations.CorrelationPicksTheFirstMatch : Prop :=
  ∀ (entries : List (PatternRecord × Nat)) (r : NonceResponse),
    (∀ b : Vector Byte 116, (expectedNonce (recordOf b)).toNat =
      b[88].toNat + 2 ^ 8 * b[89].toNat + 2 ^ 16 * b[90].toNat + 2 ^ 24 * b[91].toNat) ∧
    (correlate entries r = .noMatch ↔ ∀ e ∈ entries, expectedNonce e.1 ≠ r.nonce) ∧
    (∀ (n : Nat) (warn : Bool), correlate entries r = .matched n warn ↔
      ∃ e workId, entries[n]? = some (e, workId) ∧ expectedNonce e = r.nonce ∧
        (warn = true ↔ r.workId.toNat ≠ workId) ∧
        (∀ k e', k < n → entries[k]? = some e' → expectedNonce e'.1 ≠ r.nonce))

/-! ## Payloads, 45_payloads.md -/

/-- 45_payloads.md R211: for 1 to 256 chips the addresses are `i * interval`, all different and below 256; any other
count is a ValidationError. -/
def Obligations.EnumerationAddressesFitAByte : Prop :=
  (∀ n, 1 ≤ n → n ≤ 256 → ∃ addrs, enumAddresses n = .ok addrs ∧ addrs.length = n ∧
    (∀ i, i < n → addrs[i]? = some (i * max 1 (256 / n))) ∧ addrs.Pairwise (· < ·) ∧ ∀ a ∈ addrs, a < 256) ∧
  (∀ n, n = 0 ∨ 256 < n → enumAddresses n = .error .validationError)

/-- 45_payloads.md R201 to R204: the divisor of a baud rate, `floor(ref / (8 * baud)) - 1` with the reference of the
speed mode, a ValidationError outside 0 to 511 or for a baud of 0; and its payload, d[4:0] in bits 4 to 0, d[8:5] in bits
11 to 8, the open base and the mode's open high-speed bit in the others (kept off the divisor's bits, assumption log
23). The switch to the high-speed mode also configures its PLL channel and its baud-config register, each by one write,
which is the model's choice (assumption log 32). -/
def Obligations.BaudDivisorsInRange : Prop :=
  (∀ baud d : Nat, baudDivisor baud = .ok d ↔
    0 < baud ∧ d ≤ 511 ∧
      (baud ≤ 3000000 → 25000000 / (baud * 8) = d + 1) ∧
      (3000000 < baud → 400000000 / (baud * 8) = d + 1)) ∧
  (∀ (baud : Nat) (e : HostError), baudDivisor baud = .error e → e = .validationError ∧ uartPayload baud = .error e) ∧
  (∀ baud d : Nat, baudDivisor baud = .ok d → ∃ w, uartPayload baud = .ok w ∧
    (w.extractLsb' 0 5).toNat = d % 32 ∧ (w.extractLsb' 8 4).toNat = d / 32 ∧
    w &&& 0xFFFFF0E0 = clkCtrlBase ||| (if 3000000 < baud then highSpeedBit else 0)) ∧
  clkCtrlBase &&& 0xF1F = 0 ∧ highSpeedBit &&& 0xF1F = 0 ∧
  (∀ (o : OutsideAccess) (p : Params) (c : Fin 3) (v : Word), uartPayload highBaud = .ok v →
    ∃ parts, highSpeedSwitch o p c = thenDelay 50000 (stage parts) ∧ openWrite o p c Config.highSpeedPll ∈ parts ∧
      openWrite o p c Config.baudConfig ∈ parts ∧ configureWrite p c 11 Config.clkCtrlReg v ∈ parts)

/-! ## The host script, 47_host_script.md -/

/-- 47_host_script.md R222 and R227 to R230: a statement on written source registers gives its destination the
value of its rule and goes on; every other register and the whole block are unchanged. -/
def Obligations.ComputingStatementsSetTheirRegister : Prop :=
  ∀ (s : State) (d xs : Fin 8) (imm : Word) (sh : Nat),
    let sets := fun (st : Stmt) (v : Word) => ∃ t, execStmt st s = .next t ∧ readInto d v s t ∧
      t.hist = s.hist ∧ t.drawNo = s.drawNo ∧ sameBus s t ∧ sameNonce s t ∧ sameMarks s t ∧ sameRest s t
    sets (.li d imm) imm ∧
    (s.xW[xs] = true →
      sets (.andi d xs imm) (s.x[xs] &&& imm) ∧ sets (.ori d xs imm) (s.x[xs] ||| imm) ∧
      sets (.addi d xs imm) (BitVec.ofNat 32 (s.x[xs].toNat + imm.toNat)) ∧
      (sh < 32 → sets (.slli d xs sh) (BitVec.ofNat 32 (s.x[xs].toNat * 2 ^ sh)) ∧
        sets (.srli d xs sh) (BitVec.ofNat 32 (s.x[xs].toNat / 2 ^ sh))))

/-- 60_exceptions.md R244 item 1: a statement whose source register is unwritten raises F_UNDEF whatever else is wrong
with it, and only then is a shift of 32 or more refused. A branch that faults changes nothing else (R240); what becomes
of the pc at the other statements is the model's parameter (assumption log 8). -/
def Obligations.OperandChecksComeFirst : Prop :=
  ∀ (s : State) (d xs : Fin 8) (imm : Word) (sh off label : Nat),
    (s.xW[xs] = false → ∀ st ∈ [Stmt.wr off xs, .andi d xs imm, .ori d xs imm, .addi d xs imm, .slli d xs sh,
        .srli d xs sh],
      ∃ t, execStmt st s = .next t ∧ faultOnly .undef none s.cfg.faultAdvancesPc s t) ∧
    (s.xW[xs] = false → ∀ st ∈ [Stmt.beqz xs label, .bnez xs label],
      ∃ t, execStmt st s = .next t ∧ faultOnly .undef none false s t) ∧
    (s.xW[xs] = true → 32 ≤ sh → ∀ st ∈ [Stmt.slli d xs sh, .srli d xs sh],
      ∃ t, execStmt st s = .next t ∧ refusalOnly .shift s.cfg.faultAdvancesPc s t)

/-- 47_host_script.md R226 and R231 to R235: a delay is recorded, branches, jump, halt and fail change the pc or the
task's status as their rules say, and nothing else changes; a pc that names no statement is refused (R221), a script
with a label that names none is refused before any step and starts at statement 0 otherwise (R231), and a task that does
not run takes no step. HALT and FAIL stop HOST, and so both its tasks. That each task has a pc, a script and a status of
its own is the model's (assumption log 25), and so is the loading of a script by loadTask (assumption log 13). -/
def Obligations.ControlStatementsMoveThePc : Prop :=
  ∀ (s : State) (xs : Fin 8) (label : Nat) (e : HostError),
    let elsewhere := fun (t : State) => sameBus s t ∧ sameNonce s t ∧ sameMarks s t ∧ sameRest s t ∧
      t.x = s.x ∧ t.xW = s.xW ∧ t.drawNo = s.drawNo
    let moves := fun (st : Stmt) (n : Nat) => ∃ t, execStmt st s = .next t ∧ pcAt n s t ∧ t.hist = s.hist ∧ elsewhere t
    let ends := fun (st : Stmt) (h : HostStatus) => ∃ t, execStmt st s = .next t ∧
      (∀ k, t.task k = { s.task k with status := h }) ∧ t.active = s.active ∧ t.hist = s.hist ∧ elsewhere t
    (s.xW[xs] = true →
      moves (.beqz xs label) (if s.x[xs] = 0 then label else s.pc + 1) ∧
      moves (.bnez xs label) (if s.x[xs] ≠ 0 then label else s.pc + 1)) ∧
    moves (.j label) label ∧
    ends .halt .halted ∧
    ends (.fail e) (.failed e) ∧
    (∀ n : Nat, ∃ t, execStmt (.delay n) s = .next t ∧ pcAt (s.pc + 1) s t ∧ t.hist = s.hist ++ [.delay n] ∧
      elsewhere t) ∧
    (s.host = .running → s.script.length ≤ s.pc → ∃ t, hostStep s = .next t ∧ refusalOnly .noStmt false s t) ∧
    (s.host ≠ .running → hostStep s = .next s) ∧
    (∀ (k : HostTask) (script : List Stmt),
      ((∃ st ∈ script, ∃ l, st.target = some l ∧ script.length ≤ l) →
        refusalOnly .noStmt false s (loadTask k script s)) ∧
      ((∀ st ∈ script, ∀ l, st.target = some l → l < script.length) →
        (loadTask k script s).task k = ⟨0, script, .running⟩ ∧ (loadTask k script s).hist = s.hist ∧
        (∀ k', k' ≠ k → (loadTask k script s).task k' = s.task k') ∧ elsewhere (loadTask k script s)))

/-- No step of TX, RX or WB changes HOST's registers or tasks (derived from 42_command_bus.md, 43_nonce_fifo.md and
20_memory.md: their rules write block state alone), and a step of one task of HOST leaves the other task's pc, script and
status, but that a HALT or a FAIL at the pc of a running task stops the other task with it. 60_exceptions.md R257 has HOST's steps come from either task; that each task has a pc, a script and a status of
its own, and that `active` names the one that moved, are the model's (assumption log 25). -/
def Obligations.OtherAgentsLeaveHostAlone : Prop :=
  ∀ s t : State, step s = .next t →
    ((∀ k, turnOf s ≠ .host k) → sameHost s t) ∧
    (∀ k, turnOf s = .host k → t.active = k ∧ ∀ k', k' ≠ k →
      t.task k' = s.task k' ∨ ((s.task k).status = .running ∧
        (((s.task k).script[(s.task k).pc]? = some .halt ∧ t.task k' = { s.task k' with status := .halted }) ∨
          ∃ e, (s.task k).script[(s.task k).pc]? = some (.fail e) ∧
            t.task k' = { s.task k' with status := .failed e })))

/-! ## Faults, reset and the whole machine -/

/-- 60_exceptions.md R240: raising a fault adds its kind to FAULT and its event to HIST and changes nothing else; the
set holds each kind once (R251), and the model's list of it stays in the order of the codes, which is the model's choice
(assumption log 20). -/
def Obligations.RaisingAFaultChangesOnlyTheRecord : Prop :=
  ∀ (s : State) (k : FaultKind) (off : Option Nat), faultOnly k off false s (s.raise k off) ∧
    (kindsInOrder s.faults → (s.raise k off).faults.Nodup ∧ kindsInOrder (s.raise k off).faults)

/-- 60_exceptions.md R240 and 10_state.md R34, R35: no step takes a kind from FAULT, clears REFUSED or removes an event
of HIST; and none changes the implementation parameters (00_scope.md R6). That no step changes the driver's records, which
only the driver's operations on HOST do, is the model's (assumption log 18). -/
def Obligations.FaultsAndHistoryOnlyGrow : Prop :=
  ∀ s t : State, step s = .next t → t.cfg = s.cfg ∧ t.driver = s.driver ∧
    (∀ k ∈ s.faults, k ∈ t.faults) ∧ (s.refused = true → t.refused = true) ∧ ∃ new, t.hist = s.hist ++ new

/-- 10_state.md R43 and 70_reset_and_hazards.md R270, the values the spec gives: the reset state for any parameters. -/
def Obligations.ResetValues : Prop :=
  ∀ p : Params, let s := State.resetWith p
    s.cmdReady = false ∧ (∀ k : Fin 3, s.cmdBufW[k] = false) ∧ s.nfQ = [] ∧ s.nfPhase = false ∧
    s.nonceTimeout = p.timeoutReset ∧ s.wq = [] ∧ s.hist = [] ∧ s.faults = [] ∧ s.refused = false ∧
    s.main.pc = 0 ∧ (∀ r : Fin 8, s.xW[r] = false)

/-- The invariant holds at reset, whatever the parameters. -/
def Obligations.ResetMeetsTheInvariant : Prop := ∀ p : Params, (State.resetWith p).Inv

/-- Every step keeps the invariant: a posted frame is sendable, the FIFO is within its depth, a half-read entry is still
queued, WQ names only the block, FAULT is a set, and FAULT and REFUSED agree with HIST. -/
def Obligations.EveryStepKeepsTheInvariant : Prop := ∀ s t : State, s.Inv → step s = .next t → t.Inv

/-- From a state of the invariant every step answers a next state: the block traps nothing and stops nowhere
(60_exceptions.md R240, R250). -/
def Obligations.NoStepStopsTheMachine : Prop := ∀ s : State, s.Inv → ∃ t, step s = .next t

/-- A step runs the decoded instruction: TX the frame the buffer's bytes spell, HOST the read its statement names, and
WB the write it takes, with that write's record after it; around them a step only uses up the turn and, for
HOST, takes the task the turn names. That a write that faults has its P recorded too is the model's reading (assumption
log 9). -/
def Obligations.StepRunsTheDecodedInstruction : Prop :=
  (∀ (s : State) (i : Instr), turnOf s = .tx → s.cmdReady = true → lengthByte s.cmdBuf ≤ 12 →
    decode s.cfg.layout .frame (postedBytes s.cmdBuf) = .ok i → step s = exec i (turnTaken s)) ∧
  (∀ (s : State) (k : HostTask) (r : BlockReg) (d : Fin 8), turnOf s = .host k → (s.task k).status = .running →
    (s.task k).script[(s.task k).pc]? = some (.rd d (regOffset s.cfg.layout r)) → s.wq = [] →
    step s = exec (readInstr r d) ((turnTaken s).activate k)) ∧
  (∀ (s t : State) (r : BlockReg) (v : Word) (rest : List Pending) (pick : Nat), turnOf s = .wb pick →
    chooseWrite s.cfg.strictOrder pick s.wq = some (⟨regOffset s.cfg.layout r, v⟩, rest) →
    exec (writeInstr r v) ((turnTaken s).setWq rest) = .next t →
    step s = .next (t.record (.performed (regOffset s.cfg.layout r) v)))

/-- An instruction placed by `withFetchWord` is what the next step runs: for every transaction, placed by its code and
operand in the machine's own layout, and for every frame. That a write that faults has its P recorded too, and that TX's
sending is a frame's execution, are the model's readings (assumption logs 9 and 1). -/
def Obligations.PlacedWordIsRunNext : Prop :=
  (∀ (s : State) (r : BlockReg) (v : Word),
    step (s.withFetchWord 16 (0x2000 + regOffset s.cfg.layout r + 0x10000 * v.toNat)) =
      onNext (State.record (.performed (regOffset s.cfg.layout r) v)) (exec (writeInstr r v) s)) ∧
  (∀ (s : State) (r : BlockReg) (d : Fin 8), ∃ t : State,
    step (s.withFetchWord 16 (regOffset s.cfg.layout r + 0x10000 * d.val)) = exec (readInstr r d) t ∧
      sameBus s t ∧ sameNonce s t ∧ t.x = s.x ∧ t.xW = s.xW ∧ t.hist = s.hist) ∧
  (∀ (s : State) (i : Instr), i.language = .frame → ∃ t : State,
    step (s.withFetchWord (8 * (frameBytes i).length) (numberUp (frameBytes i).reverse)) = exec i t ∧
      t.cmdReady = true ∧ t.cmdChain = s.cmdChain ∧ t.hist = s.hist ∧ sameNonce s t ∧ sameHost s t)

/-- 70_reset_and_hazards.md R292: in a weakly fair run a posted frame is sent: the bytes that were in the buffer, to the
chain the trigger named, as a new event. -/
def Obligations.PostedFrameIsEventuallySent : Prop :=
  ∀ σ : Nat → State, IsRun σ → WeaklyFair σ → ∀ n, (σ n).cmdReady = true →
    ∃ m, n < m ∧ (σ m).cmdReady = false ∧
      ∃ mid, (σ m).hist = (σ n).hist ++ mid ++ [.emit (σ n).cmdChain (postedBytes (σ n).cmdBuf)]

/-- 20_memory.md R61 and R62 with 70_reset_and_hazards.md R292: in a weakly fair run a task of HOST that stands at a
fence gets past it, where the other task takes no steps (assumption log 37 leaves open what holds where it does). What an
enabled step of HOST is follows assumption log 31. -/
def Obligations.FenceIsEventuallyPassed : Prop :=
  ∀ σ : Nat → State, IsRun σ → WeaklyFair σ → ∀ (n : Nat) (k : HostTask), ((σ n).task k).status = .running →
    ((σ n).task k).script[((σ n).task k).pc]? = some .fence →
    (∀ k', k' ≠ k → ((σ n).task k').status ≠ .running) →
    ∃ m, n < m ∧ ((σ m).task k).pc = ((σ n).task k).pc + 1 ∧ ∃ mid, (σ m).hist = (σ n).hist ++ mid ++ [.fence]
end

