-- ==== Sys2Proof/Laws/State.lean ====
section
/-! SUPPORT. One lemma per field per update: what each operation of Machine/Ops.lean and Machine/Flags.lean makes
of every field of the state. -/

namespace Sys2Proof.Machine

@[simp] theorem State.record_cfg (e : Event) (s : State) : (s.record e).cfg = s.cfg := rfl
@[simp] theorem State.record_cmdBuf (e : Event) (s : State) : (s.record e).cmdBuf = s.cmdBuf := rfl
@[simp] theorem State.record_cmdBufW (e : Event) (s : State) : (s.record e).cmdBufW = s.cmdBufW := rfl
@[simp] theorem State.record_cmdReady (e : Event) (s : State) : (s.record e).cmdReady = s.cmdReady := rfl
@[simp] theorem State.record_cmdChain (e : Event) (s : State) : (s.record e).cmdChain = s.cmdChain := rfl
@[simp] theorem State.record_nfQ (e : Event) (s : State) : (s.record e).nfQ = s.nfQ := rfl
@[simp] theorem State.record_nfPhase (e : Event) (s : State) : (s.record e).nfPhase = s.nfPhase := rfl
@[simp] theorem State.record_nonceTimeout (e : Event) (s : State) : (s.record e).nonceTimeout = s.nonceTimeout := rfl
@[simp] theorem State.record_wq (e : Event) (s : State) : (s.record e).wq = s.wq := rfl
@[simp] theorem State.record_hist (e : Event) (s : State) : (s.record e).hist = s.hist ++ [e] := rfl
@[simp] theorem State.record_faults (e : Event) (s : State) : (s.record e).faults = s.faults := rfl
@[simp] theorem State.record_refused (e : Event) (s : State) : (s.record e).refused = s.refused := rfl
@[simp] theorem State.record_x (e : Event) (s : State) : (s.record e).x = s.x := rfl
@[simp] theorem State.record_xW (e : Event) (s : State) : (s.record e).xW = s.xW := rfl
@[simp] theorem State.record_active (e : Event) (s : State) : (s.record e).active = s.active := rfl
@[simp] theorem State.record_driver (e : Event) (s : State) : (s.record e).driver = s.driver := rfl
@[simp] theorem State.record_drawNo (e : Event) (s : State) : (s.record e).drawNo = s.drawNo := rfl
@[simp] theorem State.record_turnNo (e : Event) (s : State) : (s.record e).turnNo = s.turnNo := rfl
@[simp] theorem State.record_agenda (e : Event) (s : State) : (s.record e).agenda = s.agenda := rfl
@[simp] theorem State.record_main (e : Event) (s : State) : (s.record e).main = s.main := rfl
@[simp] theorem State.record_drainer (e : Event) (s : State) : (s.record e).drainer = s.drainer := rfl
@[simp] theorem State.record_pc (e : Event) (s : State) : (s.record e).pc = s.pc := rfl
@[simp] theorem State.record_script (e : Event) (s : State) : (s.record e).script = s.script := rfl
@[simp] theorem State.record_host (e : Event) (s : State) : (s.record e).host = s.host := rfl
@[simp] theorem State.record_task (e : Event) (s : State) (k' : HostTask) : (s.record e).task k' = s.task k' := rfl

@[simp] theorem State.raise_cfg (k : FaultKind) (off : Option Nat) (s : State) : (s.raise k off).cfg = s.cfg := rfl
@[simp] theorem State.raise_cmdBuf (k : FaultKind) (off : Option Nat) (s : State) : (s.raise k off).cmdBuf = s.cmdBuf := rfl
@[simp] theorem State.raise_cmdBufW (k : FaultKind) (off : Option Nat) (s : State) : (s.raise k off).cmdBufW = s.cmdBufW := rfl
@[simp] theorem State.raise_cmdReady (k : FaultKind) (off : Option Nat) (s : State) : (s.raise k off).cmdReady = s.cmdReady := rfl
@[simp] theorem State.raise_cmdChain (k : FaultKind) (off : Option Nat) (s : State) : (s.raise k off).cmdChain = s.cmdChain := rfl
@[simp] theorem State.raise_nfQ (k : FaultKind) (off : Option Nat) (s : State) : (s.raise k off).nfQ = s.nfQ := rfl
@[simp] theorem State.raise_nfPhase (k : FaultKind) (off : Option Nat) (s : State) : (s.raise k off).nfPhase = s.nfPhase := rfl
@[simp] theorem State.raise_nonceTimeout (k : FaultKind) (off : Option Nat) (s : State) : (s.raise k off).nonceTimeout = s.nonceTimeout := rfl
@[simp] theorem State.raise_wq (k : FaultKind) (off : Option Nat) (s : State) : (s.raise k off).wq = s.wq := rfl
@[simp] theorem State.raise_hist (k : FaultKind) (off : Option Nat) (s : State) : (s.raise k off).hist = s.hist ++ [.fault k off] := rfl
@[simp] theorem State.raise_faults (k : FaultKind) (off : Option Nat) (s : State) : (s.raise k off).faults = insertKind k s.faults := rfl
@[simp] theorem State.raise_refused (k : FaultKind) (off : Option Nat) (s : State) : (s.raise k off).refused = s.refused := rfl
@[simp] theorem State.raise_x (k : FaultKind) (off : Option Nat) (s : State) : (s.raise k off).x = s.x := rfl
@[simp] theorem State.raise_xW (k : FaultKind) (off : Option Nat) (s : State) : (s.raise k off).xW = s.xW := rfl
@[simp] theorem State.raise_active (k : FaultKind) (off : Option Nat) (s : State) : (s.raise k off).active = s.active := rfl
@[simp] theorem State.raise_driver (k : FaultKind) (off : Option Nat) (s : State) : (s.raise k off).driver = s.driver := rfl
@[simp] theorem State.raise_drawNo (k : FaultKind) (off : Option Nat) (s : State) : (s.raise k off).drawNo = s.drawNo := rfl
@[simp] theorem State.raise_turnNo (k : FaultKind) (off : Option Nat) (s : State) : (s.raise k off).turnNo = s.turnNo := rfl
@[simp] theorem State.raise_agenda (k : FaultKind) (off : Option Nat) (s : State) : (s.raise k off).agenda = s.agenda := rfl
@[simp] theorem State.raise_main (k : FaultKind) (off : Option Nat) (s : State) : (s.raise k off).main = s.main := rfl
@[simp] theorem State.raise_drainer (k : FaultKind) (off : Option Nat) (s : State) : (s.raise k off).drainer = s.drainer := rfl
@[simp] theorem State.raise_pc (k : FaultKind) (off : Option Nat) (s : State) : (s.raise k off).pc = s.pc := rfl
@[simp] theorem State.raise_script (k : FaultKind) (off : Option Nat) (s : State) : (s.raise k off).script = s.script := rfl
@[simp] theorem State.raise_host (k : FaultKind) (off : Option Nat) (s : State) : (s.raise k off).host = s.host := rfl
@[simp] theorem State.raise_task (k : FaultKind) (off : Option Nat) (s : State) (k' : HostTask) : (s.raise k off).task k' = s.task k' := rfl

@[simp] theorem State.refuse_cfg (r : RefusalReason) (s : State) : (s.refuse r).cfg = s.cfg := rfl
@[simp] theorem State.refuse_cmdBuf (r : RefusalReason) (s : State) : (s.refuse r).cmdBuf = s.cmdBuf := rfl
@[simp] theorem State.refuse_cmdBufW (r : RefusalReason) (s : State) : (s.refuse r).cmdBufW = s.cmdBufW := rfl
@[simp] theorem State.refuse_cmdReady (r : RefusalReason) (s : State) : (s.refuse r).cmdReady = s.cmdReady := rfl
@[simp] theorem State.refuse_cmdChain (r : RefusalReason) (s : State) : (s.refuse r).cmdChain = s.cmdChain := rfl
@[simp] theorem State.refuse_nfQ (r : RefusalReason) (s : State) : (s.refuse r).nfQ = s.nfQ := rfl
@[simp] theorem State.refuse_nfPhase (r : RefusalReason) (s : State) : (s.refuse r).nfPhase = s.nfPhase := rfl
@[simp] theorem State.refuse_nonceTimeout (r : RefusalReason) (s : State) : (s.refuse r).nonceTimeout = s.nonceTimeout := rfl
@[simp] theorem State.refuse_wq (r : RefusalReason) (s : State) : (s.refuse r).wq = s.wq := rfl
@[simp] theorem State.refuse_hist (r : RefusalReason) (s : State) : (s.refuse r).hist = s.hist ++ [.refuse r] := rfl
@[simp] theorem State.refuse_faults (r : RefusalReason) (s : State) : (s.refuse r).faults = s.faults := rfl
@[simp] theorem State.refuse_refused (r : RefusalReason) (s : State) : (s.refuse r).refused = true := rfl
@[simp] theorem State.refuse_x (r : RefusalReason) (s : State) : (s.refuse r).x = s.x := rfl
@[simp] theorem State.refuse_xW (r : RefusalReason) (s : State) : (s.refuse r).xW = s.xW := rfl
@[simp] theorem State.refuse_active (r : RefusalReason) (s : State) : (s.refuse r).active = s.active := rfl
@[simp] theorem State.refuse_driver (r : RefusalReason) (s : State) : (s.refuse r).driver = s.driver := rfl
@[simp] theorem State.refuse_drawNo (r : RefusalReason) (s : State) : (s.refuse r).drawNo = s.drawNo := rfl
@[simp] theorem State.refuse_turnNo (r : RefusalReason) (s : State) : (s.refuse r).turnNo = s.turnNo := rfl
@[simp] theorem State.refuse_agenda (r : RefusalReason) (s : State) : (s.refuse r).agenda = s.agenda := rfl
@[simp] theorem State.refuse_main (r : RefusalReason) (s : State) : (s.refuse r).main = s.main := rfl
@[simp] theorem State.refuse_drainer (r : RefusalReason) (s : State) : (s.refuse r).drainer = s.drainer := rfl
@[simp] theorem State.refuse_pc (r : RefusalReason) (s : State) : (s.refuse r).pc = s.pc := rfl
@[simp] theorem State.refuse_script (r : RefusalReason) (s : State) : (s.refuse r).script = s.script := rfl
@[simp] theorem State.refuse_host (r : RefusalReason) (s : State) : (s.refuse r).host = s.host := rfl
@[simp] theorem State.refuse_task (r : RefusalReason) (s : State) (k' : HostTask) : (s.refuse r).task k' = s.task k' := rfl

@[simp] theorem State.drawn_cfg (v : Word) (s : State) : (s.drawn v).cfg = s.cfg := rfl
@[simp] theorem State.drawn_cmdBuf (v : Word) (s : State) : (s.drawn v).cmdBuf = s.cmdBuf := rfl
@[simp] theorem State.drawn_cmdBufW (v : Word) (s : State) : (s.drawn v).cmdBufW = s.cmdBufW := rfl
@[simp] theorem State.drawn_cmdReady (v : Word) (s : State) : (s.drawn v).cmdReady = s.cmdReady := rfl
@[simp] theorem State.drawn_cmdChain (v : Word) (s : State) : (s.drawn v).cmdChain = s.cmdChain := rfl
@[simp] theorem State.drawn_nfQ (v : Word) (s : State) : (s.drawn v).nfQ = s.nfQ := rfl
@[simp] theorem State.drawn_nfPhase (v : Word) (s : State) : (s.drawn v).nfPhase = s.nfPhase := rfl
@[simp] theorem State.drawn_nonceTimeout (v : Word) (s : State) : (s.drawn v).nonceTimeout = s.nonceTimeout := rfl
@[simp] theorem State.drawn_wq (v : Word) (s : State) : (s.drawn v).wq = s.wq := rfl
@[simp] theorem State.drawn_hist (v : Word) (s : State) : (s.drawn v).hist = s.hist ++ [.draw v] := rfl
@[simp] theorem State.drawn_faults (v : Word) (s : State) : (s.drawn v).faults = s.faults := rfl
@[simp] theorem State.drawn_refused (v : Word) (s : State) : (s.drawn v).refused = s.refused := rfl
@[simp] theorem State.drawn_x (v : Word) (s : State) : (s.drawn v).x = s.x := rfl
@[simp] theorem State.drawn_xW (v : Word) (s : State) : (s.drawn v).xW = s.xW := rfl
@[simp] theorem State.drawn_active (v : Word) (s : State) : (s.drawn v).active = s.active := rfl
@[simp] theorem State.drawn_driver (v : Word) (s : State) : (s.drawn v).driver = s.driver := rfl
@[simp] theorem State.drawn_drawNo (v : Word) (s : State) : (s.drawn v).drawNo = s.drawNo + 1 := rfl
@[simp] theorem State.drawn_turnNo (v : Word) (s : State) : (s.drawn v).turnNo = s.turnNo := rfl
@[simp] theorem State.drawn_agenda (v : Word) (s : State) : (s.drawn v).agenda = s.agenda := rfl
@[simp] theorem State.drawn_main (v : Word) (s : State) : (s.drawn v).main = s.main := rfl
@[simp] theorem State.drawn_drainer (v : Word) (s : State) : (s.drawn v).drainer = s.drainer := rfl
@[simp] theorem State.drawn_pc (v : Word) (s : State) : (s.drawn v).pc = s.pc := rfl
@[simp] theorem State.drawn_script (v : Word) (s : State) : (s.drawn v).script = s.script := rfl
@[simp] theorem State.drawn_host (v : Word) (s : State) : (s.drawn v).host = s.host := rfl
@[simp] theorem State.drawn_task (v : Word) (s : State) (k' : HostTask) : (s.drawn v).task k' = s.task k' := rfl

@[simp] theorem State.afterDraw_cfg (s : State) : (s.afterDraw).cfg = s.cfg := rfl
@[simp] theorem State.afterDraw_cmdBuf (s : State) : (s.afterDraw).cmdBuf = s.cmdBuf := rfl
@[simp] theorem State.afterDraw_cmdBufW (s : State) : (s.afterDraw).cmdBufW = s.cmdBufW := rfl
@[simp] theorem State.afterDraw_cmdReady (s : State) : (s.afterDraw).cmdReady = s.cmdReady := rfl
@[simp] theorem State.afterDraw_cmdChain (s : State) : (s.afterDraw).cmdChain = s.cmdChain := rfl
@[simp] theorem State.afterDraw_nfQ (s : State) : (s.afterDraw).nfQ = s.nfQ := rfl
@[simp] theorem State.afterDraw_nfPhase (s : State) : (s.afterDraw).nfPhase = s.nfPhase := rfl
@[simp] theorem State.afterDraw_nonceTimeout (s : State) : (s.afterDraw).nonceTimeout = s.nonceTimeout := rfl
@[simp] theorem State.afterDraw_wq (s : State) : (s.afterDraw).wq = s.wq := rfl
@[simp] theorem State.afterDraw_hist (s : State) : (s.afterDraw).hist = s.hist ++ [.draw s.nextDraw] := rfl
@[simp] theorem State.afterDraw_faults (s : State) : (s.afterDraw).faults = s.faults := rfl
@[simp] theorem State.afterDraw_refused (s : State) : (s.afterDraw).refused = s.refused := rfl
@[simp] theorem State.afterDraw_x (s : State) : (s.afterDraw).x = s.x := rfl
@[simp] theorem State.afterDraw_xW (s : State) : (s.afterDraw).xW = s.xW := rfl
@[simp] theorem State.afterDraw_active (s : State) : (s.afterDraw).active = s.active := rfl
@[simp] theorem State.afterDraw_driver (s : State) : (s.afterDraw).driver = s.driver := rfl
@[simp] theorem State.afterDraw_drawNo (s : State) : (s.afterDraw).drawNo = s.drawNo + 1 := rfl
@[simp] theorem State.afterDraw_turnNo (s : State) : (s.afterDraw).turnNo = s.turnNo := rfl
@[simp] theorem State.afterDraw_agenda (s : State) : (s.afterDraw).agenda = s.agenda := rfl
@[simp] theorem State.afterDraw_main (s : State) : (s.afterDraw).main = s.main := rfl
@[simp] theorem State.afterDraw_drainer (s : State) : (s.afterDraw).drainer = s.drainer := rfl
@[simp] theorem State.afterDraw_pc (s : State) : (s.afterDraw).pc = s.pc := rfl
@[simp] theorem State.afterDraw_script (s : State) : (s.afterDraw).script = s.script := rfl
@[simp] theorem State.afterDraw_host (s : State) : (s.afterDraw).host = s.host := rfl
@[simp] theorem State.afterDraw_task (s : State) (k' : HostTask) : (s.afterDraw).task k' = s.task k' := rfl

@[simp] theorem State.writeX_cfg (d : Fin 8) (v : Word) (s : State) : (s.writeX d v).cfg = s.cfg := rfl
@[simp] theorem State.writeX_cmdBuf (d : Fin 8) (v : Word) (s : State) : (s.writeX d v).cmdBuf = s.cmdBuf := rfl
@[simp] theorem State.writeX_cmdBufW (d : Fin 8) (v : Word) (s : State) : (s.writeX d v).cmdBufW = s.cmdBufW := rfl
@[simp] theorem State.writeX_cmdReady (d : Fin 8) (v : Word) (s : State) : (s.writeX d v).cmdReady = s.cmdReady := rfl
@[simp] theorem State.writeX_cmdChain (d : Fin 8) (v : Word) (s : State) : (s.writeX d v).cmdChain = s.cmdChain := rfl
@[simp] theorem State.writeX_nfQ (d : Fin 8) (v : Word) (s : State) : (s.writeX d v).nfQ = s.nfQ := rfl
@[simp] theorem State.writeX_nfPhase (d : Fin 8) (v : Word) (s : State) : (s.writeX d v).nfPhase = s.nfPhase := rfl
@[simp] theorem State.writeX_nonceTimeout (d : Fin 8) (v : Word) (s : State) : (s.writeX d v).nonceTimeout = s.nonceTimeout := rfl
@[simp] theorem State.writeX_wq (d : Fin 8) (v : Word) (s : State) : (s.writeX d v).wq = s.wq := rfl
@[simp] theorem State.writeX_hist (d : Fin 8) (v : Word) (s : State) : (s.writeX d v).hist = s.hist := rfl
@[simp] theorem State.writeX_faults (d : Fin 8) (v : Word) (s : State) : (s.writeX d v).faults = s.faults := rfl
@[simp] theorem State.writeX_refused (d : Fin 8) (v : Word) (s : State) : (s.writeX d v).refused = s.refused := rfl
@[simp] theorem State.writeX_x (d : Fin 8) (v : Word) (s : State) : (s.writeX d v).x = s.x.set d v := rfl
@[simp] theorem State.writeX_xW (d : Fin 8) (v : Word) (s : State) : (s.writeX d v).xW = s.xW.set d true := rfl
@[simp] theorem State.writeX_active (d : Fin 8) (v : Word) (s : State) : (s.writeX d v).active = s.active := rfl
@[simp] theorem State.writeX_driver (d : Fin 8) (v : Word) (s : State) : (s.writeX d v).driver = s.driver := rfl
@[simp] theorem State.writeX_drawNo (d : Fin 8) (v : Word) (s : State) : (s.writeX d v).drawNo = s.drawNo := rfl
@[simp] theorem State.writeX_turnNo (d : Fin 8) (v : Word) (s : State) : (s.writeX d v).turnNo = s.turnNo := rfl
@[simp] theorem State.writeX_agenda (d : Fin 8) (v : Word) (s : State) : (s.writeX d v).agenda = s.agenda := rfl
@[simp] theorem State.writeX_main (d : Fin 8) (v : Word) (s : State) : (s.writeX d v).main = s.main := rfl
@[simp] theorem State.writeX_drainer (d : Fin 8) (v : Word) (s : State) : (s.writeX d v).drainer = s.drainer := rfl
@[simp] theorem State.writeX_pc (d : Fin 8) (v : Word) (s : State) : (s.writeX d v).pc = s.pc := rfl
@[simp] theorem State.writeX_script (d : Fin 8) (v : Word) (s : State) : (s.writeX d v).script = s.script := rfl
@[simp] theorem State.writeX_host (d : Fin 8) (v : Word) (s : State) : (s.writeX d v).host = s.host := rfl
@[simp] theorem State.writeX_task (d : Fin 8) (v : Word) (s : State) (k' : HostTask) : (s.writeX d v).task k' = s.task k' := rfl

@[simp] theorem State.setTask_cfg (j : HostTask) (t : Task) (s : State) : (s.setTask j t).cfg = s.cfg := rfl
@[simp] theorem State.setTask_cmdBuf (j : HostTask) (t : Task) (s : State) : (s.setTask j t).cmdBuf = s.cmdBuf := rfl
@[simp] theorem State.setTask_cmdBufW (j : HostTask) (t : Task) (s : State) : (s.setTask j t).cmdBufW = s.cmdBufW := rfl
@[simp] theorem State.setTask_cmdReady (j : HostTask) (t : Task) (s : State) : (s.setTask j t).cmdReady = s.cmdReady := rfl
@[simp] theorem State.setTask_cmdChain (j : HostTask) (t : Task) (s : State) : (s.setTask j t).cmdChain = s.cmdChain := rfl
@[simp] theorem State.setTask_nfQ (j : HostTask) (t : Task) (s : State) : (s.setTask j t).nfQ = s.nfQ := rfl
@[simp] theorem State.setTask_nfPhase (j : HostTask) (t : Task) (s : State) : (s.setTask j t).nfPhase = s.nfPhase := rfl
@[simp] theorem State.setTask_nonceTimeout (j : HostTask) (t : Task) (s : State) : (s.setTask j t).nonceTimeout = s.nonceTimeout := rfl
@[simp] theorem State.setTask_wq (j : HostTask) (t : Task) (s : State) : (s.setTask j t).wq = s.wq := rfl
@[simp] theorem State.setTask_hist (j : HostTask) (t : Task) (s : State) : (s.setTask j t).hist = s.hist := rfl
@[simp] theorem State.setTask_faults (j : HostTask) (t : Task) (s : State) : (s.setTask j t).faults = s.faults := rfl
@[simp] theorem State.setTask_refused (j : HostTask) (t : Task) (s : State) : (s.setTask j t).refused = s.refused := rfl
@[simp] theorem State.setTask_x (j : HostTask) (t : Task) (s : State) : (s.setTask j t).x = s.x := rfl
@[simp] theorem State.setTask_xW (j : HostTask) (t : Task) (s : State) : (s.setTask j t).xW = s.xW := rfl
@[simp] theorem State.setTask_active (j : HostTask) (t : Task) (s : State) : (s.setTask j t).active = s.active := rfl
@[simp] theorem State.setTask_driver (j : HostTask) (t : Task) (s : State) : (s.setTask j t).driver = s.driver := rfl
@[simp] theorem State.setTask_drawNo (j : HostTask) (t : Task) (s : State) : (s.setTask j t).drawNo = s.drawNo := rfl
@[simp] theorem State.setTask_turnNo (j : HostTask) (t : Task) (s : State) : (s.setTask j t).turnNo = s.turnNo := rfl
@[simp] theorem State.setTask_agenda (j : HostTask) (t : Task) (s : State) : (s.setTask j t).agenda = s.agenda := rfl
@[simp] theorem State.setTask_task (j : HostTask) (t : Task) (s : State) (k : HostTask) :
    (s.setTask j t).task k = if k = j then t else s.task k := by cases k <;> cases j <;> rfl

@[simp] theorem State.setPc_cfg (n : Nat) (s : State) : (s.setPc n).cfg = s.cfg := rfl
@[simp] theorem State.setPc_cmdBuf (n : Nat) (s : State) : (s.setPc n).cmdBuf = s.cmdBuf := rfl
@[simp] theorem State.setPc_cmdBufW (n : Nat) (s : State) : (s.setPc n).cmdBufW = s.cmdBufW := rfl
@[simp] theorem State.setPc_cmdReady (n : Nat) (s : State) : (s.setPc n).cmdReady = s.cmdReady := rfl
@[simp] theorem State.setPc_cmdChain (n : Nat) (s : State) : (s.setPc n).cmdChain = s.cmdChain := rfl
@[simp] theorem State.setPc_nfQ (n : Nat) (s : State) : (s.setPc n).nfQ = s.nfQ := rfl
@[simp] theorem State.setPc_nfPhase (n : Nat) (s : State) : (s.setPc n).nfPhase = s.nfPhase := rfl
@[simp] theorem State.setPc_nonceTimeout (n : Nat) (s : State) : (s.setPc n).nonceTimeout = s.nonceTimeout := rfl
@[simp] theorem State.setPc_wq (n : Nat) (s : State) : (s.setPc n).wq = s.wq := rfl
@[simp] theorem State.setPc_hist (n : Nat) (s : State) : (s.setPc n).hist = s.hist := rfl
@[simp] theorem State.setPc_faults (n : Nat) (s : State) : (s.setPc n).faults = s.faults := rfl
@[simp] theorem State.setPc_refused (n : Nat) (s : State) : (s.setPc n).refused = s.refused := rfl
@[simp] theorem State.setPc_x (n : Nat) (s : State) : (s.setPc n).x = s.x := rfl
@[simp] theorem State.setPc_xW (n : Nat) (s : State) : (s.setPc n).xW = s.xW := rfl
@[simp] theorem State.setPc_active (n : Nat) (s : State) : (s.setPc n).active = s.active := rfl
@[simp] theorem State.setPc_driver (n : Nat) (s : State) : (s.setPc n).driver = s.driver := rfl
@[simp] theorem State.setPc_drawNo (n : Nat) (s : State) : (s.setPc n).drawNo = s.drawNo := rfl
@[simp] theorem State.setPc_turnNo (n : Nat) (s : State) : (s.setPc n).turnNo = s.turnNo := rfl
@[simp] theorem State.setPc_agenda (n : Nat) (s : State) : (s.setPc n).agenda = s.agenda := rfl
@[simp] theorem State.setPc_pc (n : Nat) (s : State) : (s.setPc n).pc = n := by simp [State.setPc, State.pc, State.current]
@[simp] theorem State.setPc_script (n : Nat) (s : State) : (s.setPc n).script = s.script := by simp [State.setPc, State.script, State.current]
@[simp] theorem State.setPc_host (n : Nat) (s : State) : (s.setPc n).host = s.host := by simp [State.setPc, State.host, State.current]
@[simp] theorem State.setPc_task (n : Nat) (s : State) (k' : HostTask) : (s.setPc n).task k' =
    if k' = s.active then { s.current with pc := n } else s.task k' := by
  simp [State.setPc]

@[simp] theorem State.setHost_cfg (st : HostStatus) (s : State) : (s.setHost st).cfg = s.cfg := rfl
@[simp] theorem State.setHost_cmdBuf (st : HostStatus) (s : State) : (s.setHost st).cmdBuf = s.cmdBuf := rfl
@[simp] theorem State.setHost_cmdBufW (st : HostStatus) (s : State) : (s.setHost st).cmdBufW = s.cmdBufW := rfl
@[simp] theorem State.setHost_cmdReady (st : HostStatus) (s : State) : (s.setHost st).cmdReady = s.cmdReady := rfl
@[simp] theorem State.setHost_cmdChain (st : HostStatus) (s : State) : (s.setHost st).cmdChain = s.cmdChain := rfl
@[simp] theorem State.setHost_nfQ (st : HostStatus) (s : State) : (s.setHost st).nfQ = s.nfQ := rfl
@[simp] theorem State.setHost_nfPhase (st : HostStatus) (s : State) : (s.setHost st).nfPhase = s.nfPhase := rfl
@[simp] theorem State.setHost_nonceTimeout (st : HostStatus) (s : State) : (s.setHost st).nonceTimeout = s.nonceTimeout := rfl
@[simp] theorem State.setHost_wq (st : HostStatus) (s : State) : (s.setHost st).wq = s.wq := rfl
@[simp] theorem State.setHost_hist (st : HostStatus) (s : State) : (s.setHost st).hist = s.hist := rfl
@[simp] theorem State.setHost_faults (st : HostStatus) (s : State) : (s.setHost st).faults = s.faults := rfl
@[simp] theorem State.setHost_refused (st : HostStatus) (s : State) : (s.setHost st).refused = s.refused := rfl
@[simp] theorem State.setHost_x (st : HostStatus) (s : State) : (s.setHost st).x = s.x := rfl
@[simp] theorem State.setHost_xW (st : HostStatus) (s : State) : (s.setHost st).xW = s.xW := rfl
@[simp] theorem State.setHost_active (st : HostStatus) (s : State) : (s.setHost st).active = s.active := rfl
@[simp] theorem State.setHost_driver (st : HostStatus) (s : State) : (s.setHost st).driver = s.driver := rfl
@[simp] theorem State.setHost_drawNo (st : HostStatus) (s : State) : (s.setHost st).drawNo = s.drawNo := rfl
@[simp] theorem State.setHost_turnNo (st : HostStatus) (s : State) : (s.setHost st).turnNo = s.turnNo := rfl
@[simp] theorem State.setHost_agenda (st : HostStatus) (s : State) : (s.setHost st).agenda = s.agenda := rfl
@[simp] theorem State.setHost_main (st : HostStatus) (s : State) : (s.setHost st).main = { s.main with status := st } := rfl
@[simp] theorem State.setHost_drainer (st : HostStatus) (s : State) : (s.setHost st).drainer = { s.drainer with status := st } := rfl
@[simp] theorem State.setHost_pc (st : HostStatus) (s : State) : (s.setHost st).pc = s.pc := by
  cases h : s.active <;> simp [State.setHost, State.pc, State.current, State.task, h]
@[simp] theorem State.setHost_script (st : HostStatus) (s : State) : (s.setHost st).script = s.script := by
  cases h : s.active <;> simp [State.setHost, State.script, State.current, State.task, h]
@[simp] theorem State.setHost_host (st : HostStatus) (s : State) : (s.setHost st).host = st := by
  cases h : s.active <;> simp [State.setHost, State.host, State.current, State.task, h]
@[simp] theorem State.setHost_task (st : HostStatus) (s : State) (k' : HostTask) :
    (s.setHost st).task k' = { s.task k' with status := st } := by cases k' <;> rfl

@[simp] theorem State.activate_cfg (j : HostTask) (s : State) : (s.activate j).cfg = s.cfg := rfl
@[simp] theorem State.activate_cmdBuf (j : HostTask) (s : State) : (s.activate j).cmdBuf = s.cmdBuf := rfl
@[simp] theorem State.activate_cmdBufW (j : HostTask) (s : State) : (s.activate j).cmdBufW = s.cmdBufW := rfl
@[simp] theorem State.activate_cmdReady (j : HostTask) (s : State) : (s.activate j).cmdReady = s.cmdReady := rfl
@[simp] theorem State.activate_cmdChain (j : HostTask) (s : State) : (s.activate j).cmdChain = s.cmdChain := rfl
@[simp] theorem State.activate_nfQ (j : HostTask) (s : State) : (s.activate j).nfQ = s.nfQ := rfl
@[simp] theorem State.activate_nfPhase (j : HostTask) (s : State) : (s.activate j).nfPhase = s.nfPhase := rfl
@[simp] theorem State.activate_nonceTimeout (j : HostTask) (s : State) : (s.activate j).nonceTimeout = s.nonceTimeout := rfl
@[simp] theorem State.activate_wq (j : HostTask) (s : State) : (s.activate j).wq = s.wq := rfl
@[simp] theorem State.activate_hist (j : HostTask) (s : State) : (s.activate j).hist = s.hist := rfl
@[simp] theorem State.activate_faults (j : HostTask) (s : State) : (s.activate j).faults = s.faults := rfl
@[simp] theorem State.activate_refused (j : HostTask) (s : State) : (s.activate j).refused = s.refused := rfl
@[simp] theorem State.activate_x (j : HostTask) (s : State) : (s.activate j).x = s.x := rfl
@[simp] theorem State.activate_xW (j : HostTask) (s : State) : (s.activate j).xW = s.xW := rfl
@[simp] theorem State.activate_active (j : HostTask) (s : State) : (s.activate j).active = j := rfl
@[simp] theorem State.activate_driver (j : HostTask) (s : State) : (s.activate j).driver = s.driver := rfl
@[simp] theorem State.activate_drawNo (j : HostTask) (s : State) : (s.activate j).drawNo = s.drawNo := rfl
@[simp] theorem State.activate_turnNo (j : HostTask) (s : State) : (s.activate j).turnNo = s.turnNo := rfl
@[simp] theorem State.activate_agenda (j : HostTask) (s : State) : (s.activate j).agenda = s.agenda := rfl
@[simp] theorem State.activate_main (j : HostTask) (s : State) : (s.activate j).main = s.main := rfl
@[simp] theorem State.activate_drainer (j : HostTask) (s : State) : (s.activate j).drainer = s.drainer := rfl
@[simp] theorem State.activate_pc (j : HostTask) (s : State) : (s.activate j).pc = (s.task j).pc := rfl
@[simp] theorem State.activate_script (j : HostTask) (s : State) : (s.activate j).script = (s.task j).script := rfl
@[simp] theorem State.activate_host (j : HostTask) (s : State) : (s.activate j).host = (s.task j).status := rfl
@[simp] theorem State.activate_task (j : HostTask) (s : State) (k' : HostTask) : (s.activate j).task k' = s.task k' := rfl

@[simp] theorem State.nextPc_cfg (s : State) : (s.nextPc).cfg = s.cfg := rfl
@[simp] theorem State.nextPc_cmdBuf (s : State) : (s.nextPc).cmdBuf = s.cmdBuf := rfl
@[simp] theorem State.nextPc_cmdBufW (s : State) : (s.nextPc).cmdBufW = s.cmdBufW := rfl
@[simp] theorem State.nextPc_cmdReady (s : State) : (s.nextPc).cmdReady = s.cmdReady := rfl
@[simp] theorem State.nextPc_cmdChain (s : State) : (s.nextPc).cmdChain = s.cmdChain := rfl
@[simp] theorem State.nextPc_nfQ (s : State) : (s.nextPc).nfQ = s.nfQ := rfl
@[simp] theorem State.nextPc_nfPhase (s : State) : (s.nextPc).nfPhase = s.nfPhase := rfl
@[simp] theorem State.nextPc_nonceTimeout (s : State) : (s.nextPc).nonceTimeout = s.nonceTimeout := rfl
@[simp] theorem State.nextPc_wq (s : State) : (s.nextPc).wq = s.wq := rfl
@[simp] theorem State.nextPc_hist (s : State) : (s.nextPc).hist = s.hist := rfl
@[simp] theorem State.nextPc_faults (s : State) : (s.nextPc).faults = s.faults := rfl
@[simp] theorem State.nextPc_refused (s : State) : (s.nextPc).refused = s.refused := rfl
@[simp] theorem State.nextPc_x (s : State) : (s.nextPc).x = s.x := rfl
@[simp] theorem State.nextPc_xW (s : State) : (s.nextPc).xW = s.xW := rfl
@[simp] theorem State.nextPc_active (s : State) : (s.nextPc).active = s.active := rfl
@[simp] theorem State.nextPc_driver (s : State) : (s.nextPc).driver = s.driver := rfl
@[simp] theorem State.nextPc_drawNo (s : State) : (s.nextPc).drawNo = s.drawNo := rfl
@[simp] theorem State.nextPc_turnNo (s : State) : (s.nextPc).turnNo = s.turnNo := rfl
@[simp] theorem State.nextPc_agenda (s : State) : (s.nextPc).agenda = s.agenda := rfl
@[simp] theorem State.nextPc_pc (s : State) : (s.nextPc).pc = s.pc + 1 := by simp [State.nextPc]
@[simp] theorem State.nextPc_script (s : State) : (s.nextPc).script = s.script := by simp [State.nextPc]
@[simp] theorem State.nextPc_host (s : State) : (s.nextPc).host = s.host := by simp [State.nextPc]
@[simp] theorem State.nextPc_task (s : State) (k' : HostTask) : (s.nextPc).task k' =
    if k' = s.active then { s.current with pc := s.pc + 1 } else s.task k' := by
  simp [State.nextPc]

@[simp] theorem State.pastFault_cfg (s : State) : (s.pastFault).cfg = s.cfg := by unfold State.pastFault; split <;> simp
@[simp] theorem State.pastFault_cmdBuf (s : State) : (s.pastFault).cmdBuf = s.cmdBuf := by unfold State.pastFault; split <;> simp
@[simp] theorem State.pastFault_cmdBufW (s : State) : (s.pastFault).cmdBufW = s.cmdBufW := by unfold State.pastFault; split <;> simp
@[simp] theorem State.pastFault_cmdReady (s : State) : (s.pastFault).cmdReady = s.cmdReady := by unfold State.pastFault; split <;> simp
@[simp] theorem State.pastFault_cmdChain (s : State) : (s.pastFault).cmdChain = s.cmdChain := by unfold State.pastFault; split <;> simp
@[simp] theorem State.pastFault_nfQ (s : State) : (s.pastFault).nfQ = s.nfQ := by unfold State.pastFault; split <;> simp
@[simp] theorem State.pastFault_nfPhase (s : State) : (s.pastFault).nfPhase = s.nfPhase := by unfold State.pastFault; split <;> simp
@[simp] theorem State.pastFault_nonceTimeout (s : State) : (s.pastFault).nonceTimeout = s.nonceTimeout := by unfold State.pastFault; split <;> simp
@[simp] theorem State.pastFault_wq (s : State) : (s.pastFault).wq = s.wq := by unfold State.pastFault; split <;> simp
@[simp] theorem State.pastFault_hist (s : State) : (s.pastFault).hist = s.hist := by unfold State.pastFault; split <;> simp
@[simp] theorem State.pastFault_faults (s : State) : (s.pastFault).faults = s.faults := by unfold State.pastFault; split <;> simp
@[simp] theorem State.pastFault_refused (s : State) : (s.pastFault).refused = s.refused := by unfold State.pastFault; split <;> simp
@[simp] theorem State.pastFault_x (s : State) : (s.pastFault).x = s.x := by unfold State.pastFault; split <;> simp
@[simp] theorem State.pastFault_xW (s : State) : (s.pastFault).xW = s.xW := by unfold State.pastFault; split <;> simp
@[simp] theorem State.pastFault_active (s : State) : (s.pastFault).active = s.active := by unfold State.pastFault; split <;> simp
@[simp] theorem State.pastFault_driver (s : State) : (s.pastFault).driver = s.driver := by unfold State.pastFault; split <;> simp
@[simp] theorem State.pastFault_drawNo (s : State) : (s.pastFault).drawNo = s.drawNo := by unfold State.pastFault; split <;> simp
@[simp] theorem State.pastFault_turnNo (s : State) : (s.pastFault).turnNo = s.turnNo := by unfold State.pastFault; split <;> simp
@[simp] theorem State.pastFault_agenda (s : State) : (s.pastFault).agenda = s.agenda := by unfold State.pastFault; split <;> simp
@[simp] theorem State.pastFault_pc (s : State) : (s.pastFault).pc = if s.cfg.faultAdvancesPc then s.pc + 1 else s.pc := by unfold State.pastFault; split <;> simp
@[simp] theorem State.pastFault_script (s : State) : (s.pastFault).script = s.script := by unfold State.pastFault; split <;> simp
@[simp] theorem State.pastFault_host (s : State) : (s.pastFault).host = s.host := by unfold State.pastFault; split <;> simp
@[simp] theorem State.pastFault_task (s : State) (k' : HostTask) : (s.pastFault).task k' =
    if k' = s.active ∧ s.cfg.faultAdvancesPc = true then { s.current with pc := s.pc + 1 } else s.task k' := by
  unfold State.pastFault; split <;> rename_i h <;> simp [h]

@[simp] theorem State.hostFault_cfg (k : FaultKind) (off : Option Nat) (s : State) : (s.hostFault k off).cfg = s.cfg := by simp [State.hostFault]
@[simp] theorem State.hostFault_cmdBuf (k : FaultKind) (off : Option Nat) (s : State) : (s.hostFault k off).cmdBuf = s.cmdBuf := by simp [State.hostFault]
@[simp] theorem State.hostFault_cmdBufW (k : FaultKind) (off : Option Nat) (s : State) : (s.hostFault k off).cmdBufW = s.cmdBufW := by simp [State.hostFault]
@[simp] theorem State.hostFault_cmdReady (k : FaultKind) (off : Option Nat) (s : State) : (s.hostFault k off).cmdReady = s.cmdReady := by simp [State.hostFault]
@[simp] theorem State.hostFault_cmdChain (k : FaultKind) (off : Option Nat) (s : State) : (s.hostFault k off).cmdChain = s.cmdChain := by simp [State.hostFault]
@[simp] theorem State.hostFault_nfQ (k : FaultKind) (off : Option Nat) (s : State) : (s.hostFault k off).nfQ = s.nfQ := by simp [State.hostFault]
@[simp] theorem State.hostFault_nfPhase (k : FaultKind) (off : Option Nat) (s : State) : (s.hostFault k off).nfPhase = s.nfPhase := by simp [State.hostFault]
@[simp] theorem State.hostFault_nonceTimeout (k : FaultKind) (off : Option Nat) (s : State) : (s.hostFault k off).nonceTimeout = s.nonceTimeout := by simp [State.hostFault]
@[simp] theorem State.hostFault_wq (k : FaultKind) (off : Option Nat) (s : State) : (s.hostFault k off).wq = s.wq := by simp [State.hostFault]
@[simp] theorem State.hostFault_hist (k : FaultKind) (off : Option Nat) (s : State) : (s.hostFault k off).hist = s.hist ++ [.fault k off] := by simp [State.hostFault]
@[simp] theorem State.hostFault_faults (k : FaultKind) (off : Option Nat) (s : State) : (s.hostFault k off).faults = insertKind k s.faults := by simp [State.hostFault]
@[simp] theorem State.hostFault_refused (k : FaultKind) (off : Option Nat) (s : State) : (s.hostFault k off).refused = s.refused := by simp [State.hostFault]
@[simp] theorem State.hostFault_x (k : FaultKind) (off : Option Nat) (s : State) : (s.hostFault k off).x = s.x := by simp [State.hostFault]
@[simp] theorem State.hostFault_xW (k : FaultKind) (off : Option Nat) (s : State) : (s.hostFault k off).xW = s.xW := by simp [State.hostFault]
@[simp] theorem State.hostFault_active (k : FaultKind) (off : Option Nat) (s : State) : (s.hostFault k off).active = s.active := by simp [State.hostFault]
@[simp] theorem State.hostFault_driver (k : FaultKind) (off : Option Nat) (s : State) : (s.hostFault k off).driver = s.driver := by simp [State.hostFault]
@[simp] theorem State.hostFault_drawNo (k : FaultKind) (off : Option Nat) (s : State) : (s.hostFault k off).drawNo = s.drawNo := by simp [State.hostFault]
@[simp] theorem State.hostFault_turnNo (k : FaultKind) (off : Option Nat) (s : State) : (s.hostFault k off).turnNo = s.turnNo := by simp [State.hostFault]
@[simp] theorem State.hostFault_agenda (k : FaultKind) (off : Option Nat) (s : State) : (s.hostFault k off).agenda = s.agenda := by simp [State.hostFault]
@[simp] theorem State.hostFault_pc (k : FaultKind) (off : Option Nat) (s : State) : (s.hostFault k off).pc = if s.cfg.faultAdvancesPc then s.pc + 1 else s.pc := State.pastFault_pc _
@[simp] theorem State.hostFault_script (k : FaultKind) (off : Option Nat) (s : State) : (s.hostFault k off).script = s.script := by simp [State.hostFault]
@[simp] theorem State.hostFault_host (k : FaultKind) (off : Option Nat) (s : State) : (s.hostFault k off).host = s.host := by simp [State.hostFault]
@[simp] theorem State.hostFault_task (k : FaultKind) (off : Option Nat) (s : State) (k' : HostTask) : (s.hostFault k off).task k' =
    if k' = s.active ∧ s.cfg.faultAdvancesPc = true then { s.current with pc := s.pc + 1 } else s.task k' := by
  exact State.pastFault_task (s.raise k off) k'

@[simp] theorem State.hostRefuse_cfg (r : RefusalReason) (s : State) : (s.hostRefuse r).cfg = s.cfg := by simp [State.hostRefuse]
@[simp] theorem State.hostRefuse_cmdBuf (r : RefusalReason) (s : State) : (s.hostRefuse r).cmdBuf = s.cmdBuf := by simp [State.hostRefuse]
@[simp] theorem State.hostRefuse_cmdBufW (r : RefusalReason) (s : State) : (s.hostRefuse r).cmdBufW = s.cmdBufW := by simp [State.hostRefuse]
@[simp] theorem State.hostRefuse_cmdReady (r : RefusalReason) (s : State) : (s.hostRefuse r).cmdReady = s.cmdReady := by simp [State.hostRefuse]
@[simp] theorem State.hostRefuse_cmdChain (r : RefusalReason) (s : State) : (s.hostRefuse r).cmdChain = s.cmdChain := by simp [State.hostRefuse]
@[simp] theorem State.hostRefuse_nfQ (r : RefusalReason) (s : State) : (s.hostRefuse r).nfQ = s.nfQ := by simp [State.hostRefuse]
@[simp] theorem State.hostRefuse_nfPhase (r : RefusalReason) (s : State) : (s.hostRefuse r).nfPhase = s.nfPhase := by simp [State.hostRefuse]
@[simp] theorem State.hostRefuse_nonceTimeout (r : RefusalReason) (s : State) : (s.hostRefuse r).nonceTimeout = s.nonceTimeout := by simp [State.hostRefuse]
@[simp] theorem State.hostRefuse_wq (r : RefusalReason) (s : State) : (s.hostRefuse r).wq = s.wq := by simp [State.hostRefuse]
@[simp] theorem State.hostRefuse_hist (r : RefusalReason) (s : State) : (s.hostRefuse r).hist = s.hist ++ [.refuse r] := by simp [State.hostRefuse]
@[simp] theorem State.hostRefuse_faults (r : RefusalReason) (s : State) : (s.hostRefuse r).faults = s.faults := by simp [State.hostRefuse]
@[simp] theorem State.hostRefuse_refused (r : RefusalReason) (s : State) : (s.hostRefuse r).refused = true := by simp [State.hostRefuse]
@[simp] theorem State.hostRefuse_x (r : RefusalReason) (s : State) : (s.hostRefuse r).x = s.x := by simp [State.hostRefuse]
@[simp] theorem State.hostRefuse_xW (r : RefusalReason) (s : State) : (s.hostRefuse r).xW = s.xW := by simp [State.hostRefuse]
@[simp] theorem State.hostRefuse_active (r : RefusalReason) (s : State) : (s.hostRefuse r).active = s.active := by simp [State.hostRefuse]
@[simp] theorem State.hostRefuse_driver (r : RefusalReason) (s : State) : (s.hostRefuse r).driver = s.driver := by simp [State.hostRefuse]
@[simp] theorem State.hostRefuse_drawNo (r : RefusalReason) (s : State) : (s.hostRefuse r).drawNo = s.drawNo := by simp [State.hostRefuse]
@[simp] theorem State.hostRefuse_turnNo (r : RefusalReason) (s : State) : (s.hostRefuse r).turnNo = s.turnNo := by simp [State.hostRefuse]
@[simp] theorem State.hostRefuse_agenda (r : RefusalReason) (s : State) : (s.hostRefuse r).agenda = s.agenda := by simp [State.hostRefuse]
@[simp] theorem State.hostRefuse_pc (r : RefusalReason) (s : State) : (s.hostRefuse r).pc = if s.cfg.faultAdvancesPc then s.pc + 1 else s.pc := State.pastFault_pc _
@[simp] theorem State.hostRefuse_script (r : RefusalReason) (s : State) : (s.hostRefuse r).script = s.script := by simp [State.hostRefuse]
@[simp] theorem State.hostRefuse_host (r : RefusalReason) (s : State) : (s.hostRefuse r).host = s.host := by simp [State.hostRefuse]
@[simp] theorem State.hostRefuse_task (r : RefusalReason) (s : State) (k' : HostTask) : (s.hostRefuse r).task k' =
    if k' = s.active ∧ s.cfg.faultAdvancesPc = true then { s.current with pc := s.pc + 1 } else s.task k' := by
  exact State.pastFault_task (s.refuse r) k'

@[simp] theorem State.finishRead_cfg (d : Fin 8) (off : Nat) (v : Word) (s : State) : (s.finishRead d off v).cfg = s.cfg := rfl
@[simp] theorem State.finishRead_cmdBuf (d : Fin 8) (off : Nat) (v : Word) (s : State) : (s.finishRead d off v).cmdBuf = s.cmdBuf := rfl
@[simp] theorem State.finishRead_cmdBufW (d : Fin 8) (off : Nat) (v : Word) (s : State) : (s.finishRead d off v).cmdBufW = s.cmdBufW := rfl
@[simp] theorem State.finishRead_cmdReady (d : Fin 8) (off : Nat) (v : Word) (s : State) : (s.finishRead d off v).cmdReady = s.cmdReady := rfl
@[simp] theorem State.finishRead_cmdChain (d : Fin 8) (off : Nat) (v : Word) (s : State) : (s.finishRead d off v).cmdChain = s.cmdChain := rfl
@[simp] theorem State.finishRead_nfQ (d : Fin 8) (off : Nat) (v : Word) (s : State) : (s.finishRead d off v).nfQ = s.nfQ := rfl
@[simp] theorem State.finishRead_nfPhase (d : Fin 8) (off : Nat) (v : Word) (s : State) : (s.finishRead d off v).nfPhase = s.nfPhase := rfl
@[simp] theorem State.finishRead_nonceTimeout (d : Fin 8) (off : Nat) (v : Word) (s : State) : (s.finishRead d off v).nonceTimeout = s.nonceTimeout := rfl
@[simp] theorem State.finishRead_wq (d : Fin 8) (off : Nat) (v : Word) (s : State) : (s.finishRead d off v).wq = s.wq := rfl
@[simp] theorem State.finishRead_hist (d : Fin 8) (off : Nat) (v : Word) (s : State) : (s.finishRead d off v).hist = s.hist ++ [.read off v] := rfl
@[simp] theorem State.finishRead_faults (d : Fin 8) (off : Nat) (v : Word) (s : State) : (s.finishRead d off v).faults = s.faults := rfl
@[simp] theorem State.finishRead_refused (d : Fin 8) (off : Nat) (v : Word) (s : State) : (s.finishRead d off v).refused = s.refused := rfl
@[simp] theorem State.finishRead_x (d : Fin 8) (off : Nat) (v : Word) (s : State) : (s.finishRead d off v).x = s.x.set d v := rfl
@[simp] theorem State.finishRead_xW (d : Fin 8) (off : Nat) (v : Word) (s : State) : (s.finishRead d off v).xW = s.xW.set d true := rfl
@[simp] theorem State.finishRead_active (d : Fin 8) (off : Nat) (v : Word) (s : State) : (s.finishRead d off v).active = s.active := rfl
@[simp] theorem State.finishRead_driver (d : Fin 8) (off : Nat) (v : Word) (s : State) : (s.finishRead d off v).driver = s.driver := rfl
@[simp] theorem State.finishRead_drawNo (d : Fin 8) (off : Nat) (v : Word) (s : State) : (s.finishRead d off v).drawNo = s.drawNo := rfl
@[simp] theorem State.finishRead_turnNo (d : Fin 8) (off : Nat) (v : Word) (s : State) : (s.finishRead d off v).turnNo = s.turnNo := rfl
@[simp] theorem State.finishRead_agenda (d : Fin 8) (off : Nat) (v : Word) (s : State) : (s.finishRead d off v).agenda = s.agenda := rfl
@[simp] theorem State.finishRead_pc (d : Fin 8) (off : Nat) (v : Word) (s : State) : (s.finishRead d off v).pc = s.pc + 1 := by simp [State.finishRead]
@[simp] theorem State.finishRead_script (d : Fin 8) (off : Nat) (v : Word) (s : State) : (s.finishRead d off v).script = s.script := by simp [State.finishRead]
@[simp] theorem State.finishRead_host (d : Fin 8) (off : Nat) (v : Word) (s : State) : (s.finishRead d off v).host = s.host := by simp [State.finishRead]
@[simp] theorem State.finishRead_task (d : Fin 8) (off : Nat) (v : Word) (s : State) (k' : HostTask) : (s.finishRead d off v).task k' =
    if k' = s.active then { s.current with pc := s.pc + 1 } else s.task k' := by
  exact State.nextPc_task ((s.record (.read off v)).writeX d v) k'

@[simp] theorem State.setNonces_cfg (q : List Entry) (phase : Bool) (s : State) : (s.setNonces q phase).cfg = s.cfg := rfl
@[simp] theorem State.setNonces_cmdBuf (q : List Entry) (phase : Bool) (s : State) : (s.setNonces q phase).cmdBuf = s.cmdBuf := rfl
@[simp] theorem State.setNonces_cmdBufW (q : List Entry) (phase : Bool) (s : State) : (s.setNonces q phase).cmdBufW = s.cmdBufW := rfl
@[simp] theorem State.setNonces_cmdReady (q : List Entry) (phase : Bool) (s : State) : (s.setNonces q phase).cmdReady = s.cmdReady := rfl
@[simp] theorem State.setNonces_cmdChain (q : List Entry) (phase : Bool) (s : State) : (s.setNonces q phase).cmdChain = s.cmdChain := rfl
@[simp] theorem State.setNonces_nfQ (q : List Entry) (phase : Bool) (s : State) : (s.setNonces q phase).nfQ = q := rfl
@[simp] theorem State.setNonces_nfPhase (q : List Entry) (phase : Bool) (s : State) : (s.setNonces q phase).nfPhase = phase := rfl
@[simp] theorem State.setNonces_nonceTimeout (q : List Entry) (phase : Bool) (s : State) : (s.setNonces q phase).nonceTimeout = s.nonceTimeout := rfl
@[simp] theorem State.setNonces_wq (q : List Entry) (phase : Bool) (s : State) : (s.setNonces q phase).wq = s.wq := rfl
@[simp] theorem State.setNonces_hist (q : List Entry) (phase : Bool) (s : State) : (s.setNonces q phase).hist = s.hist := rfl
@[simp] theorem State.setNonces_faults (q : List Entry) (phase : Bool) (s : State) : (s.setNonces q phase).faults = s.faults := rfl
@[simp] theorem State.setNonces_refused (q : List Entry) (phase : Bool) (s : State) : (s.setNonces q phase).refused = s.refused := rfl
@[simp] theorem State.setNonces_x (q : List Entry) (phase : Bool) (s : State) : (s.setNonces q phase).x = s.x := rfl
@[simp] theorem State.setNonces_xW (q : List Entry) (phase : Bool) (s : State) : (s.setNonces q phase).xW = s.xW := rfl
@[simp] theorem State.setNonces_active (q : List Entry) (phase : Bool) (s : State) : (s.setNonces q phase).active = s.active := rfl
@[simp] theorem State.setNonces_driver (q : List Entry) (phase : Bool) (s : State) : (s.setNonces q phase).driver = s.driver := rfl
@[simp] theorem State.setNonces_drawNo (q : List Entry) (phase : Bool) (s : State) : (s.setNonces q phase).drawNo = s.drawNo := rfl
@[simp] theorem State.setNonces_turnNo (q : List Entry) (phase : Bool) (s : State) : (s.setNonces q phase).turnNo = s.turnNo := rfl
@[simp] theorem State.setNonces_agenda (q : List Entry) (phase : Bool) (s : State) : (s.setNonces q phase).agenda = s.agenda := rfl
@[simp] theorem State.setNonces_main (q : List Entry) (phase : Bool) (s : State) : (s.setNonces q phase).main = s.main := rfl
@[simp] theorem State.setNonces_drainer (q : List Entry) (phase : Bool) (s : State) : (s.setNonces q phase).drainer = s.drainer := rfl
@[simp] theorem State.setNonces_pc (q : List Entry) (phase : Bool) (s : State) : (s.setNonces q phase).pc = s.pc := rfl
@[simp] theorem State.setNonces_script (q : List Entry) (phase : Bool) (s : State) : (s.setNonces q phase).script = s.script := rfl
@[simp] theorem State.setNonces_host (q : List Entry) (phase : Bool) (s : State) : (s.setNonces q phase).host = s.host := rfl
@[simp] theorem State.setNonces_task (q : List Entry) (phase : Bool) (s : State) (k' : HostTask) : (s.setNonces q phase).task k' = s.task k' := rfl

@[simp] theorem State.setWq_cfg (wq : List Pending) (s : State) : (s.setWq wq).cfg = s.cfg := rfl
@[simp] theorem State.setWq_cmdBuf (wq : List Pending) (s : State) : (s.setWq wq).cmdBuf = s.cmdBuf := rfl
@[simp] theorem State.setWq_cmdBufW (wq : List Pending) (s : State) : (s.setWq wq).cmdBufW = s.cmdBufW := rfl
@[simp] theorem State.setWq_cmdReady (wq : List Pending) (s : State) : (s.setWq wq).cmdReady = s.cmdReady := rfl
@[simp] theorem State.setWq_cmdChain (wq : List Pending) (s : State) : (s.setWq wq).cmdChain = s.cmdChain := rfl
@[simp] theorem State.setWq_nfQ (wq : List Pending) (s : State) : (s.setWq wq).nfQ = s.nfQ := rfl
@[simp] theorem State.setWq_nfPhase (wq : List Pending) (s : State) : (s.setWq wq).nfPhase = s.nfPhase := rfl
@[simp] theorem State.setWq_nonceTimeout (wq : List Pending) (s : State) : (s.setWq wq).nonceTimeout = s.nonceTimeout := rfl
@[simp] theorem State.setWq_wq (wq : List Pending) (s : State) : (s.setWq wq).wq = wq := rfl
@[simp] theorem State.setWq_hist (wq : List Pending) (s : State) : (s.setWq wq).hist = s.hist := rfl
@[simp] theorem State.setWq_faults (wq : List Pending) (s : State) : (s.setWq wq).faults = s.faults := rfl
@[simp] theorem State.setWq_refused (wq : List Pending) (s : State) : (s.setWq wq).refused = s.refused := rfl
@[simp] theorem State.setWq_x (wq : List Pending) (s : State) : (s.setWq wq).x = s.x := rfl
@[simp] theorem State.setWq_xW (wq : List Pending) (s : State) : (s.setWq wq).xW = s.xW := rfl
@[simp] theorem State.setWq_active (wq : List Pending) (s : State) : (s.setWq wq).active = s.active := rfl
@[simp] theorem State.setWq_driver (wq : List Pending) (s : State) : (s.setWq wq).driver = s.driver := rfl
@[simp] theorem State.setWq_drawNo (wq : List Pending) (s : State) : (s.setWq wq).drawNo = s.drawNo := rfl
@[simp] theorem State.setWq_turnNo (wq : List Pending) (s : State) : (s.setWq wq).turnNo = s.turnNo := rfl
@[simp] theorem State.setWq_agenda (wq : List Pending) (s : State) : (s.setWq wq).agenda = s.agenda := rfl
@[simp] theorem State.setWq_main (wq : List Pending) (s : State) : (s.setWq wq).main = s.main := rfl
@[simp] theorem State.setWq_drainer (wq : List Pending) (s : State) : (s.setWq wq).drainer = s.drainer := rfl
@[simp] theorem State.setWq_pc (wq : List Pending) (s : State) : (s.setWq wq).pc = s.pc := rfl
@[simp] theorem State.setWq_script (wq : List Pending) (s : State) : (s.setWq wq).script = s.script := rfl
@[simp] theorem State.setWq_host (wq : List Pending) (s : State) : (s.setWq wq).host = s.host := rfl
@[simp] theorem State.setWq_task (wq : List Pending) (s : State) (k' : HostTask) : (s.setWq wq).task k' = s.task k' := rfl

@[simp] theorem State.setBuf_cfg (k : Fin 3) (v : Word) (s : State) : (s.setBuf k v).cfg = s.cfg := rfl
@[simp] theorem State.setBuf_cmdBuf (k : Fin 3) (v : Word) (s : State) : (s.setBuf k v).cmdBuf = s.cmdBuf.set k v := rfl
@[simp] theorem State.setBuf_cmdBufW (k : Fin 3) (v : Word) (s : State) : (s.setBuf k v).cmdBufW = s.cmdBufW.set k true := rfl
@[simp] theorem State.setBuf_cmdReady (k : Fin 3) (v : Word) (s : State) : (s.setBuf k v).cmdReady = s.cmdReady := rfl
@[simp] theorem State.setBuf_cmdChain (k : Fin 3) (v : Word) (s : State) : (s.setBuf k v).cmdChain = s.cmdChain := rfl
@[simp] theorem State.setBuf_nfQ (k : Fin 3) (v : Word) (s : State) : (s.setBuf k v).nfQ = s.nfQ := rfl
@[simp] theorem State.setBuf_nfPhase (k : Fin 3) (v : Word) (s : State) : (s.setBuf k v).nfPhase = s.nfPhase := rfl
@[simp] theorem State.setBuf_nonceTimeout (k : Fin 3) (v : Word) (s : State) : (s.setBuf k v).nonceTimeout = s.nonceTimeout := rfl
@[simp] theorem State.setBuf_wq (k : Fin 3) (v : Word) (s : State) : (s.setBuf k v).wq = s.wq := rfl
@[simp] theorem State.setBuf_hist (k : Fin 3) (v : Word) (s : State) : (s.setBuf k v).hist = s.hist := rfl
@[simp] theorem State.setBuf_faults (k : Fin 3) (v : Word) (s : State) : (s.setBuf k v).faults = s.faults := rfl
@[simp] theorem State.setBuf_refused (k : Fin 3) (v : Word) (s : State) : (s.setBuf k v).refused = s.refused := rfl
@[simp] theorem State.setBuf_x (k : Fin 3) (v : Word) (s : State) : (s.setBuf k v).x = s.x := rfl
@[simp] theorem State.setBuf_xW (k : Fin 3) (v : Word) (s : State) : (s.setBuf k v).xW = s.xW := rfl
@[simp] theorem State.setBuf_active (k : Fin 3) (v : Word) (s : State) : (s.setBuf k v).active = s.active := rfl
@[simp] theorem State.setBuf_driver (k : Fin 3) (v : Word) (s : State) : (s.setBuf k v).driver = s.driver := rfl
@[simp] theorem State.setBuf_drawNo (k : Fin 3) (v : Word) (s : State) : (s.setBuf k v).drawNo = s.drawNo := rfl
@[simp] theorem State.setBuf_turnNo (k : Fin 3) (v : Word) (s : State) : (s.setBuf k v).turnNo = s.turnNo := rfl
@[simp] theorem State.setBuf_agenda (k : Fin 3) (v : Word) (s : State) : (s.setBuf k v).agenda = s.agenda := rfl
@[simp] theorem State.setBuf_main (k : Fin 3) (v : Word) (s : State) : (s.setBuf k v).main = s.main := rfl
@[simp] theorem State.setBuf_drainer (k : Fin 3) (v : Word) (s : State) : (s.setBuf k v).drainer = s.drainer := rfl
@[simp] theorem State.setBuf_pc (k : Fin 3) (v : Word) (s : State) : (s.setBuf k v).pc = s.pc := rfl
@[simp] theorem State.setBuf_script (k : Fin 3) (v : Word) (s : State) : (s.setBuf k v).script = s.script := rfl
@[simp] theorem State.setBuf_host (k : Fin 3) (v : Word) (s : State) : (s.setBuf k v).host = s.host := rfl
@[simp] theorem State.setBuf_task (k : Fin 3) (v : Word) (s : State) (k' : HostTask) : (s.setBuf k v).task k' = s.task k' := rfl

@[simp] theorem State.post_cfg (c : Fin 3) (s : State) : (s.post c).cfg = s.cfg := rfl
@[simp] theorem State.post_cmdBuf (c : Fin 3) (s : State) : (s.post c).cmdBuf = s.cmdBuf := rfl
@[simp] theorem State.post_cmdBufW (c : Fin 3) (s : State) : (s.post c).cmdBufW = s.cmdBufW := rfl
@[simp] theorem State.post_cmdReady (c : Fin 3) (s : State) : (s.post c).cmdReady = true := rfl
@[simp] theorem State.post_cmdChain (c : Fin 3) (s : State) : (s.post c).cmdChain = c := rfl
@[simp] theorem State.post_nfQ (c : Fin 3) (s : State) : (s.post c).nfQ = s.nfQ := rfl
@[simp] theorem State.post_nfPhase (c : Fin 3) (s : State) : (s.post c).nfPhase = s.nfPhase := rfl
@[simp] theorem State.post_nonceTimeout (c : Fin 3) (s : State) : (s.post c).nonceTimeout = s.nonceTimeout := rfl
@[simp] theorem State.post_wq (c : Fin 3) (s : State) : (s.post c).wq = s.wq := rfl
@[simp] theorem State.post_hist (c : Fin 3) (s : State) : (s.post c).hist = s.hist := rfl
@[simp] theorem State.post_faults (c : Fin 3) (s : State) : (s.post c).faults = s.faults := rfl
@[simp] theorem State.post_refused (c : Fin 3) (s : State) : (s.post c).refused = s.refused := rfl
@[simp] theorem State.post_x (c : Fin 3) (s : State) : (s.post c).x = s.x := rfl
@[simp] theorem State.post_xW (c : Fin 3) (s : State) : (s.post c).xW = s.xW := rfl
@[simp] theorem State.post_active (c : Fin 3) (s : State) : (s.post c).active = s.active := rfl
@[simp] theorem State.post_driver (c : Fin 3) (s : State) : (s.post c).driver = s.driver := rfl
@[simp] theorem State.post_drawNo (c : Fin 3) (s : State) : (s.post c).drawNo = s.drawNo := rfl
@[simp] theorem State.post_turnNo (c : Fin 3) (s : State) : (s.post c).turnNo = s.turnNo := rfl
@[simp] theorem State.post_agenda (c : Fin 3) (s : State) : (s.post c).agenda = s.agenda := rfl
@[simp] theorem State.post_main (c : Fin 3) (s : State) : (s.post c).main = s.main := rfl
@[simp] theorem State.post_drainer (c : Fin 3) (s : State) : (s.post c).drainer = s.drainer := rfl
@[simp] theorem State.post_pc (c : Fin 3) (s : State) : (s.post c).pc = s.pc := rfl
@[simp] theorem State.post_script (c : Fin 3) (s : State) : (s.post c).script = s.script := rfl
@[simp] theorem State.post_host (c : Fin 3) (s : State) : (s.post c).host = s.host := rfl
@[simp] theorem State.post_task (c : Fin 3) (s : State) (k' : HostTask) : (s.post c).task k' = s.task k' := rfl

@[simp] theorem State.hazardChecked_cfg (s : State) : s.hazardChecked.cfg = s.cfg := by
  unfold State.hazardChecked; split <;> rfl
@[simp] theorem State.hazardChecked_cmdBuf (s : State) : s.hazardChecked.cmdBuf = s.cmdBuf := by
  unfold State.hazardChecked; split <;> rfl
@[simp] theorem State.hazardChecked_cmdBufW (s : State) : s.hazardChecked.cmdBufW = s.cmdBufW := by
  unfold State.hazardChecked; split <;> rfl
@[simp] theorem State.hazardChecked_cmdReady (s : State) : s.hazardChecked.cmdReady = s.cmdReady := by
  unfold State.hazardChecked; split <;> rfl
@[simp] theorem State.hazardChecked_cmdChain (s : State) : s.hazardChecked.cmdChain = s.cmdChain := by
  unfold State.hazardChecked; split <;> rfl
@[simp] theorem State.hazardChecked_nfQ (s : State) : s.hazardChecked.nfQ = s.nfQ := by
  unfold State.hazardChecked; split <;> rfl
@[simp] theorem State.hazardChecked_nfPhase (s : State) : s.hazardChecked.nfPhase = s.nfPhase := by
  unfold State.hazardChecked; split <;> rfl
@[simp] theorem State.hazardChecked_nonceTimeout (s : State) : s.hazardChecked.nonceTimeout = s.nonceTimeout := by
  unfold State.hazardChecked; split <;> rfl
@[simp] theorem State.hazardChecked_wq (s : State) : s.hazardChecked.wq = s.wq := by
  unfold State.hazardChecked; split <;> rfl
@[simp] theorem State.hazardChecked_hist (s : State) : s.hazardChecked.hist = if hazard s.cmdChain s.hist then s.hist ++ [.fault .hazard none] else s.hist := by
  unfold State.hazardChecked; split <;> rfl
@[simp] theorem State.hazardChecked_faults (s : State) : s.hazardChecked.faults = if hazard s.cmdChain s.hist then insertKind .hazard s.faults else s.faults := by
  unfold State.hazardChecked; split <;> rfl
@[simp] theorem State.hazardChecked_refused (s : State) : s.hazardChecked.refused = s.refused := by
  unfold State.hazardChecked; split <;> rfl
@[simp] theorem State.hazardChecked_x (s : State) : s.hazardChecked.x = s.x := by
  unfold State.hazardChecked; split <;> rfl
@[simp] theorem State.hazardChecked_xW (s : State) : s.hazardChecked.xW = s.xW := by
  unfold State.hazardChecked; split <;> rfl
@[simp] theorem State.hazardChecked_active (s : State) : s.hazardChecked.active = s.active := by
  unfold State.hazardChecked; split <;> rfl
@[simp] theorem State.hazardChecked_driver (s : State) : s.hazardChecked.driver = s.driver := by
  unfold State.hazardChecked; split <;> rfl
@[simp] theorem State.hazardChecked_drawNo (s : State) : s.hazardChecked.drawNo = s.drawNo := by
  unfold State.hazardChecked; split <;> rfl
@[simp] theorem State.hazardChecked_turnNo (s : State) : s.hazardChecked.turnNo = s.turnNo := by
  unfold State.hazardChecked; split <;> rfl
@[simp] theorem State.hazardChecked_agenda (s : State) : s.hazardChecked.agenda = s.agenda := by
  unfold State.hazardChecked; split <;> rfl
@[simp] theorem State.hazardChecked_main (s : State) : s.hazardChecked.main = s.main := by
  unfold State.hazardChecked; split <;> rfl
@[simp] theorem State.hazardChecked_drainer (s : State) : s.hazardChecked.drainer = s.drainer := by
  unfold State.hazardChecked; split <;> rfl
@[simp] theorem State.hazardChecked_pc (s : State) : s.hazardChecked.pc = s.pc := by
  unfold State.hazardChecked; split <;> rfl
@[simp] theorem State.hazardChecked_script (s : State) : s.hazardChecked.script = s.script := by
  unfold State.hazardChecked; split <;> rfl
@[simp] theorem State.hazardChecked_host (s : State) : s.hazardChecked.host = s.host := by
  unfold State.hazardChecked; split <;> rfl
@[simp] theorem State.hazardChecked_task (s : State) (k : HostTask) : s.hazardChecked.task k = s.task k := by
  unfold State.hazardChecked; split <;> rfl

@[simp] theorem State.sendFrame_cfg (bytes : List Byte) (s : State) : (s.sendFrame bytes).cfg = s.cfg := by
  simp [State.sendFrame]
@[simp] theorem State.sendFrame_cmdBuf (bytes : List Byte) (s : State) : (s.sendFrame bytes).cmdBuf = s.cmdBuf := by
  simp [State.sendFrame]
@[simp] theorem State.sendFrame_cmdBufW (bytes : List Byte) (s : State) : (s.sendFrame bytes).cmdBufW = s.cmdBufW := by
  simp [State.sendFrame]
@[simp] theorem State.sendFrame_cmdReady (bytes : List Byte) (s : State) : (s.sendFrame bytes).cmdReady = false := by
  simp [State.sendFrame]
@[simp] theorem State.sendFrame_cmdChain (bytes : List Byte) (s : State) : (s.sendFrame bytes).cmdChain = s.cmdChain := by
  simp [State.sendFrame]
@[simp] theorem State.sendFrame_nfQ (bytes : List Byte) (s : State) : (s.sendFrame bytes).nfQ = s.nfQ := by
  simp [State.sendFrame]
@[simp] theorem State.sendFrame_nfPhase (bytes : List Byte) (s : State) : (s.sendFrame bytes).nfPhase = s.nfPhase := by
  simp [State.sendFrame]
@[simp] theorem State.sendFrame_nonceTimeout (bytes : List Byte) (s : State) : (s.sendFrame bytes).nonceTimeout = s.nonceTimeout := by
  simp [State.sendFrame]
@[simp] theorem State.sendFrame_wq (bytes : List Byte) (s : State) : (s.sendFrame bytes).wq = s.wq := by
  simp [State.sendFrame]
@[simp] theorem State.sendFrame_hist (bytes : List Byte) (s : State) : (s.sendFrame bytes).hist = s.hazardChecked.hist ++ [.emit s.cmdChain bytes] := by
  simp [State.sendFrame]
@[simp] theorem State.sendFrame_faults (bytes : List Byte) (s : State) : (s.sendFrame bytes).faults = s.hazardChecked.faults := by
  simp [State.sendFrame]
@[simp] theorem State.sendFrame_refused (bytes : List Byte) (s : State) : (s.sendFrame bytes).refused = s.refused := by
  simp [State.sendFrame]
@[simp] theorem State.sendFrame_x (bytes : List Byte) (s : State) : (s.sendFrame bytes).x = s.x := by
  simp [State.sendFrame]
@[simp] theorem State.sendFrame_xW (bytes : List Byte) (s : State) : (s.sendFrame bytes).xW = s.xW := by
  simp [State.sendFrame]
@[simp] theorem State.sendFrame_active (bytes : List Byte) (s : State) : (s.sendFrame bytes).active = s.active := by
  simp [State.sendFrame]
@[simp] theorem State.sendFrame_driver (bytes : List Byte) (s : State) : (s.sendFrame bytes).driver = s.driver := by
  simp [State.sendFrame]
@[simp] theorem State.sendFrame_drawNo (bytes : List Byte) (s : State) : (s.sendFrame bytes).drawNo = s.drawNo := by
  simp [State.sendFrame]
@[simp] theorem State.sendFrame_turnNo (bytes : List Byte) (s : State) : (s.sendFrame bytes).turnNo = s.turnNo := by
  simp [State.sendFrame]
@[simp] theorem State.sendFrame_agenda (bytes : List Byte) (s : State) : (s.sendFrame bytes).agenda = s.agenda := by
  simp [State.sendFrame]
@[simp] theorem State.sendFrame_main (bytes : List Byte) (s : State) : (s.sendFrame bytes).main = s.main := by
  simp [State.sendFrame]
@[simp] theorem State.sendFrame_drainer (bytes : List Byte) (s : State) : (s.sendFrame bytes).drainer = s.drainer := by
  simp [State.sendFrame]
@[simp] theorem State.sendFrame_pc (bytes : List Byte) (s : State) : (s.sendFrame bytes).pc = s.pc := by
  unfold State.sendFrame State.hazardChecked; split <;> rfl
@[simp] theorem State.sendFrame_script (bytes : List Byte) (s : State) : (s.sendFrame bytes).script = s.script := by
  unfold State.sendFrame State.hazardChecked; split <;> rfl
@[simp] theorem State.sendFrame_host (bytes : List Byte) (s : State) : (s.sendFrame bytes).host = s.host := by
  unfold State.sendFrame State.hazardChecked; split <;> rfl
@[simp] theorem State.sendFrame_task (bytes : List Byte) (s : State) (k : HostTask) :
    (s.sendFrame bytes).task k = s.task k := by
  unfold State.sendFrame State.hazardChecked; split <;> rfl

@[simp] theorem turnTaken_cfg (s : State) : (turnTaken s).cfg = s.cfg := by unfold turnTaken; split <;> rfl
@[simp] theorem turnTaken_cmdBuf (s : State) : (turnTaken s).cmdBuf = s.cmdBuf := by unfold turnTaken; split <;> rfl
@[simp] theorem turnTaken_cmdBufW (s : State) : (turnTaken s).cmdBufW = s.cmdBufW := by unfold turnTaken; split <;> rfl
@[simp] theorem turnTaken_cmdReady (s : State) : (turnTaken s).cmdReady = s.cmdReady := by unfold turnTaken; split <;> rfl
@[simp] theorem turnTaken_cmdChain (s : State) : (turnTaken s).cmdChain = s.cmdChain := by unfold turnTaken; split <;> rfl
@[simp] theorem turnTaken_nfQ (s : State) : (turnTaken s).nfQ = s.nfQ := by unfold turnTaken; split <;> rfl
@[simp] theorem turnTaken_nfPhase (s : State) : (turnTaken s).nfPhase = s.nfPhase := by unfold turnTaken; split <;> rfl
@[simp] theorem turnTaken_nonceTimeout (s : State) : (turnTaken s).nonceTimeout = s.nonceTimeout := by unfold turnTaken; split <;> rfl
@[simp] theorem turnTaken_wq (s : State) : (turnTaken s).wq = s.wq := by unfold turnTaken; split <;> rfl
@[simp] theorem turnTaken_hist (s : State) : (turnTaken s).hist = s.hist := by unfold turnTaken; split <;> rfl
@[simp] theorem turnTaken_faults (s : State) : (turnTaken s).faults = s.faults := by unfold turnTaken; split <;> rfl
@[simp] theorem turnTaken_refused (s : State) : (turnTaken s).refused = s.refused := by unfold turnTaken; split <;> rfl
@[simp] theorem turnTaken_x (s : State) : (turnTaken s).x = s.x := by unfold turnTaken; split <;> rfl
@[simp] theorem turnTaken_xW (s : State) : (turnTaken s).xW = s.xW := by unfold turnTaken; split <;> rfl
@[simp] theorem turnTaken_active (s : State) : (turnTaken s).active = s.active := by unfold turnTaken; split <;> rfl
@[simp] theorem turnTaken_driver (s : State) : (turnTaken s).driver = s.driver := by unfold turnTaken; split <;> rfl
@[simp] theorem turnTaken_drawNo (s : State) : (turnTaken s).drawNo = s.drawNo := by unfold turnTaken; split <;> rfl
@[simp] theorem turnTaken_main (s : State) : (turnTaken s).main = s.main := by unfold turnTaken; split <;> rfl
@[simp] theorem turnTaken_drainer (s : State) : (turnTaken s).drainer = s.drainer := by unfold turnTaken; split <;> rfl
@[simp] theorem turnTaken_pc (s : State) : (turnTaken s).pc = s.pc := by unfold turnTaken; split <;> rfl
@[simp] theorem turnTaken_script (s : State) : (turnTaken s).script = s.script := by unfold turnTaken; split <;> rfl
@[simp] theorem turnTaken_host (s : State) : (turnTaken s).host = s.host := by unfold turnTaken; split <;> rfl
@[simp] theorem turnTaken_task (s : State) (k : HostTask) : (turnTaken s).task k = s.task k := by
  unfold turnTaken; split <;> rfl

end Sys2Proof.Machine
end

