-- ==== Sys2Proof/Laws/Driver.lean ====
section
/-! SUPPORT. What the driver's operations on HOST can do: they move the main task and the driver's records alone. -/

namespace Sys2Proof.Machine

/-- While a phase runs, none starts. -/
theorem Driver.mayStart_alone {d : Driver} {ph : Phase} (h : d.mayStart ph = true) : d.phase = none := by
  simp only [Driver.mayStart, Bool.and_eq_true, Option.isNone_iff_eq_none] at h
  exact h.1

/-- A phase that may not start, or a HOST that runs something, is a ValidationError that changes nothing. -/
theorem startPhase_rejected {o : OutsideAccess} {ph : Phase} {s : State} (h : (s.hostFree && s.driver.mayStart ph) = false) :
    startPhase o ph s = (some .validationError, s) := by
  simp [startPhase, h]

/-- Loading a script changes the task, or REFUSED and HIST. -/
theorem loadTask_cases (k : HostTask) (script : List Stmt) (s : State) :
    loadTask k script s = s.setTask k ⟨0, script, .running⟩ ∨ loadTask k script s = s.refuse .noStmt := by
  unfold loadTask
  split
  · exact .inl rfl
  · exact .inr rfl

/-- Starting a phase touches no hardware and no scratch register. -/
theorem startPhase_keeps (o : OutsideAccess) (ph : Phase) (s : State) :
    sameBus s (startPhase o ph s).2 ∧ sameNonce s (startPhase o ph s).2 ∧ (startPhase o ph s).2.wq = s.wq ∧
      (startPhase o ph s).2.x = s.x ∧ (startPhase o ph s).2.xW = s.xW := by
  unfold startPhase
  split
  · dsimp only
    split
    · rename_i part _
      rcases loadTask_cases .main (inSequence [part, plain [.halt]] 0)
        { s with driver := (s.driver.started ph).logged (phaseWarning ph).toList } with h | h <;>
        rw [h] <;> exact ⟨⟨rfl, rfl, rfl, rfl⟩, ⟨rfl, rfl, rfl⟩, rfl, rfl, rfl⟩
    · exact ⟨⟨rfl, rfl, rfl, rfl⟩, ⟨rfl, rfl, rfl⟩, rfl, rfl, rfl⟩
    · exact ⟨⟨rfl, rfl, rfl, rfl⟩, ⟨rfl, rfl, rfl⟩, rfl, rfl, rfl⟩
  · exact ⟨⟨rfl, rfl, rfl, rfl⟩, ⟨rfl, rfl, rfl⟩, rfl, rfl, rfl⟩

/-- Taking the result of a phase moves the driver's records alone, and no phase runs afterwards. -/
theorem endPhase_keeps {s t : State} {result : Option HostError} (h : endPhase s = some (result, t)) :
    t = { s with driver := t.driver } ∧ t.driver.phase = none := by
  unfold endPhase at h
  obtain ⟨ph, -, h⟩ := Option.bind_eq_some_iff.mp h
  obtain ⟨e, -, h⟩ := Option.map_eq_some_iff.mp h
  obtain ⟨rfl, rfl⟩ := Prod.mk.injEq .. ▸ h
  refine ⟨rfl, ?_⟩
  cases ph <;> cases e <;> rfl

end Sys2Proof.Machine
end

