-- ==== Sys2Proof/Laws/Ops.lean ====
section
/-! SUPPORT. One lemma for each shared operation: everything it can do. -/

namespace Sys2Proof.Machine

/-- FAULT after a fault: the kind and the kinds before. -/
@[simp] theorem mem_insertKind (k k' : FaultKind) (ks : List FaultKind) :
    k' ∈ insertKind k ks ↔ k' = k ∨ k' ∈ ks := by
  induction ks with
  | nil => simp [insertKind]
  | cons h t ih =>
    unfold insertKind
    split
    · subst_vars; simp
    · split <;> simp_all
      tauto

theorem FaultKind.code_injective {a b : FaultKind} (h : a.code = b.code) : a = b := by
  cases a <;> cases b <;> simp_all [FaultKind.code]

/-- FAULT stays in order. -/
theorem insertKind_keeps_order (k : FaultKind) (ks : List FaultKind) (h : kindsInOrder ks) :
    kindsInOrder (insertKind k ks) := by
  induction ks with
  | nil => simp [insertKind, kindsInOrder]
  | cons a t ih =>
    obtain ⟨ha, ht⟩ := List.pairwise_cons.mp h
    unfold insertKind
    split
    · exact h
    · rename_i hne
      split
      · rename_i hlt
        refine List.pairwise_cons.mpr ⟨fun b hb => ?_, h⟩
        rcases List.mem_cons.mp hb with rfl | hb
        · exact hlt
        · exact hlt.trans (ha b hb)
      · rename_i hge
        refine List.pairwise_cons.mpr ⟨fun b hb => ?_, ih ht⟩
        rcases (mem_insertKind k b t).mp hb with rfl | hb
        · exact lt_of_le_of_ne (Nat.not_lt.mp hge) (fun e => hne (FaultKind.code_injective e).symm)
        · exact ha b hb

/-- The register map is one to one: an offset has the register whose offset it is. -/
theorem regAt_eq_some (l : CmdLayout) (off : Nat) (r : BlockReg) : regAt l off = some r ↔ regOffset l r = off := by
  constructor
  · intro h
    have := List.find?_some (p := fun r => regOffset l r == off) h
    exact eq_of_beq this
  · rintro rfl
    cases l <;> cases r <;> try rfl
    all_goals rename_i k; revert k; decide

/-- An access that passes the issue checks names a register of the block. -/
theorem checkAccess_ok {l : CmdLayout} {width off : Nat} {r : BlockReg} (h : checkAccess l width off = .ok r) :
    regOffset l r = off := by
  unfold checkAccess at h
  split at h; · cases h
  split at h; · cases h
  split at h; · cases h
  split at h
  · rename_i r' hr
    cases h
    exact (regAt_eq_some l off r).mp hr
  · cases h

/-- A word-wide access at a register of the block passes the issue checks. -/
@[simp] theorem checkAccess_regOffset (l : CmdLayout) (r : BlockReg) : checkAccess l 32 (regOffset l r) = .ok r := by
  cases l <;> cases r <;> try rfl
  all_goals rename_i k; revert k; decide

/-- The count field of the word a count read returns is the count it saw. -/
@[simp] theorem countField_countWord (drawn : Word) {c : Nat} (h : c ≤ 32767) : countField (countWord drawn c) = c := by
  have field : countWord drawn c &&& 0x7FFF = BitVec.ofNat 32 c &&& 0x7FFF := by
    unfold countWord
    ext i hi
    simp only [BitVec.getElem_and, BitVec.getElem_or, BitVec.getElem_not]
    cases (32767#32)[i] <;> simp
  unfold countField
  rw [field, BitVec.toNat_and, BitVec.toNat_ofNat, Nat.mod_eq_of_lt (by omega)]
  exact (Nat.and_two_pow_sub_one_eq_mod c 15).trans (Nat.mod_eq_of_lt (by omega))

/-- What a read transaction of a register does: a fault of an empty FIFO, or `R(off, v)` with the word in x[d]; the
FIFO moves at NONCE_DATA alone, and the command bus, WQ and HOST's script never do. -/
theorem exec_readInstr (r : BlockReg) (d : Fin 8) (s : State) :
    ∃ t, exec (readInstr r d) s = .next t ∧ t.cfg = s.cfg ∧ t.cmdBuf = s.cmdBuf ∧ t.cmdBufW = s.cmdBufW ∧
      t.cmdReady = s.cmdReady ∧ t.cmdChain = s.cmdChain ∧ t.nonceTimeout = s.nonceTimeout ∧ t.wq = s.wq ∧
      t.refused = s.refused ∧ t.script = s.script ∧ t.host = s.host ∧ t.turnNo = s.turnNo ∧ t.agenda = s.agenda ∧
      t.active = s.active ∧ t.driver = s.driver ∧ (∀ k, k ≠ s.active → t.task k = s.task k) ∧
      ((r = .nonceData ∧ s.nfQ = [] ∧ t.nfQ = [] ∧ t.nfPhase = s.nfPhase ∧
          t.faults = insertKind .empty s.faults ∧ t.hist = s.hist ++ [.fault .empty (some 0x010)]) ∨
        (t.faults = s.faults ∧ ∃ v draws, t.hist = s.hist ++ draws ++ [.read (regOffset s.cfg.layout r) v] ∧
          (∀ e ∈ draws, ∃ w, e = Event.draw w) ∧
          ((r ≠ .nonceData ∧ t.nfQ = s.nfQ ∧ t.nfPhase = s.nfPhase) ∨
            (r = .nonceData ∧ ∃ e rest, s.nfQ = e :: rest ∧
              ((s.nfPhase = false ∧ v = e.nonce ∧ t.nfPhase = true ∧ t.nfQ = s.nfQ) ∨
                (s.nfPhase = true ∧ v = e.metadata ∧ t.nfPhase = false ∧ t.nfQ = rest)))))) := by
  cases r with
  | nonceData =>
    simp only [readInstr, exec, execNonceDataRd]
    cases hq : s.nfQ with
    | nil =>
      refine ⟨_, rfl, ?_⟩
      simp +contextual [hq, regOffset]
    | cons e rest =>
      cases hp : s.nfPhase
      · exact ⟨_, rfl, by simp +contextual [regOffset]⟩
      · exact ⟨_, rfl, by simp +contextual [regOffset]⟩
  | nonceCount =>
    simp only [readInstr, exec, execNonceCountRd, countChosen]
    cases hp : s.nfPhase
    · refine ⟨_, rfl, ?_⟩
      simp +contextual [hp]
      exact ⟨_, [Event.draw s.nextDraw], by simp; rfl, by simp⟩
    · refine ⟨_, rfl, ?_⟩
      simp +contextual [hp]
      exact ⟨_, [.draw _, .draw _], by simp; exact ⟨rfl, rfl, rfl⟩, by simp⟩
  | nonceTimeout =>
    refine ⟨_, rfl, ?_⟩
    simp +contextual
    exact ⟨_, [], by simp; rfl, by simp⟩
  | cmdCtl =>
    refine ⟨_, rfl, ?_⟩
    simp +contextual [regOffset]
    exact ⟨_, [.draw s.nextDraw], by simp; rfl, by simp⟩
  | cmdBuf k =>
    have hk : k = 0 ∨ k = 1 ∨ k = 2 := by omega
    rcases hk with rfl | rfl | rfl <;>
    · refine ⟨_, rfl, ?_⟩
      simp +contextual [regOffset, bufRead]
      exact ⟨_, [.draw s.nextDraw], by simp; rfl, by simp⟩
  | crcErr =>
    refine ⟨_, rfl, ?_⟩
    simp +contextual
    exact ⟨_, [.draw s.nextDraw], by simp; rfl, by simp⟩

/-- What a write transaction of a register does: a fault or a refusal of its own, a buffer word stored, a frame
posted, or NONCE_TIMEOUT stored. -/
theorem exec_writeInstr (r : BlockReg) (v : Word) (s : State) :
    ∃ t, exec (writeInstr r v) s = .next t ∧
      ((∃ k off, t = s.raise k (some off)) ∨
        (r = .cmdCtl ∧ ∃ reason, t = s.refuse reason) ∨
        (∃ k, r = .cmdBuf k ∧ s.cmdReady = false ∧ t = s.setBuf k v) ∨
        (r = .cmdCtl ∧ s.cmdReady = false ∧ ∃ c, triggerCheck s.cfg s.cmdBuf s.cmdBufW v = .ok c ∧ t = s.post c) ∨
        (r = .nonceTimeout ∧ t = { s with nonceTimeout := v })) := by
  have faulted (k : FaultKind) (off : Nat) : ∃ k' off', s.raise k (some off) = s.raise k' (some off') := ⟨k, off, rfl⟩
  cases r with
  | nonceData => exact ⟨_, rfl, .inl (faulted _ _)⟩
  | nonceCount => exact ⟨_, rfl, .inl (faulted _ _)⟩
  | crcErr => exact ⟨_, rfl, .inl (faulted _ _)⟩
  | nonceTimeout => exact ⟨_, rfl, .inr (.inr (.inr (.inr ⟨rfl, rfl⟩)))⟩
  | cmdCtl =>
    simp only [writeInstr, exec, execCmdCtlWr]
    cases hr : s.cmdReady
    · cases hc : triggerCheck s.cfg s.cmdBuf s.cmdBufW v with
      | ok c => exact ⟨_, rfl, .inr (.inr (.inr (.inl ⟨by simp, by simp, c, by simp, rfl⟩)))⟩
      | fault k => exact ⟨_, rfl, .inl (faulted _ _)⟩
      | refuse reason => exact ⟨_, rfl, .inr (.inl ⟨by simp, reason, rfl⟩)⟩
    · exact ⟨_, rfl, .inl (faulted _ _)⟩
  | cmdBuf k =>
    have hw : exec (writeInstr (.cmdBuf k) v) s = .next (bufWrite k v s) := by
      have hk : k = 0 ∨ k = 1 ∨ k = 2 := by omega
      rcases hk with rfl | rfl | rfl <;> rfl
    rw [hw]
    unfold bufWrite
    cases hr : s.cmdReady
    · exact ⟨_, rfl, .inr (.inr (.inl ⟨k, rfl, by simp, rfl⟩))⟩
    · exact ⟨_, rfl, .inl (faulted _ _)⟩

/-- A posted frame passed every test of the trigger (42_command_bus.md R146). -/
theorem triggerCheck_ok {p : Params} {buf : Vector Word 3} {w : Vector Bool 3} {v : Word} {c : Fin 3}
    (h : triggerCheck p buf w v = .ok c) :
    2 ≤ lengthByte buf ∧ lengthByte buf ≤ maxFrameBytes ∧ wordsWritten w (lengthByte buf) = true ∧
      c.val = chainField p v := by
  unfold triggerCheck at h
  split at h; · cases h
  split at h; · cases h
  split at h
  · split at h; · cases h
    split at h; · cases h
    split at h; · cases h
    cases h
    rename_i hl hw
    refine ⟨by omega, ?_, by simpa using hw, rfl⟩
    show lengthByte buf ≤ 12
    omega
  · cases h

/-- The frame decoder gives frames alone. -/
theorem parseFrame_language {bs : List Byte} {i : Instr} (h : parseFrame bs = .ok i) : i.language = .frame := by
  have crcCase {b : Byte} {f : BitVec 5 → Instr} (hf : ∀ c, (f c).language = .frame)
      (h : (crcField b).map f = .ok i) : i.language = .frame := by
    unfold crcField at h
    split at h
    · cases h; exact hf _
    · cases h
  unfold parseFrame at h
  split at h
  · unfold parseF5 at h
    split at h; · cases h
    split at h
    · split at h
      · cases h
      · exact crcCase (fun _ => rfl) h
    split at h
    · split at h
      · cases h
      · exact crcCase (fun _ => rfl) h
    cases h
  · unfold parseF9 at h
    split at h; · cases h
    split at h; · exact crcCase (fun _ => rfl) h
    split at h; · exact crcCase (fun _ => rfl) h
    split at h
    · split at h
      · cases h
      · exact crcCase (fun _ => rfl) h
    split at h
    · split at h
      · cases h
      · exact crcCase (fun _ => rfl) h
    cases h
  · cases h

/-- Executing a frame is transmitting its bytes. -/
theorem exec_frame {i : Instr} (h : i.language = .frame) (s : State) : exec i s = transmit (frameBytes i) s := by
  cases i <;> first | rfl | cases h

/-- What TX does with a posted frame of at most 12 bytes: it sends some bytes. -/
theorem txStep_sends (s : State) (h : s.cmdReady = true) (hl : lengthByte s.cmdBuf ≤ maxFrameBytes) :
    ∃ bytes, txStep s = .next (s.sendFrame bytes) := by
  simp only [txStep, h, if_true, Nat.not_lt.mpr hl, if_false, decode]
  cases hp : parseFrame (postedBytes s.cmdBuf) with
  | ok i => exact ⟨frameBytes i, by simp [Except.mapError, exec_frame (parseFrame_language hp), transmit, h]⟩
  | error e => exact ⟨postedBytes s.cmdBuf, by simp [Except.mapError, transmit, h]⟩

/-- What RX does: two draws recorded, and the entry of them pushed below the depth or dropped at it. -/
theorem rxPush_cases (s : State) :
    ∃ n m, ((s.nfQ.length < s.cfg.fifoDepth ∧ rxPush s =
        (s.afterDraw.afterDraw.setNonces (s.nfQ ++ [⟨n, m⟩]) s.nfPhase).record (.push n m)) ∨
      (s.cfg.fifoDepth ≤ s.nfQ.length ∧ rxPush s = s.afterDraw.afterDraw.record (.drop n m))) ∧
      n = s.nextDraw ∧ m = s.afterDraw.nextDraw := by
  refine ⟨_, _, ?_, rfl, rfl⟩
  unfold rxPush offerEntry
  by_cases h : s.nfQ.length < s.cfg.fifoDepth
  · exact .inl ⟨h, by simp [h]; rfl⟩
  · exact .inr ⟨Nat.not_lt.mp h, by simp [h]; rfl⟩

/-- The parts of the state no statement of HOST changes unless it reads NONCE_DATA; the other task is one of them, but
for HALT and FAIL. -/
def hostKeeps (st : Stmt) (s t : State) : Prop :=
  t.cfg = s.cfg ∧ sameBus s t ∧ sameNonce s t ∧ t.script = s.script ∧ t.turnNo = s.turnNo ∧ t.agenda = s.agenda ∧
    t.active = s.active ∧ t.driver = s.driver ∧ othersKept st s t

/-- A statement that touches no register of the block. -/
def hostQuiet (s t : State) : Prop :=
  sameMarks s t ∧ t.wq = s.wq ∧
    (t.hist = s.hist ∨ (s.wq = [] ∧ t.hist = s.hist ++ [.fence]) ∨ ∃ n, t.hist = s.hist ++ [.delay n])

/-- What a statement of HOST can do: nothing to the block, one fault, one refusal, one write issued, or one read
performed. -/
theorem execStmt_cases (st : Stmt) (s : State) :
    (∃ t, execStmt st s = .next t ∧ hostKeeps st s t ∧ hostQuiet s t) ∨
    (∃ k off, execStmt st s = .next (s.hostFault k off)) ∨
    execStmt st s = .next (s.raise .undef none) ∨
    (∃ r, execStmt st s = .next (s.hostRefuse r)) ∨
    (∃ r v, st.writes = true ∧ execStmt st s = .next (postWrite (regOffset s.cfg.layout r) v s)) ∨
    (∃ r d, st = .rd d (regOffset s.cfg.layout r) ∧ s.readHolds (regOffset s.cfg.layout r) = false ∧
      execStmt st s = exec (readInstr r d) s) := by
  have quiet {t : State} (h : execStmt st s = .next t) (h1 : hostKeeps st s t) (h2 : hostQuiet s t) :
      ∃ t, execStmt st s = .next t ∧ hostKeeps st s t ∧ hostQuiet s t := ⟨t, h, h1, h2⟩
  have onX (xs : Fin 8) (f : Word → State → State)
      (h : execStmt st s = .next (withX xs f s))
      (hf : ∀ v, (hostKeeps st s (f v s) ∧ hostQuiet s (f v s)) ∨ (∃ r, f v s = s.hostRefuse r)) :
      (∃ t, execStmt st s = .next t ∧ hostKeeps st s t ∧ hostQuiet s t) ∨
      (∃ k off, execStmt st s = .next (s.hostFault k off)) ∨
      execStmt st s = .next (s.raise .undef none) ∨
      (∃ r, execStmt st s = .next (s.hostRefuse r)) := by
    rw [h]
    unfold withX
    cases s.readX xs with
    | none => exact .inr (.inl ⟨_, _, rfl⟩)
    | some v =>
      rcases hf v with hv | ⟨r, hr⟩
      · exact .inl ⟨_, rfl, hv.1, hv.2⟩
      · exact .inr (.inr (.inr ⟨r, by simp [hr]⟩))
  have onBranch (taken : Word → Bool) (xs : Fin 8) (label : Nat) (hst : st.stops = none)
      (h : execStmt st s = .next (branch taken xs label s)) :
      (∃ t, execStmt st s = .next t ∧ hostKeeps st s t ∧ hostQuiet s t) ∨
      (∃ k off, execStmt st s = .next (s.hostFault k off)) ∨
      execStmt st s = .next (s.raise .undef none) ∨
      (∃ r, execStmt st s = .next (s.hostRefuse r)) := by
    rw [h]
    unfold branch
    cases s.readX xs with
    | none => exact .inr (.inr (.inl rfl))
    | some v =>
      refine .inl ⟨_, rfl, ?_⟩
      dsimp only
      split <;> simp +contextual [jump, hostKeeps, othersKept, hst, hostQuiet, sameBus, sameNonce, sameMarks]
  have lift {A B C D E F : Prop} (h : A ∨ B ∨ C ∨ D) : A ∨ B ∨ C ∨ D ∨ E ∨ F :=
    h.imp id (Or.imp id (Or.imp id Or.inl))
  have setOk (hst : st.stops = none) (d : Fin 8) (v : Word) : hostKeeps st s (setX d v s) ∧ hostQuiet s (setX d v s) := by
    simp +contextual [hostKeeps, othersKept, hst, hostQuiet, setX, sameBus, sameNonce, sameMarks]
  have issue (off : Nat) (v : Word) :
      (∃ k o, mmioWrite 32 off v s = s.hostFault k o) ∨ (∃ r, mmioWrite 32 off v s = s.hostRefuse r) ∨
        ∃ r, regOffset s.cfg.layout r = off ∧ mmioWrite 32 off v s = postWrite off v s := by
    unfold mmioWrite
    cases hc : checkAccess s.cfg.layout 32 off with
    | ok r => exact .inr (.inr ⟨r, checkAccess_ok hc, rfl⟩)
    | fault k => exact .inl ⟨k, _, rfl⟩
    | refuse r => exact .inr (.inl ⟨r, rfl⟩)
  cases st with
  | li d imm => exact .inl (quiet rfl (setOk rfl d imm).1 (setOk rfl d imm).2)
  | wr off xs =>
    simp only [execStmt, withX]
    cases s.readX xs with
    | none => exact .inr (.inl ⟨_, _, rfl⟩)
    | some v =>
      rcases issue off v with ⟨k, o, h⟩ | ⟨r, h⟩ | ⟨r, rfl, h⟩
      · exact .inr (.inl ⟨k, o, by simp [h]⟩)
      · exact .inr (.inr (.inr (.inl ⟨r, by simp [h]⟩)))
      · exact .inr (.inr (.inr (.inr (.inl ⟨r, v, rfl, by simp [h]⟩))))
  | wri off imm =>
    simp only [execStmt]
    rcases issue off imm with ⟨k, o, h⟩ | ⟨r, h⟩ | ⟨r, rfl, h⟩
    · exact .inr (.inl ⟨k, o, by simp [h]⟩)
    · exact .inr (.inr (.inr (.inl ⟨r, by simp [h]⟩)))
    · exact .inr (.inr (.inr (.inr (.inl ⟨r, imm, rfl, by simp [h]⟩))))
  | rd d off =>
    simp only [execStmt, mmioRead]
    cases hc : checkAccess s.cfg.layout 32 off with
    | ok r =>
      have := checkAccess_ok hc
      subst this
      cases hh : s.readHolds (regOffset s.cfg.layout r)
      · exact .inr (.inr (.inr (.inr (.inr ⟨r, d, rfl, hh, by simp⟩))))
      · exact .inl ⟨s, by simp, by simp [hostKeeps, othersKept, Stmt.stops, sameBus, sameNonce], by simp [hostQuiet, sameMarks]⟩
    | fault k => exact .inr (.inl ⟨k, _, rfl⟩)
    | refuse r => exact .inr (.inr (.inr (.inl ⟨r, rfl⟩)))
  | fence =>
    refine .inl ⟨_, rfl, ?_⟩
    unfold fenceStmt
    cases hw : s.wq
    · simp +contextual [hostKeeps, othersKept, Stmt.stops, hostQuiet, sameBus, sameNonce, sameMarks, hw]
    · simp +contextual [hostKeeps, othersKept, Stmt.stops, hostQuiet, sameBus, sameNonce, sameMarks, hw]
  | delay t => exact .inl ⟨_, rfl, by simp +contextual [hostKeeps, othersKept, Stmt.stops, sameBus, sameNonce], by simp [hostQuiet, sameMarks]⟩
  | andi d xs imm => exact lift (onX xs _ rfl (fun v => .inl (setOk rfl d _)))
  | ori d xs imm => exact lift (onX xs _ rfl (fun v => .inl (setOk rfl d _)))
  | addi d xs imm => exact lift (onX xs _ rfl (fun v => .inl (setOk rfl d _)))
  | slli d xs sh =>
    exact lift (onX xs _ rfl (fun v => by
      dsimp only
      split
      · exact .inl (setOk rfl d _)
      · exact .inr ⟨_, rfl⟩))
  | srli d xs sh =>
    exact lift (onX xs _ rfl (fun v => by
      dsimp only
      split
      · exact .inl (setOk rfl d _)
      · exact .inr ⟨_, rfl⟩))
  | beqz xs label => exact lift (onBranch _ xs label rfl rfl)
  | bnez xs label => exact lift (onBranch _ xs label rfl rfl)
  | j label =>
    exact .inl ⟨_, rfl, by simp +contextual [jump, hostKeeps, othersKept, Stmt.stops, sameBus, sameNonce], by simp [jump, hostQuiet, sameMarks]⟩
  | halt =>
    exact .inl ⟨_, rfl, by simp +contextual [hostKeeps, othersKept, Stmt.stops, sameBus, sameNonce], by simp [hostQuiet, sameMarks]⟩
  | fail e =>
    exact .inl ⟨_, rfl, by simp +contextual [hostKeeps, othersKept, Stmt.stops, sameBus, sameNonce], by simp [hostQuiet, sameMarks]⟩

/-- What WB's choice is: an entry of WQ with no older one for its offset. -/
theorem chooseWrite_eq_some {strict : Bool} {pick : Nat} {wq rest : List Pending} {e : Pending}
    (h : chooseWrite strict pick wq = some (e, rest)) :
    ∃ older newer, wq = older ++ e :: newer ∧ rest = older ++ newer ∧ ∀ o ∈ older, o.off ≠ e.off := by
  have from_ : ∀ (wq older : List Pending), (e, rest) ∈ takeableFrom older wq →
      ∃ o n, older ++ wq = o ++ e :: n ∧ rest = o ++ n ∧ ∀ x ∈ o, x.off ≠ e.off := by
    intro wq
    induction wq with
    | nil => intro older h; cases h
    | cons a t ih =>
      intro older h
      simp only [takeableFrom, List.mem_append] at h
      rcases h with h | h
      · split at h
        · cases h
        · rename_i hn
          simp only [List.mem_singleton, Prod.mk.injEq] at h
          obtain ⟨rfl, rfl⟩ := h
          refine ⟨older, t, rfl, rfl, fun x hx he => hn ?_⟩
          exact List.any_eq_true.mpr ⟨x, hx, by simpa using he⟩
      · simpa using ih _ h
  have hm : (e, rest) ∈ takeable strict wq := List.mem_of_getElem? h
  refine from_ wq [] ?_
  unfold takeable at hm
  split at hm
  · exact List.mem_of_mem_take hm
  · exact hm

/-- What a step of a task of HOST does: nothing (it has ended or not started), a refusal (no statement), or a
statement. -/
theorem hostStep_cases (s : State) :
    (s.host ≠ .running ∧ hostStep s = .next s) ∨
    (s.host = .running ∧ s.script[s.pc]? = none ∧ hostStep s = .next (s.refuse .noStmt)) ∨
    (s.host = .running ∧ ∃ st, s.script[s.pc]? = some st ∧ hostStep s = execStmt st s) := by
  unfold hostStep
  cases hh : s.host with
  | running =>
    cases hs : s.script[s.pc]? with
    | none => exact .inr (.inl ⟨rfl, rfl, rfl⟩)
    | some st => exact .inr (.inr ⟨rfl, st, rfl, rfl⟩)
  | idle => exact .inl ⟨by simp, rfl⟩
  | halted => exact .inl ⟨by simp, rfl⟩
  | failed e => exact .inl ⟨by simp, rfl⟩

end Sys2Proof.Machine
end

