-- ==== Sys2Proof/Laws/PerInstr.lean ====
section
/-! SUPPORT. Statements made per instruction: the length of an encoding (30_encoding.md R70, R78). -/

namespace Sys2Proof.Laws.EncodingLength

open Sys2Proof Sys2Proof.Machine

/-- The encoding of an instruction is a frame of 5 or 9 bytes whose second byte is its length (30_encoding.md R70),
or a transaction record of six bytes. -/
def Statement (i : Instr) : Prop :=
  ∀ l : CmdLayout, match i.language with
    | .frame => ((encode l i).length = 5 ∨ (encode l i).length = 9) ∧
        (encode l i)[1]? = some (BitVec.ofNat 8 (encode l i).length)
    | .transaction => (encode l i).length = 6

theorem chainInactive (crc : BitVec 5) : Statement (.chainInactive crc) := fun _ => ⟨.inl rfl, rfl⟩
theorem setAddress (addr : Byte) (crc : BitVec 5) : Statement (.setAddress addr crc) := fun _ => ⟨.inl rfl, rfl⟩
theorem writeReg (chip reg : Byte) (value : Word) (crc : BitVec 5) : Statement (.writeReg chip reg value crc) :=
  fun _ => ⟨.inr rfl, rfl⟩
theorem writeRegBc (chip reg : Byte) (value : Word) (crc : BitVec 5) : Statement (.writeRegBc chip reg value crc) :=
  fun _ => ⟨.inr rfl, rfl⟩
theorem readReg (chip reg : Byte) (crc : BitVec 5) : Statement (.readReg chip reg crc) := fun _ => ⟨.inr rfl, rfl⟩
theorem readRegBc (chip reg : Byte) (crc : BitVec 5) : Statement (.readRegBc chip reg crc) := fun _ => ⟨.inr rfl, rfl⟩
theorem nonceDataRd (d : Fin 8) : Statement (.nonceDataRd d) := fun _ => rfl
theorem nonceDataWr (v : Word) : Statement (.nonceDataWr v) := fun _ => rfl
theorem nonceCountRd (d : Fin 8) : Statement (.nonceCountRd d) := fun _ => rfl
theorem nonceCountWr (v : Word) : Statement (.nonceCountWr v) := fun _ => rfl
theorem nonceTimeoutRd (d : Fin 8) : Statement (.nonceTimeoutRd d) := fun _ => rfl
theorem nonceTimeoutWr (v : Word) : Statement (.nonceTimeoutWr v) := fun _ => rfl
theorem cmdCtlRd (d : Fin 8) : Statement (.cmdCtlRd d) := fun _ => rfl
theorem cmdCtlWr (v : Word) : Statement (.cmdCtlWr v) := fun _ => rfl
theorem cmdBuf0Rd (d : Fin 8) : Statement (.cmdBuf0Rd d) := fun _ => rfl
theorem cmdBuf0Wr (v : Word) : Statement (.cmdBuf0Wr v) := fun _ => rfl
theorem cmdBuf1Rd (d : Fin 8) : Statement (.cmdBuf1Rd d) := fun _ => rfl
theorem cmdBuf1Wr (v : Word) : Statement (.cmdBuf1Wr v) := fun _ => rfl
theorem cmdBuf2Rd (d : Fin 8) : Statement (.cmdBuf2Rd d) := fun _ => rfl
theorem cmdBuf2Wr (v : Word) : Statement (.cmdBuf2Wr v) := fun _ => rfl
theorem crcErrRd (d : Fin 8) : Statement (.crcErrRd d) := fun _ => rfl
theorem crcErrWr (v : Word) : Statement (.crcErrWr v) := fun _ => rfl

end Sys2Proof.Laws.EncodingLength
end

