-- ==== Sys2Proof/Laws/Step.lean ====
section
/-! SUPPORT. Everything a step of the machine can do, once: the moves of HOST, TX, RX and WB. -/

namespace Sys2Proof.Machine

/-- The moves an agent's turn can make from a state, one constructor per kind of step; at a turn of HOST the state is
the one with the turn's task taken up. -/
inductive Move (s : State) : Turn → State → Prop
  /-- the agent has no step -/
  | idle (turn : Turn) (h : ∀ k, turn = .host k → s.host ≠ .running) (htx : turn = .tx → s.cmdReady = false)
      (hrx : turn ≠ .rx) (hwb : ∀ pick, turn = .wb pick → chooseWrite s.cfg.strictOrder pick s.wq = none) :
      Move s turn s
  /-- HOST's pc names no statement -/
  | noStmt (hr : s.host = .running) (hs : s.script[s.pc]? = none) : Move s (.host s.active) (s.refuse .noStmt)
  /-- a statement that reaches no register of the block, or that holds -/
  | quiet (st : Stmt) (t : State) (hr : s.host = .running) (hs : s.script[s.pc]? = some st)
      (hx : execStmt st s = .next t) (hk : hostKeeps st s t) (hq : hostQuiet s t) :
      Move s (.host s.active) t
  /-- a statement that faults before it reaches a register -/
  | hostFault (st : Stmt) (k : FaultKind) (off : Option Nat) (hr : s.host = .running)
      (hs : s.script[s.pc]? = some st) (hx : execStmt st s = .next (s.hostFault k off)) :
      Move s (.host s.active) (s.hostFault k off)
  /-- a branch that faults -/
  | branchFault (st : Stmt) (hr : s.host = .running) (hs : s.script[s.pc]? = some st)
      (hx : execStmt st s = .next (s.raise .undef none)) : Move s (.host s.active) (s.raise .undef none)
  /-- a statement that is refused -/
  | hostRefuse (st : Stmt) (r : RefusalReason) (hr : s.host = .running)
      (hs : s.script[s.pc]? = some st) (hx : execStmt st s = .next (s.hostRefuse r)) :
      Move s (.host s.active) (s.hostRefuse r)
  /-- a write issued -/
  | issue (st : Stmt) (r : BlockReg) (v : Word) (hr : s.host = .running) (hs : s.script[s.pc]? = some st)
      (hw : st.writes = true) : Move s (.host s.active) (postWrite (regOffset s.cfg.layout r) v s)
  /-- a read performed -/
  | read (r : BlockReg) (d : Fin 8) (t : State) (hr : s.host = .running)
      (hs : s.script[s.pc]? = some (.rd d (regOffset s.cfg.layout r)))
      (hh : s.readHolds (regOffset s.cfg.layout r) = false) (hx : exec (readInstr r d) s = .next t) :
      Move s (.host s.active) t
  /-- the posted frame sent -/
  | send (bytes : List Byte) (hc : s.cmdReady = true) : Move s .tx (s.sendFrame bytes)
  /-- an entry offered -/
  | offer : Move s .rx (rxPush s)
  /-- a posted write performed -/
  | perform (pick : Nat) (e : Pending) (rest : List Pending) (r : BlockReg) (m : State)
      (hc : chooseWrite s.cfg.strictOrder pick s.wq = some (e, rest)) (ho : regOffset s.cfg.layout r = e.off)
      (hx : exec (writeInstr r e.value) (s.setWq rest) = .next m) :
      Move s (.wb pick) (m.record (.performed e.off e.value))
  /-- a posted write to no register of the block -/
  | performNowhere (pick : Nat) (e : Pending) (rest : List Pending)
      (hc : chooseWrite s.cfg.strictOrder pick s.wq = some (e, rest)) (ho : regAt s.cfg.layout e.off = none) :
      Move s (.wb pick) ((State.refuse .outOfBlock (s.setWq rest)).record (.performed e.off e.value))

/-- The state an agent's turn starts from: HOST takes up the task the turn names. -/
def State.forTurn (turn : Turn) (s : State) : State :=
  match turn with
  | .host k => s.activate k
  | .tx => s
  | .rx => s
  | .wb _ => s

/-- Every turn that answers a next state makes one of the moves. -/
theorem move_of_runTurn {turn : Turn} {s t : State} (h : runTurn turn s = .next t) : Move (s.forTurn turn) turn t := by
  cases turn with
  | host k =>
    change hostStep (s.activate k) = _ at h
    change Move (s.activate k) (.host (s.activate k).active) t
    generalize s.activate k = s at h ⊢
    rcases hostStep_cases s with ⟨hr, h1⟩ | ⟨hr, hs, h1⟩ | ⟨hr, st, hs, h1⟩
    · rw [h1] at h
      cases h
      exact .idle _ (fun _ _ => hr) (by simp) (by simp) (by simp)
    · rw [h1] at h
      cases h
      exact .noStmt hr hs
    · rw [h1] at h
      rcases execStmt_cases st s with ⟨t', h2, hk, hq⟩ | ⟨k, o, h2⟩ | h2 | ⟨r, h2⟩ | ⟨r, v, hw, h2⟩ | ⟨r, d, rfl, hh, h2⟩
      · rw [h2] at h
        cases h
        exact .quiet st t hr hs h2 hk hq
      · rw [h2] at h
        cases h
        exact .hostFault st k o hr hs h2
      · rw [h2] at h
        cases h
        exact .branchFault st hr hs h2
      · rw [h2] at h
        cases h
        exact .hostRefuse st r hr hs h2
      · rw [h2] at h
        cases h
        exact .issue st r v hr hs hw
      · rw [h2] at h
        exact .read r d t hr hs hh h
  | tx =>
    change txStep s = _ at h
    change Move s .tx t
    cases hc : s.cmdReady with
    | false =>
      simp only [txStep, hc] at h
      cases h
      exact .idle _ (by simp) (fun _ => hc) (by simp) (by simp)
    | true =>
      by_cases hl : lengthByte s.cmdBuf ≤ maxFrameBytes
      · obtain ⟨bytes, hb⟩ := txStep_sends s hc hl
        rw [hb] at h
        cases h
        exact .send bytes hc
      · simp [txStep, hc, Nat.not_le.mp hl] at h
  | rx =>
    cases h
    change Move s .rx _
    exact .offer
  | wb pick =>
    change wbStep pick s = _ at h
    change Move s (.wb pick) t
    cases hc : chooseWrite s.cfg.strictOrder pick s.wq with
    | none =>
      simp only [wbStep, hc] at h
      cases h
      exact .idle _ (by simp) (by simp) (by simp) (fun p hp => by cases hp; exact hc)
    | some p =>
      obtain ⟨e, rest⟩ := p
      simp only [wbStep, hc, performWrite, State.setWq_cfg] at h
      cases hr : regAt s.cfg.layout e.off with
      | none =>
        simp only [hr] at h
        cases h
        exact .performNowhere pick e rest hc hr
      | some r =>
        simp only [hr] at h
        cases hx : exec (writeInstr r e.value) (s.setWq rest) with
        | next m =>
          rw [hx] at h
          cases h
          exact .perform pick e rest r m hc ((regAt_eq_some _ _ _).mp hr) hx
        | fault f => rw [hx] at h; cases h
        | refused f => rw [hx] at h; cases h

/-- Every step that answers a next state makes a move of the agent whose turn it is. -/
theorem move_of_step {s t : State} (h : step s = .next t) : Move ((turnTaken s).forTurn (turnOf s)) (turnOf s) t :=
  move_of_runTurn h

end Sys2Proof.Machine
end

