-- ==== Sys2Proof/Laws/Trace.lean ====
section
/-! SUPPORT. The readings of HIST in Safety.lean, over a joined list and over one event. -/

namespace Sys2Proof.Machine

@[simp] theorem emitted_append (a b : List Event) : emitted (a ++ b) = emitted a ++ emitted b := by simp [emitted]
@[simp] theorem issuedAt_append (off : Nat) (a b : List Event) :
    issuedAt off (a ++ b) = issuedAt off a ++ issuedAt off b := by simp [issuedAt]
@[simp] theorem performedAt_append (off : Nat) (a b : List Event) :
    performedAt off (a ++ b) = performedAt off a ++ performedAt off b := by simp [performedAt]
@[simp] theorem readAt_append (off : Nat) (a b : List Event) : readAt off (a ++ b) = readAt off a ++ readAt off b := by
  simp [readAt]
@[simp] theorem pushed_append (a b : List Event) : pushed (a ++ b) = pushed a ++ pushed b := by simp [pushed]
@[simp] theorem pendingAt_append (off : Nat) (a b : List Pending) :
    pendingAt off (a ++ b) = pendingAt off a ++ pendingAt off b := by simp [pendingAt]
@[simp] theorem entryWords_append (a b : List Entry) : entryWords (a ++ b) = entryWords a ++ entryWords b := by
  simp [entryWords]
@[simp] theorem elapsed_append (a b : List Event) : elapsed (a ++ b) = elapsed a + elapsed b := by simp [elapsed]

@[simp] theorem emitted_cons (e : Event) (h : List Event) : emitted (e :: h) =
    (match e with
      | .emit c bytes => [(c, bytes)]
      | _ => []) ++ emitted h := by cases e <;> rfl
@[simp] theorem issuedAt_cons (off : Nat) (e : Event) (h : List Event) : issuedAt off (e :: h) =
    (match e with
      | .issued o v => if o = off then [v] else []
      | _ => []) ++ issuedAt off h := by
  cases e <;> first | rfl | (simp only [issuedAt, List.filterMap_cons]; split <;> rename_i x <;> split at x <;> simp_all)
@[simp] theorem performedAt_cons (off : Nat) (e : Event) (h : List Event) : performedAt off (e :: h) =
    (match e with
      | .performed o v => if o = off then [v] else []
      | _ => []) ++ performedAt off h := by
  cases e <;> first | rfl | (simp only [performedAt, List.filterMap_cons]; split <;> rename_i x <;> split at x <;> simp_all)
@[simp] theorem readAt_cons (off : Nat) (e : Event) (h : List Event) : readAt off (e :: h) =
    (match e with
      | .read o v => if o = off then [v] else []
      | _ => []) ++ readAt off h := by
  cases e <;> first | rfl | (simp only [readAt, List.filterMap_cons]; split <;> rename_i x <;> split at x <;> simp_all)
@[simp] theorem pushed_cons (e : Event) (h : List Event) : pushed (e :: h) =
    (match e with
      | .push n m => [Entry.mk n m]
      | _ => []) ++ pushed h := by cases e <;> rfl
@[simp] theorem pendingAt_cons (off : Nat) (e : Pending) (q : List Pending) :
    pendingAt off (e :: q) = (if e.off = off then [e.value] else []) ++ pendingAt off q := by
  simp only [pendingAt, List.filterMap_cons]
  split <;> rename_i x <;> split at x <;> simp_all
@[simp] theorem entryWords_cons (e : Entry) (q : List Entry) : entryWords (e :: q) = e.nonce :: e.metadata :: entryWords q := by
  simp [entryWords]

@[simp] theorem emitted_nil : emitted [] = [] := rfl
@[simp] theorem issuedAt_nil (off : Nat) : issuedAt off [] = [] := rfl
@[simp] theorem performedAt_nil (off : Nat) : performedAt off [] = [] := rfl
@[simp] theorem readAt_nil (off : Nat) : readAt off [] = [] := rfl
@[simp] theorem pushed_nil : pushed [] = [] := rfl
@[simp] theorem pendingAt_nil (off : Nat) : pendingAt off [] = [] := rfl
@[simp] theorem entryWords_nil : entryWords [] = [] := rfl
@[simp] theorem elapsed_nil : elapsed [] = 0 := rfl

end Sys2Proof.Machine
end

