-- ==== Sys2Proof/Tests/Slice0.lean ====
section
/-! SUPPORT. The model's own tests, their results taken from spec/ (95_test_vectors.md where no other file is
named), and for each obligation with hypotheses a witness that meets them. -/

namespace Sys2Proof.Tests

open Sys2Proof Sys2Proof.Machine

/-! ## Small states -/

/-- The parameters the vectors of 95_test_vectors.md use, with a FIFO of two entries. -/
def params : Params where
  layout := .trigFirst
  readyBit := 31
  chainLsb := 16
  chainWidth := 4
  ctlExtra := 0x00800000
  fifoDepth := 2
  timeoutReset := 0x55
  strictOrder := false
  faultAdvancesPc := true

/-- The reset state under those parameters. -/
def lab : State := State.resetWith params

/-- A buffer holding these words, the first `n` of them written. -/
def withBuffer (w0 w1 w2 : Word) (n : Nat) (s : State) : State :=
  { s with cmdBuf := #v[w0, w1, w2], cmdBufW := #v[0 < n, 1 < n, 2 < n] }

/-- Vector FR1 in the buffer, all three words written. -/
def withFr1 (s : State) : State := withBuffer 0x53050000 0x03000000 0x00000000 3 s

/-- The same with the frame posted to chain 0. -/
def posted : State := { withFr1 lab with cmdReady := true }

/-- Vector NF3: one entry, and whether its nonce word has been read. -/
def withEntry (half : Bool) : State := { lab with nfQ := [⟨0x12345678, 0x01020304⟩], nfPhase := half }

/-- One statement to run, with a scratch register written. -/
def withStmt (st : Stmt) (r : Fin 8) (v : Word) : State := { lab.writeX r v with main := ⟨0, [st], .running⟩ }

/-- A part of the next state, or nothing where there is none. -/
def after {α : Type} (f : State → α) : Host.Outcome State Fault Refusal → Option α
  | .next s => some (f s)
  | .fault _ => none
  | .refused _ => none

/-! ## WellFormed: a frame with a wrong CRC is refused, one of each kind; the right one is not -/

theorem test_wf_chainInactive :
    (Instr.chainInactive 0x04).wellFormed = false ∧ (Instr.chainInactive 0x03).wellFormed = true := by decide +kernel
theorem test_wf_setAddress :
    (Instr.setAddress 0x55 0x0B).wellFormed = false ∧ (Instr.setAddress 0x55 0x0A).wellFormed = true := by decide +kernel
theorem test_wf_writeReg : (Instr.writeReg 0x00 0x00 0x12345678 0x08).wellFormed = false ∧
    (Instr.writeReg 0x00 0x00 0x12345678 0x09).wellFormed = true := by decide +kernel
theorem test_wf_writeRegBc : (Instr.writeRegBc 0x00 0x14 0xFFFFFFFF 0x18).wellFormed = false ∧
    (Instr.writeRegBc 0x00 0x14 0xFFFFFFFF 0x19).wellFormed = true := by decide +kernel
theorem test_wf_readReg : (Instr.readReg 0x10 0x08 0x00).wellFormed = false ∧
    (Instr.readReg 0x10 0x08 0x02).wellFormed = true := by decide +kernel
theorem test_wf_readRegBc : (Instr.readRegBc 0x00 0x08 0x08).wellFormed = false ∧
    (Instr.readRegBc 0x00 0x08 0x09).wellFormed = true := by decide +kernel

/-! ## CRC5, vectors C1 to C14 and R110 -/

theorem test_crc_seed : crc5 [] 0 = .ok 0x1F := by decide
theorem test_crc_one_bit : crc5 [0x00] 1 = .ok 0x1B ∧ crc5 [0x80] 1 = .ok 0x1E := by decide
theorem test_crc_part_of_a_byte : crc5 [0x53] 5 = .ok 0x0B ∧ crc5 [0x53, 0x05] 12 = .ok 0x03 := by decide
theorem test_crc_bytes : crc5 [0x00] 8 = .ok 0x0F ∧ crc5 [0xFF] 8 = .ok 0x1B ∧ crc5 [0x80] 8 = .ok 0x01 := by decide
theorem test_crc_chain_inactive : crc5 [0x53, 0x05, 0x00, 0x00] 32 = .ok 0x03 := by decide +kernel
theorem test_crc_whole_frame : crc5 [0x53, 0x05, 0x00, 0x00, 0x03] 40 = .ok 0x18 := by decide +kernel
theorem test_crc_too_long : crc5 [0x53, 0x05, 0x00, 0x00] 33 = .error .crcLen := by decide

/-! ## Decoding: each constructor from a word written out by 30_encoding.md R73 and R88 -/

theorem test_decode_chainInactive : decodeTableWord 40 0x5305000003 = some (.chainInactive 0x03) := by decide
theorem test_decode_setAddress : decodeTableWord 40 0x400555000A = some (.setAddress 0x55 0x0A) := by decide
theorem test_decode_writeReg :
    decodeTableWord 72 0x41095508005401001A = some (.writeReg 0x55 0x08 0x00540100 0x1A) := by decide
theorem test_decode_writeRegBc :
    decodeTableWord 72 0x51097E14FFFFFFFF07 = some (.writeRegBc 0x7E 0x14 0xFFFFFFFF 0x07) := by decide
theorem test_decode_readReg : decodeTableWord 72 0x420910080000000002 = some (.readReg 0x10 0x08 0x02) := by decide
theorem test_decode_readRegBc : decodeTableWord 72 0x520900080000000009 = some (.readRegBc 0x00 0x08 0x09) := by decide
theorem test_decode_nonceData : decodeTableWord 16 0x0010 = some (.nonceDataRd 0) ∧
    decodeTableWord 16 0x2010 = some (.nonceDataWr 0) := by decide
theorem test_decode_nonceCount : decodeTableWord 16 0x0018 = some (.nonceCountRd 0) ∧
    decodeTableWord 16 0x2018 = some (.nonceCountWr 0) := by decide
theorem test_decode_nonceTimeout : decodeTableWord 16 0x008C = some (.nonceTimeoutRd 0) ∧
    decodeTableWord 16 0x208C = some (.nonceTimeoutWr 0) := by decide
theorem test_decode_cmdCtl : decodeTableWord 16 0x00C0 = some (.cmdCtlRd 0) ∧
    decodeTableWord 16 0x20C0 = some (.cmdCtlWr 0) := by decide
theorem test_decode_cmdBuf0 : decodeTableWord 16 0x00C4 = some (.cmdBuf0Rd 0) ∧
    decodeTableWord 16 0x20C4 = some (.cmdBuf0Wr 0) := by decide
theorem test_decode_cmdBuf1 : decodeTableWord 16 0x00C8 = some (.cmdBuf1Rd 0) ∧
    decodeTableWord 16 0x20C8 = some (.cmdBuf1Wr 0) := by decide
theorem test_decode_cmdBuf2 : decodeTableWord 16 0x00CC = some (.cmdBuf2Rd 0) ∧
    decodeTableWord 16 0x20CC = some (.cmdBuf2Wr 0) := by decide
theorem test_decode_crcErr : decodeTableWord 16 0x00F8 = some (.crcErrRd 0) ∧
    decodeTableWord 16 0x20F8 = some (.crcErrWr 0) := by decide
theorem test_decode_operand : decodeTableWord 16 0x8000851F20C4 = some (.cmdBuf0Wr 0x8000851F) ∧
    decodeTableWord 16 0x000000050018 = some (.nonceCountRd 5) := by decide
/-- The TRIG_LAST codes of the opcode table's fields. -/
theorem test_decode_trigLast : decode .trigLast .transaction [0xCC, 0x20, 0, 0, 0, 0] = .ok (.cmdCtlWr 0) ∧
    decode .trigLast .transaction [0xC0, 0x20, 0, 0, 0, 0] = .ok (.cmdBuf0Wr 0) := by decide
theorem test_encode : encode .trigFirst (.writeRegBc 0x00 0x18 0x8000851F 0x0D) =
      [0x51, 0x09, 0x00, 0x18, 0x80, 0x00, 0x85, 0x1F, 0x0D] ∧
    encode .trigFirst (.cmdCtlWr 0x80820000) = [0xC0, 0x20, 0x00, 0x00, 0x82, 0x80] := by decide

/-! ## What the decoders reject, vectors DF4 to DF14 and M1 to M8 -/

theorem test_reject_length : decodeFrame [0x53, 0x05, 0x00, 0x00] = .error .badLength ∧
    decodeFrame [0x53, 0x05, 0x00, 0x00, 0x03, 0, 0, 0, 0, 0] = .error .badLength ∧
    decodeFrame [0x53, 0x09, 0x00, 0x00, 0x03] = .error .lengthMismatch := by decide
theorem test_reject_header : decodeFrame [0x41, 0x05, 0x00, 0x00, 0x15] = .error .badHeader ∧
    decodeFrame [0x50, 0x05, 0x00, 0x00, 0x18] = .error .badHeader ∧
    decodeFrame [0x52, 0x05, 0x00, 0x00, 0x0A] = .error .badHeader := by decide
theorem test_reject_reserved : decodeFrame [0x53, 0x05, 0x00, 0x01, 0x06] = .error .nonzeroReserved ∧
    decodeFrame [0x53, 0x05, 0x01, 0x00, 0x1F] = .error .nonzeroReserved ∧
    decodeFrame [0x42, 0x09, 0, 0, 0, 0, 0, 0x01, 0x1E] = .error .nonzeroReserved := by decide
theorem test_reject_crc : decodeFrame [0x53, 0x05, 0x00, 0x00, 0x04] = .error .badCrc ∧
    decodeFrame [0x53, 0x05, 0x00, 0x00, 0xE3] = .error .badCrc := by decide +kernel
theorem test_reject_transaction : decode .trigFirst .transaction [0x11, 0, 0, 0, 0, 0] = .error (.transaction .misaligned) ∧
    decode .trigFirst .transaction [0x00, 0x12, 0, 0, 0, 0] = .error (.transaction .outOfRange) ∧
    decode .trigFirst .transaction [0x34, 0x20, 0, 0, 0, 0] = .error (.transaction .outOfBlock) ∧
    decode .trigFirst .transaction [0x10, 0x40, 0, 0, 0, 0] = .error (.transaction .reservedCode) ∧
    decode .trigFirst .transaction [0x10, 0, 8, 0, 0, 0] = .error (.transaction .badRegister) ∧
    decode .trigFirst .transaction [0x10, 0] = .error (.transaction .badRecordLength) := by decide

/-! ## The framer, vectors FR1 to FR30 -/

theorem test_frame_words : frameWords .chainInactive = .ok #v[0x53050000, 0x03000000, 0] ∧
    frameWords (.setAddress 0xE2) = .ok #v[0x4005E200, 0x08000000, 0] ∧
    frameWords (.writeReg 0xFF 0xFF 0xFFFFFFFF) = .ok #v[0x4109FFFF, 0xFFFFFFFF, 0x1B000000] := by decide +kernel
theorem test_frame_words_of_reads : frameWords (.writeRegBc 0x08 0x00540100) = .ok #v[0x51090008, 0x00540100, 0x1B000000] ∧
    frameWords (.readReg 0xAA 0x00) = .ok #v[0x4209AA00, 0, 0x09000000] ∧
    frameWords (.readRegBc 0x00) = .ok #v[0x52090000, 0, 0x13000000] := by decide +kernel
theorem test_framer_refuses : framer (.setAddress 0x100) = .error (.fail .validationError) ∧
    framer (.writeReg 0x00 0x100 0) = .error (.fail .validationError) ∧
    framer (.unknown 7) = .error (.refuse .kind) ∧ (callFramer (.unknown 7) lab).2.refused = true := by decide

/-! ## Commands, one step each: vectors CB1 to CB21 -/

theorem test_chainInactive_sent : after (fun t => (t.hist, t.cmdReady)) (exec (.chainInactive 0x03) posted) =
    some ([.emit 0 [0x53, 0x05, 0x00, 0x00, 0x03]], false) := by decide
theorem test_setAddress_too_soon :
    after (fun t => (t.hist, t.faults)) (exec (.setAddress 0x02 0x01)
      { posted with hist := [.emit 0 [0x40, 0x05, 0x00, 0x00, 0x1C], .delay 9999] }) =
    some ([.emit 0 [0x40, 0x05, 0x00, 0x00, 0x1C], .delay 9999, .fault .hazard none,
      .emit 0 [0x40, 0x05, 0x02, 0x00, 0x01]], [.hazard]) := by decide
theorem test_setAddress_settled :
    after (fun t => t.faults) (exec (.setAddress 0x02 0x01)
      { posted with hist := [.emit 0 [0x40, 0x05, 0x00, 0x00, 0x1C], .delay 5000, .delay 5000] }) = some [] := by decide
theorem test_writeReg_sent : after (fun t => t.hist) (exec (.writeReg 0x02 0x18 0x8000851F 0x1A) posted) =
    some [.emit 0 [0x41, 0x09, 0x02, 0x18, 0x80, 0x00, 0x85, 0x1F, 0x1A]] := by decide
theorem test_writeRegBc_sent : after (fun t => t.hist)
      (exec (.writeRegBc 0x00 0x14 0xFFFFFFFF 0x19) { posted with cmdChain := 2 }) =
    some [.emit 2 [0x51, 0x09, 0x00, 0x14, 0xFF, 0xFF, 0xFF, 0xFF, 0x19]] := by decide
theorem test_readReg_sent : after (fun t => t.hist) (exec (.readReg 0x10 0x08 0x02) posted) =
    some [.emit 0 [0x42, 0x09, 0x10, 0x08, 0x00, 0x00, 0x00, 0x00, 0x02]] := by decide
theorem test_readRegBc_sent : after (fun t => t.hist) (exec (.readRegBc 0x00 0x08 0x09) posted) =
    some [.emit 0 [0x52, 0x09, 0x00, 0x08, 0x00, 0x00, 0x00, 0x00, 0x09]] := by decide
theorem test_cmdBuf0Wr_stores : after (fun t => (t.cmdBuf[0], t.cmdBufW[0], t.cmdBufW[1]))
    (exec (.cmdBuf0Wr 0x53050000) lab) = some (0x53050000, true, false) := by decide
theorem test_cmdBuf1Wr_busy : after (fun t => (t.hist, t.cmdBuf[1])) (exec (.cmdBuf1Wr 0) posted) =
    some ([.fault .busy (some 0x0C8)], 0x03000000) := by decide
theorem test_cmdBuf2Wr_stores : after (fun t => (t.cmdBuf[2], t.cmdBufW[2])) (exec (.cmdBuf2Wr 0x19000000) lab) =
    some (0x19000000, true) := by decide
theorem test_cmdBufRd_draws : after (fun t => t.drawNo) (exec (.cmdBuf0Rd 1) lab) = some 1 ∧
    after (fun t => t.xW[2]) (exec (.cmdBuf1Rd 2) lab) = some true ∧
    after (fun t => t.pc) (exec (.cmdBuf2Rd 3) lab) = some 1 := by decide
theorem test_cmdCtlWr_posts : after (fun t => (t.cmdReady, t.cmdChain)) (exec (.cmdCtlWr 0x80820000) (withFr1 lab)) =
    some (true, 2) := by decide
theorem test_cmdCtlWr_checks :
    after (fun t => t.hist) (exec (.cmdCtlWr 0x80830000) posted) = some [.fault .busy (some 0x0C0)] ∧
    after (fun t => t.hist) (exec (.cmdCtlWr 0x00800000) (withFr1 lab)) = some [.refuse .trigForm] ∧
    after (fun t => t.hist) (exec (.cmdCtlWr 0x80800001) (withFr1 lab)) = some [.refuse .trigForm] ∧
    after (fun t => t.hist) (exec (.cmdCtlWr 0x808F0000) (withFr1 lab)) = some [.fault .chain (some 0x0C0)] ∧
    after (fun t => t.hist) (exec (.cmdCtlWr 0x80830000) lab) = some [.fault .chain (some 0x0C0)] ∧
    after (fun t => t.hist) (exec (.cmdCtlWr 0x80800000) lab) = some [.fault .unwritten (some 0x0C0)] := by decide
theorem test_cmdCtlWr_length :
    after (fun t => t.faults) (exec (.cmdCtlWr 0x80800000) (withBuffer 0x53010000 0 0 1 lab)) = some [.len] ∧
    after (fun t => t.faults) (exec (.cmdCtlWr 0x80800000) (withBuffer 0x530D0000 0 0 1 lab)) = some [.len] ∧
    after (fun t => t.cmdReady) (exec (.cmdCtlWr 0x80800000) (withBuffer 0x530C0000 0 0 3 lab)) = some true ∧
    after (fun t => t.cmdReady) (exec (.cmdCtlWr 0x80800000) (withBuffer 0x53050000 0x03000000 0 2 lab)) = some true ∧
    after (fun t => t.faults) (exec (.cmdCtlWr 0x80800000) (withBuffer 0x51090014 0xFFFFFFFF 0 2 lab)) =
      some [.unwritten] := by decide
theorem test_cmdCtlRd_ready : statusWord params 0x7FFFFFFF true = 0xFFFFFFFF ∧
    statusWord params 0xFFFFFFFF false = 0x7FFFFFFF := by decide

/-! ## The nonce path, one step each: vectors NF1 to NF18 -/

theorem test_nonceDataRd_halves :
    after (fun t => (t.x[0], t.nfPhase, t.nfQ.length, t.pc)) (exec (.nonceDataRd 0) (withEntry false)) =
      some (0x12345678, true, 1, 1) ∧
    after (fun t => (t.x[1], t.nfPhase, t.nfQ)) (exec (.nonceDataRd 1) (withEntry true)) =
      some (0x01020304, false, []) := by decide
theorem test_nonceDataRd_empty : after (fun t => (t.hist, t.faults, t.xW[0])) (exec (.nonceDataRd 0) lab) =
    some ([.fault .empty (some 0x010)], [.empty], false) := by decide
theorem test_nonceDataWr_faults : after (fun t => t.hist) (exec (.nonceDataWr 0) lab) =
    some [.fault .ro (some 0x010)] := by decide
theorem test_nonceCountRd_field : countWord 0xFFFFFFFF 2 = 0xFFFF8002 ∧ visibleCount (withEntry false) = 1 := by decide
theorem test_nonceCountWr_faults : after (fun t => t.hist) (exec (.nonceCountWr 0) lab) =
    some [.fault .ro (some 0x018)] := by decide
theorem test_nonceTimeoutRd_reset : after (fun t => t.x[4]) (exec (.nonceTimeoutRd 4) lab) = some 0x55 := by decide
theorem test_nonceTimeoutWr_stores : after (fun t => t.nonceTimeout) (exec (.nonceTimeoutWr 0x100) lab) =
    some 0x100 := by decide
theorem test_crcErrRd_draws : after (fun t => (t.drawNo, t.xW[6])) (exec (.crcErrRd 6) lab) = some (1, true) := by decide
theorem test_crcErrWr_faults : after (fun t => t.hist) (exec (.crcErrWr 0) lab) =
    some [.fault .ro (some 0x0F8)] := by decide
theorem test_rx_drop : (offerEntry ⟨0xAAAAAAAA, 0⟩ { lab with nfQ := [⟨1, 2⟩, ⟨3, 4⟩] }).hist = [.drop 0xAAAAAAAA 0] ∧
    (offerEntry ⟨5, 6⟩ (withEntry true)).nfQ = [⟨0x12345678, 0x01020304⟩, ⟨5, 6⟩] := by decide
theorem test_deframe : deframe 0x12345678 0x01020304 = ⟨0x12345678, 1, 2, 3, 4⟩ ∧
    deframe 0 0x02710005 = ⟨0, 2, 0x71, 0, 5⟩ := by decide

/-! ## The host script and the access checks: vectors H1 to H14, M1 to M12 -/

theorem test_alu : after (fun t => t.x[1]) (execStmt (.andi 1 1 0x7FFF) (withStmt .halt 1 0x80000123)) = some 0x123 ∧
    after (fun t => t.x[1]) (execStmt (.ori 1 1 0x80000000) (withStmt .halt 1 0x100)) = some 0x80000100 ∧
    after (fun t => t.x[7]) (execStmt (.addi 7 7 0xFFFFFFFF) (withStmt .halt 7 0)) = some 0xFFFFFFFF := by decide
theorem test_shift : after (fun t => t.x[2]) (execStmt (.srli 2 1 24) (withStmt .halt 1 0x01020304)) = some 0x01 ∧
    after (fun t => t.x[2]) (execStmt (.slli 2 1 8) (withStmt .halt 1 0x01020304)) = some 0x02030400 ∧
    after (fun t => t.hist) (execStmt (.slli 2 1 32) (withStmt .halt 1 1)) = some [.refuse .shift] := by decide
theorem test_unwritten : after (fun t => (t.hist, t.xW[1])) (execStmt (.andi 1 3 1) lab) =
    some ([.fault .undef none], false) := by decide
theorem test_branch : after (fun t => t.pc) (execStmt (.beqz 6 9) (withStmt .halt 6 0)) = some 9 ∧
    after (fun t => t.pc) (execStmt (.bnez 7 9) (withStmt .halt 7 3)) = some 9 := by decide
/-- R240: a branch on an unwritten register leaves the pc. -/
theorem test_branch_fault : after (fun t => (t.pc, t.faults)) (execStmt (.beqz 6 9) lab) = some (0, [.undef]) ∧
    after (fun t => (t.pc, t.faults)) (execStmt (.bnez 6 9) lab) = some (0, [.undef]) := by decide
theorem test_no_statement : after (fun t => t.hist) (hostStep lab) = some [.refuse .noStmt] ∧
    (loadScript [.j 1] lab).hist = [.refuse .noStmt] := by decide
/-- Two tasks, each with its own script and pc (60_exceptions.md R257). -/
def twoTasks : State := loadTask .drainer [.delay 5, .halt] (loadTask .main [.delay 7, .halt] lab)
theorem test_two_tasks : after (fun t => (t.hist, t.main.pc, t.drainer.pc)) (runTurn (.host .drainer) twoTasks) =
      some ([.delay 5], 0, 1) ∧
    after (fun t => (t.hist, t.main.pc, t.drainer.pc)) (runTurn (.host .main) twoTasks) = some ([.delay 7], 1, 0) ∧
    after (fun t => t.hist) (runTurn (.host .drainer) lab) = some [] := by decide
/-- R183 and R61: a pair of reads, a read that holds, and one of an empty FIFO. -/
theorem test_collect : (collectSteps 2 (.atNonce 1 []) (withEntry false)).1 = .done [⟨0x12345678, 1, 2, 3, 4⟩] ∧
    collectStep .counting { lab with wq := [⟨0x018, 0⟩] } = (.counting, { lab with wq := [⟨0x018, 0⟩] }) ∧
    (collectStep (.atNonce 1 []) lab).1 = .stopped [] ∧ (collectStep (.atNonce 1 []) lab).2.faults = [.empty] := by decide
theorem test_fence : after (fun t => t.hist) (execStmt .fence { lab with wq := [⟨0x08C, 1⟩] }) = some [] ∧
    after (fun t => t.hist) (execStmt .fence lab) = some [.fence] := by decide
theorem test_access_checks : checkAccess .trigFirst 32 0x011 = .fault .align ∧
    checkAccess .trigFirst 32 0x1200 = .fault .range ∧ checkAccess .trigFirst 32 0x1201 = .fault .align ∧
    checkAccess .trigFirst 32 0x11FC = .refuse .outOfBlock ∧ checkAccess .trigFirst 16 0x010 = .refuse .width := by decide
theorem test_write_order : chooseWrite false 0 [⟨0x0C4, 1⟩, ⟨0x0C4, 2⟩] = some (⟨0x0C4, 1⟩, [⟨0x0C4, 2⟩]) ∧
    chooseWrite false 1 [⟨0x0C4, 1⟩, ⟨0x0C4, 2⟩] = some (⟨0x0C4, 1⟩, [⟨0x0C4, 2⟩]) ∧
    chooseWrite false 1 [⟨0x0C8, 1⟩, ⟨0x0C4, 2⟩] = some (⟨0x0C4, 2⟩, [⟨0x0C8, 1⟩]) ∧
    chooseWrite true 1 [⟨0x0C8, 1⟩, ⟨0x0C4, 2⟩] = some (⟨0x0C8, 1⟩, [⟨0x0C4, 2⟩]) := by decide
theorem test_read_holds : after (fun t => t.pc) (execStmt (.rd 0 0x08C) { lab with wq := [⟨0x08C, 7⟩] }) = some 0 ∧
    after (fun t => t.pc) (execStmt (.rd 0 0x08C) { lab with wq := [⟨0x0C4, 7⟩] }) = some 1 := by decide

/-! ## Payloads: vectors PY1 to PY30 -/

theorem test_baud : baudDivisor 115200 = .ok 26 ∧ baudDivisor 9600 = .ok 324 ∧ baudDivisor 6092 = .ok 511 ∧
    baudDivisor 6091 = .error .validationError ∧ baudDivisor 3000001 = .ok 15 ∧ baudDivisor 50000000 = .ok 0 ∧
    baudDivisor 50000001 = .error .validationError ∧ baudDivisor 0 = .error .validationError := by decide
theorem test_vco : vcoCheck 0 63 = .error .validationError ∧ vcoCheck 0 64 = .ok false ∧ vcoCheck 0 84 = .ok false ∧
    vcoCheck 0 96 = .ok true ∧ vcoCheck 0 128 = .ok true ∧ vcoCheck 0 129 = .error .validationError := by decide
theorem test_enumeration : enumAddresses 1 = .ok [0] ∧ enumAddresses 3 = .ok [0, 85, 170] ∧
    enumInterval 114 = 2 ∧ enumInterval 129 = 1 ∧ enumAddresses 257 = .error .validationError := by decide
theorem test_regmap : regMapLookup true 16 = .ok 0x040 ∧ regMapLookup true 17 = .ok 0x040 ∧
    regMapLookup true 110 = .error .validationError ∧ regMapLookup false 13 = .error .validationError := by decide
/-- A phase started and completed. -/
def passed (ph : Phase) (d : Driver) : Driver := ((d.started ph).ended ph (.completed none)).2

/-- The driver of a boot for chain 1 once device open has completed, and once its chain is Ready. -/
def afterOpen : Driver := passed (.deviceOpen [1]) .fresh
def afterChain : Driver := passed (.configure 1 114 525) (passed (.softReset 1) (passed (.hardwareReset 1) afterOpen))

/-- The machine with a driver's records. -/
def withDriver (d : Driver) (s : State) : State := { s with driver := d }

/-- R274, R275, R286: nothing starts before device open or while a phase runs, and the work-control step waits for the
chains. -/
theorem test_boot_order : (startPhase .leftOut (.softReset 0) lab).1 = some .validationError ∧
    lab.driver.mayStart (.deviceOpen [1]) = true ∧
    (lab.driver.started (.deviceOpen [1])).mayStart (.hardwareReset 1) = false ∧
    afterOpen.mayStart (.hardwareReset 1) = true ∧ afterOpen.mayStart (.hardwareReset 0) = false ∧
    afterOpen.mayStart .workControl = false ∧ afterChain.mayStart .workControl = true ∧
    (startPhase .leftOut (.deviceOpen [1]) { lab with drainer := ⟨0, [.halt], .running⟩ }).1 = some .validationError := by
  decide +kernel

/-- R279, R246: the result of a phase is taken once, a Ready chain has its count and interval, a failed stage fails the
chain, and a warning does not. -/
theorem test_chain_controller : afterChain.chains[1].chipCount = 114 ∧ afterChain.chains[1].interval = 2 ∧
    (endPhase { lab with driver := afterChain, main := ⟨0, [.halt], .halted⟩ }) = none ∧
    (Driver.ended (.softReset 1) (.failed .commandTimeout) afterOpen).1 = some .chainInitFailure ∧
    (Driver.ended (.configure 1 114 600) (.completed (phaseWarning (.configure 1 114 600))) afterOpen).1 =
      some .unsupportedFrequency ∧
    phaseEnd none .running = none := by decide +kernel

/-- R274, R276: a device open that leaves out the accesses outside the block is three statements, and its HALT lets the
chains begin. -/
theorem test_device_open : (startPhase .leftOut (.deviceOpen [1]) lab).2.main =
      ⟨0, [.delay 10000, .delay 10000, .halt], .running⟩ ∧
    after (fun t => (endPhase t).map (fun r => (r.1, r.2.driver.mayStart (.hardwareReset 1))))
        (execStmt .halt (startPhase .leftOut (.deviceOpen [1]) lab).2) = some (some (none, true)) := by decide +kernel

/-- R234, R257: HALT stops both tasks. -/
theorem test_halt : after (fun t => (t.main.status, t.drainer.status)) (execStmt .halt twoTasks) =
    some (.halted, .halted) := by decide

/-- R153: more than 12 bytes touch no hardware. -/
theorem test_send_length : (sendBytes params (List.replicate 13 0) 0).toOption.isNone = true ∧
    (sendBytes params (List.replicate 12 0) 0).toOption.isSome = true := by decide +kernel

/-- R209, R246: a frequency that is not validated is logged whatever becomes of its phase, and so is a timeout of the
soft step. -/
theorem test_driver_log : (afterOpen.logged (phaseWarning (.configure 1 114 600)).toList).log = [.unsupportedFrequency] ∧
    (endPhase (withDriver (afterOpen.started (.configure 1 114 525)) { lab with
        x := lab.x.set 3 2, xW := lab.xW.set 3 true, main := ⟨0, [.halt], .failed .commandTimeout⟩ })).map
      (fun r => (r.1, r.2.driver.log)) = some (some .chainInitFailure, [.commandTimeout]) := by decide +kernel

/-- NF13, NF14: the expected nonce is little-endian. -/
def recordWith (b88 b89 b90 b91 : Byte) : PatternRecord :=
  recordOf ((((Vector.replicate 116 0).set 88 b88).set 89 b89 |>.set 90 b90).set 91 b91)
theorem test_correlation :
    correlate [(recordWith 0x78 0x56 0x34 0x12, 4)] ⟨0x12345678, 0, 0, 0, 4⟩ = .matched 0 false ∧
    correlate [(recordWith 0x12 0x34 0x56 0x78, 4)] ⟨0x12345678, 0, 0, 0, 4⟩ = .noMatch ∧
    correlate [(recordWith 0x78 0x56 0x34 0x12, 5)] ⟨0x12345678, 0, 0, 0, 4⟩ = .matched 0 true := by decide +kernel

/-- P1 of 95_test_vectors.md: the sixteen statements of SEND. -/
theorem test_send : (send params .chainInactive 0).map (fun p => p 0) = .ok
    [.wri 0x0C4 0x53050000, .fence, .wri 0x0C8 0x03000000, .fence, .wri 0x0CC 0, .fence, .wri 0x0C0 0x80800000, .fence,
     .li 7 10000, .rd 6 0x0C0, .andi 6 6 0x80000000, .beqz 6 16, .delay 1, .addi 7 7 0xFFFFFFFF, .bnez 7 9,
     .fail .commandTimeout] := by decide +kernel

/-! ## Witnesses: for each obligation with hypotheses, states and operands that meet them -/

/-- A machine that answers a next state. -/
def steps (s : State) : Prop := ∃ t, step s = .next t

/-- The state with these turns next. -/
def withTurns (ts : List Turn) (s : State) : State := { s with agenda := ts }

theorem test_witness_CrcResidueIsZero : crc5 [0x53, 0x05, 0x00, 0x00] 32 = .ok 0x03 ∧
    crc5Bits (bitsOf [0x53, 0x05, 0x00, 0x00] ++ [false, false, false, true, true]) = 0 := by decide +kernel
theorem test_witness_CrcAffineAndErrorDetection :
    (bitsOf [0x53, 0x05, 0x00, 0x00, 0x03]).length = (bitsOf [0xFF, 0x00, 0xFF, 0x00, 0xFF]).length ∧
    (0 : Nat) < (bitsOf [0x53, 0x05, 0x00, 0x00, 0x03]).length ∧
    8 + 31 < (bitsOf [0x53, 0x05, 0x00, 0x00, 0x03]).length ∧
    (0 : Nat) < 30 ∧ 30 < 0 + 31 ∧ 30 < (bitsOf [0x53, 0x05, 0x00, 0x00, 0x03]).length := by decide
theorem test_witness_FramerChecksInOrder : operandsFit (.setAddress 0x100) = false ∧
    operandsFit (.setAddress 0xFF) = true ∧ (∀ k, FrameRequest.setAddress 0xFF ≠ .unknown k) :=
  ⟨by decide, by decide, by simp⟩
theorem test_witness_FramerOutputDecodes : framer .chainInactive = .ok (.chainInactive 0x03) := by decide +kernel
theorem test_witness_FrameWordsShape : framer (.writeRegBc 0 0) = .ok (.writeRegBc 0 0 0 0) ∧
    frameWords (.writeRegBc 0 0) = .ok #v[0x51090000, 0, 0] := by decide +kernel
theorem test_witness_BufferBytesInvertPacking : ([1, 2, 3, 4, 5, 6, 7, 8, 9, 10, 11, 12] : List Byte).length ≤ 12 := by
  decide
theorem test_witness_IssueChecksInOrder : (16 : Nat) ≠ 32 ∧ (0x1201 : Nat) % 4 ≠ 0 ∧
    (0x1200 % 4 = 0 ∧ 0x1200 ≤ 0x1200) ∧ (0x11FC % 4 = 0 ∧ 0x11FC < 0x1200 ∧
      regAt lab.cfg.layout 0x11FC = none) := by decide
theorem test_witness_no_register_there : ∀ r, regOffset lab.cfg.layout r ≠ 0x11FC := fun r h => by
  have := (regAt_eq_some lab.cfg.layout 0x11FC r).mpr h
  rw [show regAt lab.cfg.layout 0x11FC = none by decide] at this
  cases this

/-- Two writes to one offset issued, none performed. -/
def twoWrites : State := withTurns [.wb 0] { lab with
  wq := [⟨0x0C4, 1⟩, ⟨0x0C4, 2⟩], hist := [.issued 0x0C4 1, .issued 0x0C4 2] }

theorem test_witness_WritesToOneOffsetKeepProgramOrder : steps twoWrites ∧
    issuedAt 0x0C4 twoWrites.hist = performedAt 0x0C4 twoWrites.hist ++ pendingAt 0x0C4 twoWrites.wq :=
  ⟨⟨_, rfl⟩, by decide⟩
theorem test_witness_ReadHoldsBehindPostedWrites :
    (∃ e ∈ twoWrites.wq, e.off = regOffset twoWrites.cfg.layout (.cmdBuf 0)) ∧
    (∀ e ∈ twoWrites.wq, e.off ≠ regOffset twoWrites.cfg.layout .nonceCount) ∧
    ({ params with strictOrder := true }.strictOrder = true ∧ twoWrites.wq ≠ []) ∧
    (twoWrites.cfg.strictOrder = true → twoWrites.wq = []) := by decide
theorem test_witness_FenceWaitsForEmptyQueue : twoWrites.wq ≠ [] ∧ lab.wq = [] := by decide

/-- HOST at the fence after its write. -/
def atFence : State := withTurns [.wb 0, .host .main, .host .main] { lab with
  main := ⟨1, [.wri 0x0C4 0x53050000, .fence, .halt], .running⟩, wq := [⟨0x0C4, 0x53050000⟩] }

theorem test_witness_FencedHostKeepsOnePostedWrite : steps atFence ∧ atFence.fencedHost :=
  ⟨⟨_, rfl⟩, .main, by decide, fun k h => by cases k <;> simp_all [atFence, withTurns, State.task, lab, State.resetWith], by
    decide, fun _ => by decide⟩
theorem test_witness_BufferWriteStores : lab.cmdReady = false := rfl
theorem test_witness_BusyWritesFault : posted.cmdReady = true := rfl
theorem test_witness_TriggerPostsTheFrame : paramsOk (withFr1 lab).cfg = true ∧ (withFr1 lab).cmdReady = false ∧
    (withFr1 lab).sendable := ⟨by decide, rfl, by decide, by decide, by decide⟩

/-- Each clause of the obligation: the two refusals, F_CHAIN, F_UNWRITTEN on word 0, F_LEN, F_UNWRITTEN on a later
word, and the frame posted. -/
theorem test_witness_TriggerChecksInOrder :
    (0x00800000 : Word).getLsbD 31 = false ∧ (0x80800000 : Word).getLsbD 31 = true ∧
    (0x80800001 : Word) &&& ~~~(readyMask params ||| chainMask params) ≠ params.ctlExtra ∧
    (0x80830000 : Word) &&& ~~~(readyMask params ||| chainMask params) = params.ctlExtra ∧
    3 ≤ ((0x80830000 : Word).extractLsb' 16 4).toNat ∧ ((0x80820000 : Word).extractLsb' 16 4).toNat < 3 ∧
    lab.cmdBufW[0] = false ∧ (withFr1 lab).cmdBufW[0] = true ∧
    lengthByte (withBuffer 0x53010000 0 0 1 lab).cmdBuf < 2 ∧ 12 < lengthByte (withBuffer 0x530D0000 0 0 1 lab).cmdBuf ∧
    lengthByte (withBuffer 0x53020000 0 0 1 lab).cmdBuf = 2 ∧
    (∃ k : Fin 3, k.val < (lengthByte (withBuffer 0x530C0000 0 0 2 lab).cmdBuf + 3) / 4 ∧
      (withBuffer 0x530C0000 0 0 2 lab).cmdBufW[k] = false) ∧
    (∀ k : Fin 3, k.val < (lengthByte (withBuffer 0x530C0000 0 0 3 lab).cmdBuf + 3) / 4 →
      (withBuffer 0x530C0000 0 0 3 lab).cmdBufW[k] = true) := by decide
theorem test_witness_StatusPollReadsReadyBit : lab.cfg.readyBit < 32 ∧ lab.cfg.readyBit = 31 := by decide
theorem test_witness_FiveByteFramesAreSent : posted.cmdReady = true ∧ hazard posted.cmdChain posted.hist = false ∧
    hazard posted.cmdChain [.emit 0 [0x40]] = true := by decide
theorem test_witness_NineByteFramesAreSent : ({ posted with hist := [.emit 0 [0x40]] } : State).cmdReady = true := rfl
theorem test_witness_TransmitterSendsTheBufferVerbatim :
    ({ withBuffer 0x530C0000 0 0 3 lab with cmdReady := true } : State).cmdReady = true ∧
    lengthByte (withBuffer 0x530C0000 0 0 3 lab).cmdBuf = 12 := by decide
theorem test_witness_TransmitterIdlesWithoutPostedFrame : lab.cmdReady = false ∧
    (Instr.chainInactive 0).language = .frame := by decide

/-- A trigger about to be performed. -/
def aboutToPost : State := withTurns [.wb 0] { withFr1 lab with wq := [⟨0x0C0, 0x80800000⟩] }

/-- A frame about to be sent, its trigger performed before. -/
def aboutToSend : State := withTurns [.tx] { posted with hist := [.performed 0x0C0 0x80800000] }

theorem test_witness_OnlyTriggerSetsAndOnlyTxClearsReady :
    after (fun t => (aboutToPost.cmdReady, t.cmdReady)) (step aboutToPost) = some (false, true) ∧
    after (fun t => (aboutToSend.cmdReady, t.cmdReady)) (step aboutToSend) = some (true, false) := by decide +kernel
theorem test_witness_BufferUnchangedWhilePosted : aboutToSend.cmdReady = true ∧ steps (withTurns [.rx] posted) :=
  ⟨rfl, _, rfl⟩
theorem test_witness_EmittedFramesNeverOutnumberTriggers : steps aboutToPost ∧
    (emitted aboutToSend.hist).length + aboutToSend.cmdReady.toNat ≤
      (performedAt (regOffset aboutToSend.cfg.layout .cmdCtl) aboutToSend.hist).length := ⟨⟨_, rfl⟩, by decide⟩
theorem test_witness_HazardExactlyWithinSettleTime :
    hazard 0 [.emit 0 [0x40], .delay 9999] = true ∧ hazard 0 [.emit 0 [0x40], .delay 10000] = false ∧
    hazard 1 [.emit 0 [0x40]] = false ∧ hazard 0 [.emit 0 [0x53]] = false ∧
    ({ lab with cmdReady := true } : State).cmdReady = true := by decide
theorem test_witness_CountReadReturnsQueueLength : (withEntry false).nfQ.length ≤ 32767 ∧
    (withEntry false).nfPhase = false ∧ (withEntry true).nfPhase = true := by decide
theorem test_witness_DataReadPopsHalfAnEntry : (withEntry false).nfQ = ⟨0x12345678, 0x01020304⟩ :: [] ∧
    (withEntry false).nfPhase = false ∧ (withEntry true).nfPhase = true := by decide
theorem test_witness_EmptyDataReadFaults : lab.nfQ = [] := rfl
theorem test_witness_ReturnPathOffersOneEntry : (withEntry true).nfQ.length < (withEntry true).cfg.fifoDepth ∧
    lab.cfg.fifoDepth ≤ ({ lab with nfQ := [⟨1, 2⟩, ⟨3, 4⟩] } : State).nfQ.length := by decide

/-- An entry pushed and half read, with the read of its second half next. -/
def halfRead : State := withTurns [.host .main] { withEntry true with
  hist := [.push 0x12345678 0x01020304, .read 0x010 0x12345678], main := ⟨0, [.rd 1 0x010], .running⟩ }

theorem test_witness_NonceWordsAreReadInPushOrder : halfRead.Inv ∧ steps halfRead ∧
    entryWords (pushed halfRead.hist) = readAt 0x010 halfRead.hist ++ wordsLeft halfRead :=
  ⟨⟨fun h => absurd h (by decide), by decide, by decide, by simp [State.queueInBlock, halfRead, withTurns, withEntry, lab, State.resetWith],
    by simp [kindsInOrder, halfRead, withTurns, withEntry, lab, State.resetWith],
    by simp [State.marksMatchHist, halfRead, withTurns, withEntry, lab, State.resetWith]⟩, ⟨_, rfl⟩, by decide⟩
theorem test_witness_CollectReturnsTheWholeQueue : (withEntry false).nfPhase = false ∧
    (withEntry false).nfQ.length ≤ 32767 ∧ (∀ e ∈ (withEntry false).wq, e.off ≠ 0x018 ∧ e.off ≠ 0x010) ∧
    ((withEntry false).cfg.strictOrder = true → (withEntry false).wq = []) ∧
    (∃ e ∈ ({ lab with wq := [⟨0x018, 0⟩] } : State).wq, e.off = 0x018) ∧ (lab.nfQ = [] ∧ lab.wq = []) := by decide
/-- A collection of one entry, RX offering another after the count read, and its end. -/
theorem test_witness_CollectReadsWhatIsQueued : (withEntry false).nfPhase = false ∧
    (withEntry false).nfQ.length ≤ (withEntry false).cfg.fifoDepth ∧ (withEntry false).cfg.fifoDepth ≤ 32767 ∧
    ∃ out t, CollectRun .counting (withEntry false) (.done out) t := by
  refine ⟨rfl, by decide, by decide, ?_⟩
  have count : (collectStep .counting (withEntry false)).1 = .atNonce 1 [] := by
    show pairsLeft (countField (countWord _ 1)) [] = _
    rw [countField_countWord _ (by decide)]
    rfl
  have r0 := CollectRun.own (CollectRun.start .counting (withEntry false))
  rw [count] at r0
  exact ⟨_, _, .own (.own (.other r0 .rx (by simp) rfl))⟩
theorem test_witness_EnumerationAddressesFitAByte : (1 ≤ 1 ∧ 1 ≤ 256) ∧ (1 ≤ 256 ∧ 256 ≤ 256) ∧ 255 < 256 ∧
    (0 = 0 ∨ 256 < 0) ∧ (257 = 0 ∨ 256 < 257) := by decide
theorem test_witness_BaudDivisorsInRange : baudDivisor 3000000 = .ok 0 ∧ baudDivisor 3000001 = .ok 15 ∧
    baudDivisor 0 = .error .validationError := by decide

/-- The high rate, whichever it is, has a payload: the hypothesis of the last clause. -/
theorem test_witness_BaudDivisorsInRange_high : ∃ v, uartPayload highBaud = .ok v := by
  have hb : highBaud = 3000001 + Config.highBaudExtra.val := rfl
  have hlt := Config.highBaudExtra.isLt
  have lo : 1 ≤ 400000000 / (highBaud * 8) := (Nat.one_le_div_iff (by omega)).mpr (by omega)
  have hi : 400000000 / (highBaud * 8) ≤ 512 := Nat.div_le_of_le_mul (by omega)
  have fast : baudReference highBaud = (400000000, true) := if_neg (show ¬highBaud ≤ 3000000 by omega)
  have hd : baudDivisor highBaud = .ok (400000000 / (highBaud * 8) - 1) := by
    rw [baudDivisor, fast]
    exact if_neg (by dsimp only; omega)
  exact ⟨_, by rw [uartPayload, hd]; rfl⟩
theorem test_witness_ComputingStatementsSetTheirRegister : (lab.writeX 3 7).xW[3] = true ∧ 31 < 32 := by decide
theorem test_witness_OperandChecksComeFirst : lab.xW[3] = false ∧ (lab.writeX 3 7).xW[3] = true ∧ 32 ≤ 32 := by decide
theorem test_witness_ControlStatementsMoveThePc : (lab.writeX 3 0).xW[3] = true ∧
    (lab.setHost .halted).host ≠ .running ∧ (lab.host = .running ∧ lab.script.length ≤ lab.pc) ∧
    (∃ st ∈ [Stmt.j 1], ∃ l, st.target = some l ∧ [Stmt.j 1].length ≤ l) ∧
    (∀ st ∈ [Stmt.j 0], ∀ l, st.target = some l → l < [Stmt.j 0].length) :=
  ⟨by decide, by decide, by decide, ⟨.j 1, by simp, 1, rfl, by simp⟩, by simp [Stmt.target]⟩
theorem test_witness_WriteStatementIssues : (lab.writeX 3 7).xW[3] = true := by decide
theorem test_witness_OtherAgentsLeaveHostAlone : ((∀ k, turnOf aboutToSend ≠ .host k) ∧ steps aboutToSend) ∧
    turnOf halfRead = .host .main ∧ steps halfRead := ⟨⟨fun _ => by simp [turnOf, aboutToSend, withTurns], _, rfl⟩, rfl, _, rfl⟩
theorem test_witness_RaisingAFaultChangesOnlyTheRecord : kindsInOrder [.align, .hazard] := by
  simp [kindsInOrder, FaultKind.code]
theorem test_witness_FaultsAndHistoryOnlyGrow :
    steps { aboutToSend with faults := [.ro], refused := true } := ⟨_, rfl⟩
theorem test_witness_EveryStepKeepsTheInvariant : (withTurns [.rx] lab).Inv ∧ steps (withTurns [.rx] lab) :=
  ⟨⟨fun h => absurd h (by decide), by decide, by decide, by simp [State.queueInBlock, withTurns, lab, State.resetWith],
    by simp [kindsInOrder, withTurns, lab, State.resetWith],
    by simp [State.marksMatchHist, withTurns, lab, State.resetWith]⟩, _, rfl⟩
theorem test_witness_NoStepStopsTheMachine : (withTurns [.tx] lab).Inv :=
  ⟨fun h => absurd h (by decide), by decide, by decide, by simp [State.queueInBlock, withTurns, lab, State.resetWith],
    by simp [kindsInOrder, withTurns, lab, State.resetWith],
    by simp [State.marksMatchHist, withTurns, lab, State.resetWith]⟩
theorem test_witness_StepRunsTheDecodedInstruction :
    (turnOf aboutToSend = .tx ∧ aboutToSend.cmdReady = true ∧ lengthByte aboutToSend.cmdBuf ≤ 12 ∧
      decode aboutToSend.cfg.layout .frame (postedBytes aboutToSend.cmdBuf) = .ok (.chainInactive 0x03)) ∧
    (turnOf halfRead = .host .main ∧ (halfRead.task .main).status = .running ∧
      (halfRead.task .main).script[(halfRead.task .main).pc]? =
        some (.rd 1 (regOffset halfRead.cfg.layout .nonceData)) ∧ halfRead.wq = []) ∧
    (turnOf aboutToPost = .wb 0 ∧ chooseWrite aboutToPost.cfg.strictOrder 0 aboutToPost.wq =
        some (⟨regOffset aboutToPost.cfg.layout .cmdCtl, 0x80800000⟩, []) ∧
      after (fun t => t.cmdReady) (exec (writeInstr .cmdCtl 0x80800000) { turnTaken aboutToPost with wq := [] }) =
        some true) := by decide +kernel
theorem test_witness_PlacedWordIsRunNext : (Instr.readRegBc 0 8 9).language = .frame ∧
    after (fun t => t.hist) (step (lab.withFetchWord 72 0x520900080000000009)) =
      some [.emit 0 [0x52, 0x09, 0x00, 0x08, 0x00, 0x00, 0x00, 0x00, 0x09]] := by decide +kernel

/-- Every row of the opcode table, its match value run as the first instruction after reset. -/
theorem test_every_row_runs_first : ([(40, 0x5305000000), (40, 0x4005000000), (72, 0x410900000000000000),
    (72, 0x510900000000000000), (72, 0x420900000000000000), (72, 0x520900000000000000), (16, 0x0010), (16, 0x2010),
    (16, 0x0018), (16, 0x2018), (16, 0x008C), (16, 0x208C), (16, 0x00C0), (16, 0x20C0), (16, 0x00C4), (16, 0x20C4),
    (16, 0x00C8), (16, 0x20C8), (16, 0x00CC), (16, 0x20CC), (16, 0x00F8), (16, 0x20F8)] : List (Nat × Nat)).all
    (fun p => (after (fun _ => ()) (step (State.reset.withFetchWord p.1 p.2))).isSome) = true := by decide +kernel

/-! ### Two weakly fair runs: after their first turns nothing is left to be fair to -/

/-- The state after a step. -/
def advance (s : State) : State := (after id (step s)).getD s

/-- The run from a state. -/
def runFrom (s : State) : Nat → State
  | 0 => s
  | n + 1 => advance (runFrom s n)

/-- Nothing posted, nothing to send, no task of HOST running. -/
def atRest (s : State) : Prop := s.cmdReady = false ∧ s.wq = [] ∧ ∀ k, (s.task k).status ≠ .running

theorem hostStep_atRest {s : State} (h : ∀ k, (s.task k).status ≠ .running) (k : HostTask) :
    hostStep (s.activate k) = .next (s.activate k) := by
  rcases hostStep_cases (s.activate k) with h1 | h1 | h1
  · exact h1.2
  · exact absurd h1.1 (by simpa using h k)
  · exact absurd h1.1 (by simpa using h k)

theorem advance_atRest {s : State} (h : atRest s) : step s = .next (advance s) ∧ atRest (advance s) := by
  obtain ⟨h1, h2, h3⟩ := h
  have : ∃ t, step s = .next t ∧ atRest t := by
    unfold step
    cases turnOf s with
    | host k =>
      exact ⟨(turnTaken s).activate k, hostStep_atRest (by simpa using h3) k, by simp [h1], by simp [h2], by simpa using h3⟩
    | tx => exact ⟨turnTaken s, by simp [runTurn, txStep, h1], by simp [atRest, h1, h2, h3]⟩
    | rx =>
      refine ⟨_, rfl, ?_⟩
      unfold rxPush offerEntry
      split <;> exact ⟨by simp [h1], by simp [h2], by simpa using h3⟩
    | wb pick =>
      exact ⟨turnTaken s, by simp [runTurn, wbStep, chooseWrite, takeable, takeableFrom, h2], by
        simp [atRest, h1, h2, h3]⟩
  obtain ⟨t, ht, hr⟩ := this
  simpa [advance, ht, after] using hr

/-- A run that comes to rest is weakly fair. -/
theorem run_of_rest {s : State} {k : Nat} (hs : ∀ n, n < k → step (runFrom s n) = .next (runFrom s (n + 1)))
    (hk : atRest (runFrom s k)) : IsRun (runFrom s) ∧ WeaklyFair (runFrom s) := by
  have rest : ∀ n, k ≤ n → atRest (runFrom s n) := by
    intro n hn
    induction n, hn using Nat.le_induction with
    | base => exact hk
    | succ n _ ih => exact (advance_atRest ih).2
  refine ⟨fun n => ?_, ⟨fun n h => ?_, fun n h => ?_, fun n h => ?_⟩⟩
  · rcases Nat.lt_or_ge n k with hn | hn
    · exact hs n hn
    · exact (advance_atRest (rest n hn)).1
  · have := h (n + k) (by omega)
    rw [(rest (n + k) (by omega)).1] at this
    cases this
  · exact absurd (rest (n + k) (by omega)).2.1 (h (n + k) (by omega))
  · obtain ⟨j, hj⟩ := h (n + k) (by omega)
    exact absurd (hostStep_atRest (rest (n + k) (by omega)).2.2 j) hj

theorem test_witness_PostedFrameIsEventuallySent : ∃ σ, IsRun σ ∧ WeaklyFair σ ∧ (σ 0).cmdReady = true := by
  refine ⟨runFrom { aboutToSend with main := ⟨0, [], .halted⟩ }, (and_assoc.mp ⟨run_of_rest (k := 1) ?_ ?_, rfl⟩)⟩
  · intro n hn
    interval_cases n
    rfl
  · exact ⟨by decide +kernel, by decide +kernel, fun j => by cases j <;> decide +kernel⟩
theorem test_witness_FenceIsEventuallyPassed : ∃ σ, IsRun σ ∧ WeaklyFair σ ∧ ((σ 0).task .main).status = .running ∧
    ((σ 0).task .main).script[((σ 0).task .main).pc]? = some .fence ∧
    ∀ k', k' ≠ .main → ((σ 0).task k').status ≠ .running := by
  refine ⟨runFrom atFence, (and_assoc.mp ⟨run_of_rest (k := 3) ?_ ?_, by decide, by decide, fun j => by cases j <;> decide⟩)⟩
  · intro n hn
    interval_cases n <;> rfl
  · exact ⟨by decide +kernel, by decide +kernel, fun j => by cases j <;> decide +kernel⟩

end Sys2Proof.Tests
end

section
/-! SUPPORT. The scope statements of 00_scope.md R7: whose step changes what, and that a step runs the instruction
its turn names. -/

namespace Sys2Proof.Machine

/-! ## HOST apart from the other agents -/

/-- A write transaction stores in the block alone. -/
theorem exec_writeInstr_sameHost {r : BlockReg} {v : Word} {s t : State} (h : exec (writeInstr r v) s = .next t) :
    sameHost s t := by
  obtain ⟨t', ht, hcases⟩ := exec_writeInstr r v s
  obtain rfl : t' = t := by simpa [ht] using h
  rcases hcases with ⟨_, _, rfl⟩ | ⟨_, _, rfl⟩ | ⟨_, _, _, rfl⟩ | ⟨_, _, _, _, rfl⟩ | ⟨_, rfl⟩ <;> simp [sameHost]

/-- A move of TX, RX or WB leaves HOST as it is. -/
theorem Move.sameHost_of_not_host {s t : State} {turn : Turn} (h : Move s turn t) (hk : ∀ k, turn ≠ .host k) :
    sameHost s t := by
  cases h with
  | idle => simp [sameHost]
  | send => simp [sameHost]
  | offer =>
    obtain ⟨n, m, ⟨-, h⟩ | ⟨-, h⟩, -⟩ := rxPush_cases s <;> simp [h, sameHost]
  | perform pick e rest r m hc ho hx => simpa [sameHost] using exec_writeInstr_sameHost hx
  | performNowhere => simp [sameHost]
  | noStmt | quiet | hostFault | branchFault | hostRefuse | issue | read => exact absurd rfl (hk _)

/-- HALT and FAIL alone stop a task. -/
theorem Stmt.stops_eq_some {st : Stmt} {h : HostStatus} (hst : st.stops = some h) :
    (st = .halt ∧ h = .halted) ∨ ∃ e, st = .fail e ∧ h = .failed e := by
  cases st with
  | halt => exact .inl ⟨rfl, (Option.some.inj hst).symm⟩
  | fail e => exact .inr ⟨e, rfl, (Option.some.inj hst).symm⟩
  | _ => cases hst

/-- A move of HOST stays with its task, and leaves the other as it is unless it runs a statement that stops HOST. -/
theorem Move.otherTask {s t : State} {k : HostTask} (h : Move s (.host k) t) (hk : s.active = k) :
    t.active = k ∧ ∀ k', k' ≠ k → t.task k' = s.task k' ∨
      (s.host = .running ∧ ∃ st h, s.script[s.pc]? = some st ∧ st.stops = some h ∧
        t.task k' = { s.task k' with status := h }) := by
  subst hk
  cases h with
  | idle => exact ⟨rfl, fun _ _ => .inl rfl⟩
  | noStmt => exact ⟨rfl, fun _ _ => .inl rfl⟩
  | quiet st t hr hs hx hkeep hq =>
    obtain ⟨-, -, -, -, -, -, hactive, -, hothers⟩ := hkeep
    refine ⟨hactive, fun k' hne => ?_⟩
    have hother := hothers k' hne
    cases hstops : st.stops with
    | none => exact .inl (by simpa [hstops] using hother)
    | some h => exact .inr ⟨hr, st, h, hs, hstops, by simpa [hstops] using hother⟩
  | hostFault => exact ⟨by simp, fun _ hne => .inl (by simp [hne])⟩
  | branchFault => exact ⟨rfl, fun _ _ => .inl rfl⟩
  | hostRefuse => exact ⟨by simp, fun _ hne => .inl (by simp [hne])⟩
  | issue => exact ⟨by simp [postWrite], fun _ hne => .inl (by simp [postWrite, hne])⟩
  | read r d t hr hs hh hx =>
    obtain ⟨t', ht, -, -, -, -, -, -, -, -, -, -, -, -, hactive, -, hothers, -⟩ := exec_readInstr r d s
    obtain rfl : t' = t := by simpa [ht] using hx
    exact ⟨hactive, fun k' hne => .inl (hothers k' hne)⟩

/-- Settles O50: every step is one of the moves, and each kind of move says what it leaves of HOST. -/
theorem otherAgentsLeaveHostAlone : Obligations.OtherAgentsLeaveHostAlone := by
  intro s t hstep
  have hmove := move_of_step hstep
  refine ⟨fun hk => ?_, fun k hk => ?_⟩
  · have hstart : (turnTaken s).forTurn (turnOf s) = turnTaken s := by
      cases hturn : turnOf s with
      | host k => exact absurd hturn (hk k)
      | tx | rx | wb => rfl
    simpa [hstart, sameHost] using hmove.sameHost_of_not_host hk
  · rw [hk] at hmove
    obtain ⟨hactive, hothers⟩ := hmove.otherTask rfl
    refine ⟨hactive, fun k' hne => (hothers k' hne).imp (by simp [State.forTurn]) ?_⟩
    rintro ⟨hr, st, h, hs, hstops, htask⟩
    simp only [State.forTurn, State.activate_host, State.activate_script, State.activate_pc, State.activate_task,
      turnTaken_task] at hr hs htask
    refine ⟨hr, ?_⟩
    rcases Stmt.stops_eq_some hstops with ⟨rfl, rfl⟩ | ⟨e, rfl, rfl⟩
    · exact .inl ⟨hs, htask⟩
    · exact .inr ⟨e, hs, htask⟩

/-! ## The three paths from a step to an instruction -/

/-- TX executes the frame the posted bytes spell (42_command_bus.md R150). -/
theorem txStep_of_decode {s : State} {i : Instr} (hc : s.cmdReady = true) (hl : lengthByte s.cmdBuf ≤ maxFrameBytes)
    (hd : decode s.cfg.layout .frame (postedBytes s.cmdBuf) = .ok i) : txStep s = exec i s := by
  simp [txStep, hc, Nat.not_lt.mpr hl, hd]

/-- A running task executes the statement at its pc (47_host_script.md R221). -/
theorem hostStep_of_stmt {s : State} {st : Stmt} (hr : s.host = .running) (hs : s.script[s.pc]? = some st) :
    hostStep s = execStmt st s := by
  simp [hostStep, hr, hs]

/-- A read of a register of the block that does not hold is the register's transaction (20_memory.md R61). -/
theorem execStmt_rd {s : State} {r : BlockReg} (d : Fin 8) (hh : s.readHolds (regOffset s.cfg.layout r) = false) :
    execStmt (.rd d (regOffset s.cfg.layout r)) s = exec (readInstr r d) s := by
  simp [execStmt, mmioRead, hh]

/-- WB executes the write it takes and records it (20_memory.md R60). -/
theorem wbStep_of_choose {s : State} {pick : Nat} {r : BlockReg} {v : Word} {rest : List Pending}
    (hc : chooseWrite s.cfg.strictOrder pick s.wq = some (⟨regOffset s.cfg.layout r, v⟩, rest)) :
    wbStep pick s =
      onNext (State.record (.performed (regOffset s.cfg.layout r) v)) (exec (writeInstr r v) (s.setWq rest)) := by
  simp [wbStep, hc, performWrite, (regAt_eq_some s.cfg.layout _ r).mpr rfl]

/-- A step of TX executes the posted frame. -/
theorem step_tx {s : State} {i : Instr} (ht : turnOf s = .tx) (hc : s.cmdReady = true)
    (hl : lengthByte s.cmdBuf ≤ maxFrameBytes) (hd : decode s.cfg.layout .frame (postedBytes s.cmdBuf) = .ok i) :
    step s = exec i (turnTaken s) := by
  simpa [step, ht, runTurn] using txStep_of_decode (s := turnTaken s) (by simpa) (by simpa) (by simpa)

/-- A step of HOST at a read that does not hold executes the read, as the task the turn names. -/
theorem step_read {s : State} {k : HostTask} {r : BlockReg} {d : Fin 8} (ht : turnOf s = .host k)
    (hr : (s.task k).status = .running)
    (hs : (s.task k).script[(s.task k).pc]? = some (.rd d (regOffset s.cfg.layout r)))
    (hh : s.readHolds (regOffset s.cfg.layout r) = false) :
    step s = exec (readInstr r d) ((turnTaken s).activate k) := by
  have hcfg : ((turnTaken s).activate k).cfg = s.cfg := by simp
  calc step s = hostStep ((turnTaken s).activate k) := by simp [step, ht, runTurn]
    _ = execStmt (.rd d (regOffset s.cfg.layout r)) ((turnTaken s).activate k) :=
      hostStep_of_stmt (by simpa) (by simpa)
    _ = exec (readInstr r d) ((turnTaken s).activate k) := by
      rw [← hcfg]
      exact execStmt_rd d (by simpa [State.readHolds] using hh)

/-- A step of WB executes the write it takes. -/
theorem step_write {s : State} {pick : Nat} {r : BlockReg} {v : Word} {rest : List Pending} (ht : turnOf s = .wb pick)
    (hc : chooseWrite s.cfg.strictOrder pick s.wq = some (⟨regOffset s.cfg.layout r, v⟩, rest)) :
    step s = onNext (State.record (.performed (regOffset s.cfg.layout r) v))
      (exec (writeInstr r v) ((turnTaken s).setWq rest)) := by
  simpa [step, ht, runTurn] using wbStep_of_choose (s := turnTaken s) (by simpa using hc)

/-- Settles O57: the three paths, one lemma each. -/
theorem stepRunsTheDecodedInstruction : Obligations.StepRunsTheDecodedInstruction := by
  refine ⟨fun s i => step_tx, fun s k r d ht hr hs hw => ?_, fun s t r v rest pick ht hc hx => ?_⟩
  · exact step_read ht hr hs (by simp [State.readHolds, hw])
  · rw [step_write ht hc, hx]
    rfl

/-! ## The byte strings of a placed word -/

/-- A byte string is the low bytes of its number. -/
theorem bytesUp_numberUp (bs : List Byte) : bytesUp bs.length (numberUp bs) = bs := by
  induction bs with
  | nil => rfl
  | cons b bs ih =>
    have hb := b.isLt
    have hdiv : (b.toNat + 256 * numberUp bs) / 256 = numberUp bs := by omega
    have hlow : BitVec.ofNat 8 (b.toNat + 256 * numberUp bs) = b := by
      apply BitVec.eq_of_toNat_eq
      simp only [BitVec.toNat_ofNat]
      omega
    simp [bytesUp, numberUp, hdiv, hlow, ih]

/-- A frame's table word, sent from its highest byte, gives the frame's bytes back. -/
theorem tableBytes_numberUp_reverse {bs : List Byte} (h : 2 < bs.length) :
    tableBytes (8 * bs.length) (numberUp bs.reverse) = bs := by
  have hbytes := bytesUp_numberUp bs.reverse
  rw [List.length_reverse] at hbytes
  simp [tableBytes, show ¬ 8 * bs.length ≤ 16 by omega, hbytes]

/-- The bits of a word made of four bytes, the first in the high bits (00_scope.md R10). -/
theorem getLsbD_wordOf (b0 b1 b2 b3 : Byte) (i : Nat) : (wordOf b0 b1 b2 b3).getLsbD i =
    if i < 8 then b3.getLsbD i else if i < 16 then b2.getLsbD (i - 8) else
      if i < 24 then b1.getLsbD (i - 16) else b0.getLsbD (i - 24) := by
  change (b0 ++ b1 ++ b2 ++ b3 : BitVec (8 + 8 + 8 + 8)).getLsbD i = _
  simp only [BitVec.getLsbD_append, Nat.sub_sub]
  grind

/-- A word's bytes are the bytes it was made of (20_memory.md R56). -/
@[simp] theorem wordBytes_wordOf (b0 b1 b2 b3 : Byte) : wordBytes (wordOf b0 b1 b2 b3) = [b0, b1, b2, b3] := by
  simp only [wordBytes, List.cons.injEq, and_true]
  refine ⟨?_, ?_, ?_, ?_⟩ <;> ext i hi <;> grind [getLsbD_wordOf]

/-- A word is made of its bytes (20_memory.md R56). -/
theorem wordOf_bytes (w : Word) :
    wordOf ((w >>> 24).setWidth 8) ((w >>> 16).setWidth 8) ((w >>> 8).setWidth 8) (w.setWidth 8) = w := by
  refine BitVec.eq_of_getLsbD_eq fun i hi => ?_
  rw [getLsbD_wordOf]
  grind

/-- The buffer a frame of at most 12 bytes is packed into holds the frame's bytes, padded (30_encoding.md R80, R82). -/
theorem bufByte_pack (bs : List Byte) {i : Nat} (hi : i < 12) : bufByte (pack bs) i = padByte bs i := by
  have hbytes : (pack bs).toList.flatMap wordBytes = (List.range 12).map (padByte bs) := by
    simp [pack, packWord, List.range_succ]
  simp [bufByte, hbytes, hi]

/-- The length byte of a packed frame is its second byte (42_command_bus.md R146). -/
theorem lengthByte_pack (bs : List Byte) : lengthByte (pack bs) = (padByte bs 1).toNat := by
  have hbytes := wordBytes_wordOf (padByte bs 0) (padByte bs 1) (padByte bs 2) (padByte bs 3)
  simp only [wordBytes, List.cons.injEq] at hbytes
  obtain ⟨-, h1, -⟩ := hbytes
  exact congrArg BitVec.toNat h1

/-- TX reads back from the buffer a frame packed into it whose second byte is its length (42_command_bus.md R150). -/
theorem postedBytes_pack {bs : List Byte} (hlen : bs.length ≤ 12) (h1 : (padByte bs 1).toNat = bs.length) :
    postedBytes (pack bs) = bs := by
  refine List.ext_getElem (by simp [postedBytes, lengthByte_pack, h1]) fun i hi hi' => ?_
  simp [postedBytes, bufByte_pack bs (Nat.lt_of_lt_of_le hi' hlen), padByte, hi']

/-! ## Frames -/

/-- A statement about every frame is one about each of the six kinds. -/
theorem Instr.frameCases {motive : (i : Instr) → i.language = .frame → Prop}
    (chainInactive : ∀ crc, motive (.chainInactive crc) rfl)
    (setAddress : ∀ addr crc, motive (.setAddress addr crc) rfl)
    (writeReg : ∀ chip reg value crc, motive (.writeReg chip reg value crc) rfl)
    (writeRegBc : ∀ chip reg value crc, motive (.writeRegBc chip reg value crc) rfl)
    (readReg : ∀ chip reg crc, motive (.readReg chip reg crc) rfl)
    (readRegBc : ∀ chip reg crc, motive (.readRegBc chip reg crc) rfl) (i : Instr) (h : i.language = .frame) :
    motive i h := by
  cases i with
  | chainInactive crc => exact chainInactive crc
  | setAddress addr crc => exact setAddress addr crc
  | writeReg chip reg value crc => exact writeReg chip reg value crc
  | writeRegBc chip reg value crc => exact writeRegBc chip reg value crc
  | readReg chip reg crc => exact readReg chip reg crc
  | readRegBc chip reg crc => exact readRegBc chip reg crc
  | _ => cases h

/-- A frame has five or nine bytes and its second byte says how many (30_encoding.md R70). -/
theorem frameBytes_length {i : Instr} (h : i.language = .frame) :
    ((frameBytes i).length = 5 ∨ (frameBytes i).length = 9) ∧
      (padByte (frameBytes i) 1).toNat = (frameBytes i).length := by
  induction i, h using Instr.frameCases with
  | chainInactive | setAddress => exact ⟨.inl rfl, rfl⟩
  | writeReg | writeRegBc | readReg | readRegBc => exact ⟨.inr rfl, rfl⟩

/-- The CRC byte holds the CRC field (30_encoding.md R76). -/
@[simp] theorem crcField_crcByte (crc : BitVec 5) : crcField (crcByte crc) = .ok crc := by
  revert crc
  decide

/-- The frame parser reads every frame back from its bytes. -/
theorem parseFrame_frameBytes {i : Instr} (h : i.language = .frame) : parseFrame (frameBytes i) = .ok i := by
  induction i, h using Instr.frameCases <;>
    simp [frameBytes, frameBody, frameCrc, wordBytes, parseFrame, parseF5, parseF9, wordOf_bytes, Except.map]

/-! ## A placed instruction is the next to run -/

/-- The register window's offsets fit the code's offset field (30_encoding.md R87). -/
theorem regOffset_lt (l : CmdLayout) (r : BlockReg) : regOffset l r < 0x2000 := by
  cases r with
  | cmdBuf k => cases l <;> simp only [regOffset, bufOffset] <;> omega
  | cmdCtl => cases l <;> decide
  | nonceData | nonceCount | nonceTimeout | crcErr => simp [regOffset]

/-- A write's code and operand place the write. -/
theorem placeWord_write {off : Nat} (hoff : off < 0x2000) (v : Word) (s : State) :
    placeWord 16 (0x2000 + off + 0x10000 * v.toNat) s = placeWrite off v s := by
  have hcode : (0x2000 + off + 0x10000 * v.toNat) % 0x10000 = 0x2000 + off := by omega
  have hoff' : (0x2000 + off + 0x10000 * v.toNat) % 0x2000 = off := by omega
  have hv : (0x2000 + off + 0x10000 * v.toNat) / 0x10000 = v.toNat := by omega
  simp [placeWord, tableLanguage, hcode, hoff', hv]

/-- A read's code and register number place the read. -/
theorem placeWord_read {off : Nat} (hoff : off < 0x2000) (d : Fin 8) (s : State) :
    placeWord 16 (off + 0x10000 * d.val) s = placeRead off d s := by
  have hcode : (off + 0x10000 * d.val) % 0x10000 = off := by omega
  have hoff' : (off + 0x10000 * d.val) % 0x2000 = off := by omega
  have hd : (off + 0x10000 * d.val) / 0x10000 = d.val := by omega
  simp [placeWord, tableLanguage, hcode, hoff', hd, Nat.not_le.mpr hoff]

/-- A frame's table word places the frame's bytes. -/
theorem placeWord_frame {bs : List Byte} (h : 2 < bs.length) (s : State) :
    placeWord (8 * bs.length) (numberUp bs.reverse) s = placeFrame bs s := by
  simp [placeWord, tableLanguage, show ¬ 8 * bs.length ≤ 16 by omega, tableBytes_numberUp_reverse h]

/-- WB's turn with no choice left open takes the oldest write (20_memory.md R60). -/
theorem chooseWrite_oldest (strict : Bool) (e : Pending) (rest : List Pending) :
    chooseWrite strict 0 (e :: rest) = some (e, rest) := by
  cases strict <;> simp [chooseWrite, takeable, takeableFrom]

/-- A placed write is the next to run, from the state it was placed in. -/
theorem step_placeWrite (r : BlockReg) (v : Word) (s : State) :
    step (placeWrite (regOffset s.cfg.layout r) v s) =
      onNext (State.record (.performed (regOffset s.cfg.layout r) v)) (exec (writeInstr r v) s) :=
  step_write (s := placeWrite (regOffset s.cfg.layout r) v s) (pick := 0) rfl (chooseWrite_oldest _ _ _)

/-- No write of WQ holds a placed read (20_memory.md R61). -/
theorem readHolds_placeRead (off : Nat) (d : Fin 8) (s : State) : (placeRead off d s).readHolds off = false := by
  cases hstrict : s.cfg.strictOrder <;> simp [State.readHolds, placeRead, hstrict]

/-- A placed read is the next to run. -/
theorem step_placeRead (r : BlockReg) (d : Fin 8) (s : State) :
    step (placeRead (regOffset s.cfg.layout r) d s) = exec (readInstr r d)
      ((turnTaken (placeRead (regOffset s.cfg.layout r) d s)).activate s.active) :=
  step_read (s := placeRead (regOffset s.cfg.layout r) d s) rfl (by simp [placeRead]) (by simp [placeRead])
    (readHolds_placeRead _ d s)

/-- A placed frame is the next to run. -/
theorem step_placeFrame {i : Instr} (h : i.language = .frame) (s : State) :
    step (placeFrame (frameBytes i) s) = exec i (turnTaken (placeFrame (frameBytes i) s)) := by
  obtain ⟨hlen, h1⟩ := frameBytes_length h
  have hmax : (frameBytes i).length ≤ 12 := by omega
  refine step_tx rfl rfl ?_ ?_
  · rwa [placeFrame, lengthByte_pack, h1]
  · simp [placeFrame, decode, postedBytes_pack hmax h1, parseFrame_frameBytes h, Except.mapError]

/-- Settles O58: what a table word places, and what the step does from there. -/
theorem placedWordIsRunNext : Obligations.PlacedWordIsRunNext := by
  refine ⟨fun s r v => ?_, fun s r d => ?_, fun s i h => ?_⟩
  · rw [State.withFetchWord, placeWord_write (regOffset_lt _ r)]
    exact step_placeWrite r v s
  · rw [State.withFetchWord, placeWord_read (regOffset_lt _ r)]
    exact ⟨_, step_placeRead r d s, by simp [placeRead, sameBus], by simp [placeRead, sameNonce],
      by simp [placeRead], by simp [placeRead], by simp [placeRead]⟩
  · rw [State.withFetchWord, placeWord_frame (by have := (frameBytes_length h).1; omega)]
    exact ⟨_, step_placeFrame h s, by simp [placeFrame], by simp [placeFrame], by simp [placeFrame],
      by simp [placeFrame, sameNonce], by simp [placeFrame, sameHost]⟩

end Sys2Proof.Machine
end

section
/-! SUPPORT. The state statements of 10_state.md: the register map of R37, the one status flag of R22, and the reset
state of R43. -/

namespace Sys2Proof.Machine

/-! ## The register map -/

/-- Settles O12: each offset is the one R37 writes, and `regAt` inverts the map. -/
theorem registerMapOffsets : Obligations.RegisterMapOffsets :=
  ⟨fun _ => ⟨rfl, rfl, rfl, rfl⟩, rfl, fun _ => rfl, rfl, fun _ => rfl, regAt_eq_some⟩

/-! ## The status flag CMD_READY -/

@[simp] theorem State.forTurn_cfg (turn : Turn) (s : State) : (s.forTurn turn).cfg = s.cfg := by cases turn <;> rfl
@[simp] theorem State.forTurn_cmdReady (turn : Turn) (s : State) : (s.forTurn turn).cmdReady = s.cmdReady := by
  cases turn <;> rfl
@[simp] theorem State.forTurn_cmdChain (turn : Turn) (s : State) : (s.forTurn turn).cmdChain = s.cmdChain := by
  cases turn <;> rfl
@[simp] theorem State.forTurn_hist (turn : Turn) (s : State) : (s.forTurn turn).hist = s.hist := by cases turn <;> rfl

/-- A move of HOST or RX leaves the command bus as it is: TX and WB alone reach it. -/
theorem Move.sameBus_of_not_tx_wb {s t : State} {turn : Turn} (h : Move s turn t) (htx : turn ≠ .tx)
    (hwb : ∀ pick, turn ≠ .wb pick) : sameBus s t := by
  cases h with
  | idle | noStmt | branchFault => simp [sameBus]
  | quiet st t hr hs hx hkeep hq =>
    obtain ⟨-, hbus, -⟩ := hkeep
    exact hbus
  | hostFault | hostRefuse => simp [sameBus]
  | issue => simp [sameBus, postWrite]
  | read r d t hr hs hh hx =>
    obtain ⟨t', ht, -, hbuf, hbufW, hready, hchain, -⟩ := exec_readInstr r d s
    obtain rfl : t' = t := by simpa [ht] using hx
    exact ⟨hbuf, hbufW, hready, hchain⟩
  | offer => obtain ⟨n, m, ⟨-, h⟩ | ⟨-, h⟩, -⟩ := rxPush_cases s <;> simp [h, sameBus]
  | send => exact absurd rfl htx
  | perform | performNowhere => exact absurd rfl (hwb _)

/-- Of the write transactions, the trigger's alone changes CMD_READY: it sets it, and records nothing of its own
(42_command_bus.md R145). -/
theorem exec_writeInstr_cmdReady {r : BlockReg} {v : Word} {s t : State} (h : exec (writeInstr r v) s = .next t) :
    t.cmdReady = s.cmdReady ∨ (r = .cmdCtl ∧ t.cmdReady = true ∧ t.hist = s.hist) := by
  obtain ⟨t', ht, hcases⟩ := exec_writeInstr r v s
  obtain rfl : t' = t := by simpa [ht] using h
  rcases hcases with ⟨_, _, rfl⟩ | ⟨_, _, rfl⟩ | ⟨_, _, _, rfl⟩ | ⟨hr, _, _, _, rfl⟩ | ⟨_, rfl⟩
  · exact .inl rfl
  · exact .inl rfl
  · exact .inl rfl
  · exact .inr ⟨hr, rfl, rfl⟩
  · exact .inl rfl

/-- What a move does to CMD_READY: nothing, the trigger's write performed sets it, or a frame sent clears it. -/
theorem Move.cmdReady_cases {s t : State} {turn : Turn} (h : Move s turn t) :
    t.cmdReady = s.cmdReady ∨
    (t.cmdReady = true ∧ ∃ pick v, turn = .wb pick ∧
      t.hist = s.hist ++ [.performed (regOffset s.cfg.layout .cmdCtl) v]) ∨
    (t.cmdReady = false ∧ turn = .tx ∧ ∃ pre bytes, t.hist = s.hist ++ pre ++ [.emit s.cmdChain bytes]) := by
  cases turn with
  | host | rx =>
    obtain ⟨-, -, hready, -⟩ := h.sameBus_of_not_tx_wb (by simp) (by simp)
    exact .inl hready
  | tx =>
    cases h with
    | idle => exact .inl rfl
    | send bytes hc =>
      refine .inr (.inr ⟨by simp, rfl, if hazard s.cmdChain s.hist then [.fault .hazard none] else [], bytes, ?_⟩)
      rw [State.sendFrame_hist, State.hazardChecked_hist]
      split <;> simp
  | wb pick =>
    cases h with
    | idle | performNowhere => exact .inl rfl
    | perform _ e rest r m hc ho hx =>
      rcases exec_writeInstr_cmdReady hx with hsame | ⟨rfl, hset, hhist⟩
      · exact .inl hsame
      · exact .inr (.inl ⟨hset, pick, e.value, rfl, by simp [hhist, ho]⟩)

/-- Settles O30: every step is a move, and a move sets or clears CMD_READY in one way each. -/
theorem onlyTriggerSetsAndOnlyTxClearsReady : Obligations.OnlyTriggerSetsAndOnlyTxClearsReady := by
  intro s t hstep
  have hmove := (move_of_step hstep).cmdReady_cases
  simp only [State.forTurn_cfg, State.forTurn_cmdReady, State.forTurn_cmdChain, State.forTurn_hist, turnTaken_cfg,
    turnTaken_cmdReady, turnTaken_cmdChain, turnTaken_hist] at hmove
  rcases hmove with hsame | ⟨hset, htrigger⟩ | ⟨hclear, hsent⟩
  · exact ⟨fun h0 h1 => by simp [hsame, h0] at h1, fun h1 h0 => by simp [hsame, h1] at h0⟩
  · exact ⟨fun _ _ => htrigger, fun _ h0 => by simp [hset] at h0⟩
  · exact ⟨fun _ h1 => by simp [hclear] at h1, fun _ _ => hsent⟩

/-! ## The reset state -/

/-- Settles O53: each value as `State.resetWith` gives it, the written flags register by register. -/
theorem resetValues : Obligations.ResetValues :=
  fun _ => ⟨rfl, fun _ => Vector.getElem_replicate _, rfl, rfl, rfl, rfl, rfl, rfl, rfl, rfl,
    fun _ => Vector.getElem_replicate _⟩

/-- Settles O54: at reset no frame is posted, the queues are empty, and nothing is recorded. -/
theorem resetMeetsTheInvariant : Obligations.ResetMeetsTheInvariant := by
  intro p
  obtain ⟨hready, -, hq, hphase, -, hwq, hhist, hfaults, hrefused, -⟩ := resetValues p
  exact {
    posted := by simp [hready]
    depth := by simp [hq]
    phase := by simp [hphase]
    queue := by simp [State.queueInBlock, hwq]
    kinds := by simp [kindsInOrder, hfaults]
    marks := by simp [State.marksMatchHist, hhist, hfaults, hrefused] }

end Sys2Proof.Machine
end

section
/-! SUPPORT. The memory statements of 20_memory.md: the issue checks and the posting order of writes, the holds of reads
and fences, and the order of the nonce FIFO. -/

namespace Sys2Proof.Machine

/-! ## What a move does to WQ and to its record in HIST -/

/-- Events that issue no write and perform none. -/
def noWrites (new : List Event) : Prop := ∀ off, issuedAt off new = [] ∧ performedAt off new = []

/-- What a move makes of WQ and of HIST: WQ stays, a statement that writes joins a write to it, or WB takes one that has
no older entry for its offset. -/
inductive QueueMove (s : State) (turn : Turn) (t : State) : Prop
  | keep (new : List Event) (hnew : noWrites new) (hhist : t.hist = s.hist ++ new) (hwq : t.wq = s.wq)
  | issue (st : Stmt) (e : Pending) (hturn : turn = .host s.active) (hs : s.script[s.pc]? = some st)
      (hw : st.writes = true) (hpc : (t.task s.active).pc = s.pc + 1)
      (hhist : t.hist = s.hist ++ [.issued e.off e.value]) (hwq : t.wq = s.wq ++ [e])
  | perform (older newer : List Pending) (e : Pending) (new : List Event) (hnew : noWrites new)
      (hhist : t.hist = s.hist ++ (new ++ [.performed e.off e.value])) (hfirst : ∀ o ∈ older, o.off ≠ e.off)
      (hwq : s.wq = older ++ e :: newer) (hrest : t.wq = older ++ newer)

/-- Events of no access to the block: no write, no read and no entry pushed. -/
def noAccess (new : List Event) : Prop := noWrites new ∧ (∀ off, readAt off new = []) ∧ pushed new = []

/-- Draws are no access. -/
theorem noAccess_draws {draws : List Event} (h : ∀ e ∈ draws, ∃ w, e = Event.draw w) : noAccess draws := by
  induction draws with
  | nil => exact ⟨fun _ => ⟨rfl, rfl⟩, fun _ => rfl, rfl⟩
  | cons e draws ih =>
    obtain ⟨w, rfl⟩ := h e List.mem_cons_self
    obtain ⟨hwrites, hreads, hpushed⟩ := ih fun e he => h e (List.mem_cons_of_mem _ he)
    exact ⟨fun off => by simp [hwrites off], fun off => by simp [hreads off], by simp [hpushed]⟩

/-- A read transaction leaves WQ, and what it records is no write. -/
theorem exec_readInstr_queue {r : BlockReg} {d : Fin 8} {s t : State} (h : exec (readInstr r d) s = .next t) :
    t.wq = s.wq ∧ ∃ new, noWrites new ∧ t.hist = s.hist ++ new := by
  obtain ⟨t', ht, -, -, -, -, -, -, hwq, -, -, -, -, -, -, -, -, hread⟩ := exec_readInstr r d s
  obtain rfl : t' = t := by simpa [ht] using h
  refine ⟨hwq, ?_⟩
  rcases hread with ⟨-, -, -, -, -, hhist⟩ | ⟨-, v, draws, hhist, hdraws, -⟩
  · exact ⟨_, by simp [noWrites], hhist⟩
  · refine ⟨draws ++ [.read (regOffset s.cfg.layout r) v], fun off => ?_, by simpa using hhist⟩
    simp [(noAccess_draws hdraws).1 off]

/-- A write transaction leaves WQ and the FIFO, and what it records of its own is no access. -/
theorem exec_writeInstr_queues {r : BlockReg} {v : Word} {s t : State} (h : exec (writeInstr r v) s = .next t) :
    t.wq = s.wq ∧ t.nfQ = s.nfQ ∧ t.nfPhase = s.nfPhase ∧ ∃ new, noAccess new ∧ t.hist = s.hist ++ new := by
  obtain ⟨t', ht, hcases⟩ := exec_writeInstr r v s
  obtain rfl : t' = t := by simpa [ht] using h
  rcases hcases with ⟨k, off, rfl⟩ | ⟨-, reason, rfl⟩ | ⟨-, -, -, rfl⟩ | ⟨-, -, -, -, rfl⟩ | ⟨-, rfl⟩
  · exact ⟨rfl, rfl, rfl, [.fault k (some off)], by simp [noAccess, noWrites], rfl⟩
  · exact ⟨rfl, rfl, rfl, [.refuse reason], by simp [noAccess, noWrites], rfl⟩
  all_goals exact ⟨rfl, rfl, rfl, [], by simp [noAccess, noWrites], by simp⟩

/-- Every move is one of the three moves of WQ. -/
theorem Move.queueMove {s t : State} {turn : Turn} (h : Move s turn t) : QueueMove s turn t := by
  cases h with
  | idle => exact .keep [] (by simp [noWrites]) (by simp) rfl
  | noStmt => exact .keep [.refuse .noStmt] (by simp [noWrites]) rfl rfl
  | quiet st t hr hs hx hkeep hq =>
    obtain ⟨-, hwq, hhist | ⟨-, hhist⟩ | ⟨n, hhist⟩⟩ := hq
    · exact .keep [] (by simp [noWrites]) (by simpa using hhist) hwq
    · exact .keep [.fence] (by simp [noWrites]) hhist hwq
    · exact .keep [.delay n] (by simp [noWrites]) hhist hwq
  | hostFault st k off => exact .keep [.fault k off] (by simp [noWrites]) (by simp) (by simp)
  | branchFault => exact .keep [.fault .undef none] (by simp [noWrites]) rfl rfl
  | hostRefuse st r => exact .keep [.refuse r] (by simp [noWrites]) (by simp) (by simp)
  | issue st r v hr hs hw =>
    exact .issue st ⟨regOffset s.cfg.layout r, v⟩ rfl hs hw (by simp [postWrite]) (by simp [postWrite])
      (by simp [postWrite])
  | read r d t hr hs hh hx =>
    obtain ⟨hwq, new, hnew, hhist⟩ := exec_readInstr_queue hx
    exact .keep new hnew hhist hwq
  | send bytes =>
    refine .keep ((if hazard s.cmdChain s.hist then [.fault .hazard none] else []) ++ [.emit s.cmdChain bytes])
      (fun off => ?_) ?_ (by simp)
    · split <;> simp
    · rw [State.sendFrame_hist, State.hazardChecked_hist]
      split <;> simp
  | offer =>
    obtain ⟨n, m, ⟨-, h⟩ | ⟨-, h⟩, hn, hm⟩ := rxPush_cases s <;> rw [h]
    · exact .keep [.draw n, .draw m, .push n m] (by simp [noWrites]) (by simp [hn, hm]) rfl
    · exact .keep [.draw n, .draw m, .drop n m] (by simp [noWrites]) (by simp [hn, hm]) rfl
  | perform pick e rest r m hc ho hx =>
    obtain ⟨older, newer, hwq, rfl, hfirst⟩ := chooseWrite_eq_some hc
    obtain ⟨hrest, -, -, new, hnew, hhist⟩ := exec_writeInstr_queues hx
    exact .perform older newer e new hnew.1 (by simp [hhist]) hfirst hwq (by simpa using hrest)
  | performNowhere pick e rest hc =>
    obtain ⟨older, newer, hwq, rfl, hfirst⟩ := chooseWrite_eq_some hc
    exact .perform older newer e [.refuse .outOfBlock] (by simp [noWrites]) (by simp) hfirst hwq rfl

/-- No entry of another offset is pending at an offset. -/
theorem pendingAt_eq_nil {off : Nat} {q : List Pending} (h : ∀ e ∈ q, e.off ≠ off) : pendingAt off q = [] :=
  List.filterMap_eq_nil_iff.mpr fun e he => by simp [h e he]

@[simp] theorem State.forTurn_wq (turn : Turn) (s : State) : (s.forTurn turn).wq = s.wq := by cases turn <;> rfl

/-- Settles O16: a write issued joins both sides at the end, and a write performed has no older one pending at its
offset. -/
theorem writesToOneOffsetKeepProgramOrder : Obligations.WritesToOneOffsetKeepProgramOrder := by
  intro s t off hs hstep
  cases (move_of_step hstep).queueMove with
  | keep new hnew hhist hwq => simpa [hhist, hwq, hnew off] using hs
  | issue st e hturn hst hw hpc hhist hwq => simp [hhist, hwq, hs]
  | perform older newer e new hnew hhist hfirst hwq hrest =>
    simp only [State.forTurn_wq, turnTaken_wq] at hwq
    have hnone : e.off = off → pendingAt off older = [] := fun h => pendingAt_eq_nil (h ▸ hfirst)
    by_cases he : e.off = off <;> simpa [hhist, hrest, hnew off, hwq, he, hnone] using hs

/-! ## A fenced HOST -/

/-- HOST's tasks unchanged, task by task. -/
theorem sameHost.task {s t : State} (h : sameHost s t) (k : HostTask) : t.task k = s.task k := by
  obtain ⟨-, -, hmain, hdrainer, -⟩ := h
  cases k with
  | main => exact hmain
  | drainer => exact hdrainer

/-- A move of HOST leaves the script of the task that moves. -/
theorem Move.script_eq {s t : State} (h : Move s (.host s.active) t) : t.script = s.script := by
  cases h with
  | idle | noStmt | branchFault => rfl
  | quiet st t hr hs hx hkeep hq =>
    obtain ⟨-, -, -, hscript, -⟩ := hkeep
    exact hscript
  | hostFault | hostRefuse => simp
  | issue => simp [postWrite]
  | read r d t hr hs hh hx =>
    obtain ⟨t', ht, -, -, -, -, -, -, -, -, hscript, -⟩ := exec_readInstr r d s
    obtain rfl : t' = t := by simpa [ht] using hx
    exact hscript

@[simp] theorem State.forTurn_task (turn : Turn) (s : State) (k : HostTask) : (s.forTurn turn).task k = s.task k := by
  cases turn <;> rfl

/-- A step leaves the pc and the script of every task but the one whose turn it is. -/
theorem step_otherTask {s t : State} {k : HostTask} (h : step s = .next t) (hk : turnOf s ≠ .host k) :
    (t.task k).pc = (s.task k).pc ∧ (t.task k).script = (s.task k).script := by
  obtain ⟨hagents, htasks⟩ := otherAgentsLeaveHostAlone s t h
  cases hturn : turnOf s with
  | host j =>
    obtain ⟨-, hothers⟩ := htasks j hturn
    have hne : k ≠ j := fun he => hk (he ▸ hturn)
    rcases hothers k hne with htask | ⟨-, ⟨-, htask⟩ | ⟨e, -, htask⟩⟩ <;> simp [htask]
  | tx | rx | wb =>
    have htask := (hagents (by simp [hturn])).task k
    simp [htask]

/-- No step changes a script. -/
theorem step_script {s t : State} (h : step s = .next t) (k : HostTask) : (t.task k).script = (s.task k).script := by
  by_cases hk : turnOf s = .host k
  · have hmove := move_of_step h
    have hactive := ((otherAgentsLeaveHostAlone s t h).2 k hk).1
    rw [hk] at hmove
    simpa [State.script, State.current, hactive, State.forTurn] using hmove.script_eq
  · exact (step_otherTask h hk).2

/-- A task that has ended or not started takes no step (47_host_script.md R234, R235). -/
theorem hostStep_of_not_running {s : State} (hr : s.host ≠ .running) : hostStep s = .next s := by
  rcases hostStep_cases s with ⟨-, h⟩ | ⟨hr', -⟩ | ⟨hr', -⟩
  · exact h
  · exact absurd hr' hr
  · exact absurd hr' hr

/-- A fence holds its task while a write is posted (20_memory.md R62). -/
theorem hostStep_fence_holds {s : State} (hs : s.script[s.pc]? = some .fence) (hw : s.wq ≠ []) :
    hostStep s = .next s := by
  by_cases hr : s.host = .running
  · simp [hostStep_of_stmt hr hs, execStmt, fenceStmt, hw]
  · exact hostStep_of_not_running hr

/-- The statement after a write of a fenced script is a fence (20_memory.md R63). -/
theorem fencedScript_next {script : List Stmt} (h : fencedScript script = true) {i : Nat} {st : Stmt}
    (hs : script[i]? = some st) (hw : st.writes = true) : script[i + 1]? = some .fence := by
  obtain ⟨hi, rfl⟩ := List.getElem?_eq_some_iff.mp hs
  simpa [hi, hw] using List.all_eq_true.mp h i (List.mem_range.mpr hi)

/-- Settles O19: while a write is posted the writing task holds at its fence, so it issues one only to an empty WQ, and
then stands at the fence after it. -/
theorem fencedHostKeepsOnePostedWrite : Obligations.FencedHostKeepsOnePostedWrite := by
  rintro s t ⟨k, hfenced, hothers, hlen, hfence⟩ hstep
  have hscript := step_script hstep
  by_cases hhold : turnOf s = .host k ∧ s.wq ≠ []
  · obtain ⟨hturn, hw⟩ := hhold
    have hsame : step s = .next ((turnTaken s).activate k) := by
      rw [step, hturn]
      exact hostStep_fence_holds (by simpa using hfence hw) (by simpa using hw)
    obtain rfl : (turnTaken s).activate k = t := by simpa [hsame] using hstep
    exact ⟨k, by simpa, by simpa using hothers, by simpa, by simpa using hfence⟩
  · suffices h : t.wq.length ≤ 1 ∧ (t.wq ≠ [] → (t.task k).script[(t.task k).pc]? = some .fence) from
      ⟨k, by rwa [hscript], fun j hj => by rw [hscript]; exact hothers j hj, h⟩
    cases (move_of_step hstep).queueMove with
    | keep new hnew hhist hwq =>
      simp only [State.forTurn_wq, turnTaken_wq] at hwq
      refine ⟨hwq ▸ hlen, fun hw => ?_⟩
      rw [hwq] at hw
      obtain ⟨hpc, hscr⟩ := step_otherTask hstep (fun hturn => hhold ⟨hturn, hw⟩)
      rw [hpc, hscr]
      exact hfence hw
    | issue st e hturn hst hw hpc hhist hwq =>
      obtain ⟨j, hj⟩ : ∃ j, turnOf s = .host j := ⟨_, hturn⟩
      simp only [State.forTurn, hj, State.activate_script, State.activate_pc, State.activate_active, State.activate_wq,
        turnTaken_task, turnTaken_wq] at hst hpc hwq
      have hjk : j = k := by
        by_contra hne
        have := hothers j hne st (List.mem_of_getElem? hst)
        simp [hw] at this
      subst hjk
      have hempty : s.wq = [] := by simpa [hj] using hhold
      refine ⟨by simp [hwq, hempty], fun _ => ?_⟩
      rw [hpc, hscript]
      exact fencedScript_next hfenced hst hw
    | perform older newer e new hnew hhist hfirst hwq hrest =>
      simp only [State.forTurn_wq, turnTaken_wq] at hwq
      have hnone : t.wq = [] := by
        have : older.length + newer.length = 0 := by simp [hwq] at hlen; omega
        rw [hrest]; exact List.eq_nil_of_length_eq_zero (by simpa using this)
      simp [hnone]

/-! ## The nonce FIFO -/

/-- The words pushed are the words read at NONCE_DATA followed by those still to be read (20_memory.md R68). -/
def State.nonceOrder (s : State) : Prop := entryWords (pushed s.hist) = readAt 0x010 s.hist ++ wordsLeft s

/-- Events that push no entry and read no word at NONCE_DATA, with the FIFO and its phase left alone, keep the order. -/
theorem State.nonceOrder.append {s t : State} (hs : s.nonceOrder) (new : List Event) (hhist : t.hist = s.hist ++ new)
    (hread : readAt 0x010 new = [] := by simp) (hpush : pushed new = [] := by simp) (hq : t.nfQ = s.nfQ := by simp)
    (hphase : t.nfPhase = s.nfPhase := by simp) : t.nonceOrder := by
  simpa [State.nonceOrder, wordsLeft, hhist, hread, hpush, hq, hphase] using hs

/-- NONCE_DATA alone has its offset. -/
theorem regOffset_ne_nonceData {l : CmdLayout} {r : BlockReg} (h : r ≠ .nonceData) : regOffset l r ≠ 0x010 := by
  intro hoff
  have hr := (regAt_eq_some l 0x010 r).mpr hoff
  rw [(regAt_eq_some l 0x010 .nonceData).mpr rfl] at hr
  exact h (Option.some.inj hr).symm

/-- A read takes at NONCE_DATA the first word left, and elsewhere none. -/
theorem exec_readInstr_nonceOrder {r : BlockReg} {d : Fin 8} {s t : State} (hs : s.nonceOrder)
    (h : exec (readInstr r d) s = .next t) : t.nonceOrder := by
  obtain ⟨t', ht, -, -, -, -, -, -, -, -, -, -, -, -, -, -, -, hread⟩ := exec_readInstr r d s
  obtain rfl : t' = t := by simpa [ht] using h
  rcases hread with ⟨-, hq, hq', hphase, -, hhist⟩ |
    ⟨-, v, draws, hhist, hdraws, ⟨hr, hq, hphase⟩ | ⟨rfl, e, rest, hq, htake⟩⟩
  · exact hs.append _ hhist (hq := hq'.trans hq.symm) (hphase := hphase)
  · obtain ⟨-, hreads, hpushed⟩ := noAccess_draws hdraws
    exact hs.append (draws ++ [.read (regOffset s.cfg.layout r) v]) (by simpa using hhist)
      (by simp [hreads, regOffset_ne_nonceData hr]) (by simp [hpushed]) hq hphase
  · obtain ⟨-, hreads, hpushed⟩ := noAccess_draws hdraws
    rcases htake with ⟨hp, rfl, hp', hq'⟩ | ⟨hp, rfl, hp', hq'⟩ <;>
      simpa [State.nonceOrder, wordsLeft, hhist, hreads, hpushed, regOffset, hq, hp, hp', hq'] using hs

/-- An entry pushed joins the words left at their end: a half-read entry is still in the FIFO before it. -/
theorem wordsLeft_push {s t : State} {e : Entry} (h : s.nfPhase = true → s.nfQ ≠ []) (hq : t.nfQ = s.nfQ ++ [e])
    (hphase : t.nfPhase = s.nfPhase) : wordsLeft t = wordsLeft s ++ [e.nonce, e.metadata] := by
  cases hp : s.nfPhase with
  | false => simp [wordsLeft, hp, hq, hphase]
  | true =>
    obtain ⟨a, q, ha⟩ := List.exists_cons_of_ne_nil (h hp)
    simp [wordsLeft, hp, hq, hphase, ha]

/-- Every move keeps the order, where a half-read entry is still in the FIFO. -/
theorem Move.nonceOrder {s t : State} {turn : Turn} (h : Move s turn t) (hphase : s.nfPhase = true → s.nfQ ≠ [])
    (hs : s.nonceOrder) : t.nonceOrder := by
  cases h with
  | idle => exact hs
  | noStmt => exact hs.append [.refuse .noStmt] rfl
  | quiet st t hr hst hx hkeep hq =>
    obtain ⟨-, -, ⟨hnfQ, hnfPhase, -⟩, -⟩ := hkeep
    obtain ⟨-, -, hhist | ⟨-, hhist⟩ | ⟨n, hhist⟩⟩ := hq
    · exact hs.append [] (by simpa using hhist) rfl rfl hnfQ hnfPhase
    · exact hs.append [.fence] hhist (hq := hnfQ) (hphase := hnfPhase)
    · exact hs.append [.delay n] hhist (hq := hnfQ) (hphase := hnfPhase)
  | hostFault st k off => exact hs.append [.fault k off] (by simp)
  | branchFault => exact hs.append [.fault .undef none] rfl
  | hostRefuse st r => exact hs.append [.refuse r] (by simp)
  | issue st r v => exact hs.append [.issued (regOffset s.cfg.layout r) v] rfl (hq := rfl) (hphase := rfl)
  | read r d t hr hst hh hx => exact exec_readInstr_nonceOrder hs hx
  | send bytes =>
    refine hs.append ((if hazard s.cmdChain s.hist then [.fault .hazard none] else []) ++
      [.emit s.cmdChain bytes]) ?_ ?_ ?_
    · rw [State.sendFrame_hist, State.hazardChecked_hist]
      split <;> simp
    · split <;> simp
    · split <;> simp
  | offer =>
    obtain ⟨n, m, ⟨-, h⟩ | ⟨-, h⟩, hn, hm⟩ := rxPush_cases s
    · have hleft := wordsLeft_push (t := rxPush s) (e := ⟨n, m⟩) hphase (by simp [h]) (by simp [h])
      have hhist : (rxPush s).hist = s.hist ++ [.draw n, .draw m, .push n m] := by simp [h, hn, hm]
      rw [State.nonceOrder] at hs ⊢
      simp [hleft, hhist, hs]
    · rw [h]
      exact hs.append [.draw n, .draw m, .drop n m] (by simp [hn, hm])
  | perform pick e rest r m hc ho hx =>
    obtain ⟨-, hq, hp, new, ⟨-, hreads, hpushed⟩, hhist⟩ := exec_writeInstr_queues hx
    exact hs.append (new ++ [.performed e.off e.value]) (by simp [hhist]) (by simp [hreads]) (by simp [hpushed]) hq hp
  | performNowhere pick e rest => exact hs.append [.refuse .outOfBlock, .performed e.off e.value] (by simp)

/-- Settles O40: a read takes the first of the words left, and a push adds its two at their end. -/
theorem nonceWordsAreReadInPushOrder : Obligations.NonceWordsAreReadInPushOrder := by
  intro s t hinv hs hstep
  have hstart : ((turnTaken s).forTurn (turnOf s)).nfQ = s.nfQ ∧
      ((turnTaken s).forTurn (turnOf s)).nfPhase = s.nfPhase := by
    cases turnOf s <;> simp [State.forTurn]
  obtain ⟨hq, hphase⟩ := hstart
  refine (move_of_step hstep).nonceOrder (by rw [hq, hphase]; exact hinv.phase) ?_
  exact State.nonceOrder.append hs [] (by simp) (hq := hq) (hphase := hphase)

/-! ## The issue checks -/

/-- A fault of a statement that is no branch changes nothing but the record and, where the parameter says so, the pc. -/
theorem faultOnly_hostFault (k : FaultKind) (off : Option Nat) (s : State) :
    faultOnly k off s.cfg.faultAdvancesPc s (s.hostFault k off) := by
  simp +contextual [faultOnly, sameBus, sameNonce, sameRest, pcAt]

/-- A refusal of a statement changes nothing but the record and, where the parameter says so, the pc. -/
theorem refusalOnly_hostRefuse (r : RefusalReason) (s : State) :
    refusalOnly r s.cfg.faultAdvancesPc s (s.hostRefuse r) := by
  simp +contextual [refusalOnly, sameBus, sameNonce, sameRest, pcAt]

/-- An access that fails an issue check with a fault raises it at its offset, read or write. -/
theorem access_fault {s : State} {width off : Nat} {k : FaultKind}
    (h : checkAccess s.cfg.layout width off = .fault k) (d : Fin 8) (v : Word) :
    (∃ t, mmioRead width d off s = .next t ∧ faultOnly k (some off) s.cfg.faultAdvancesPc s t) ∧
      faultOnly k (some off) s.cfg.faultAdvancesPc s (mmioWrite width off v s) := by
  simp only [mmioRead, mmioWrite, h]
  exact ⟨⟨_, rfl, faultOnly_hostFault k _ s⟩, faultOnly_hostFault k _ s⟩

/-- An access that fails an issue check with a refusal is refused, read or write. -/
theorem access_refuse {s : State} {width off : Nat} {r : RefusalReason}
    (h : checkAccess s.cfg.layout width off = .refuse r) (d : Fin 8) (v : Word) :
    (∃ t, mmioRead width d off s = .next t ∧ refusalOnly r s.cfg.faultAdvancesPc s t) ∧
      refusalOnly r s.cfg.faultAdvancesPc s (mmioWrite width off v s) := by
  simp only [mmioRead, mmioWrite, h]
  exact ⟨⟨_, rfl, refusalOnly_hostRefuse r s⟩, refusalOnly_hostRefuse r s⟩

/-- An offset of no register has none in the register map. -/
theorem regAt_eq_none {l : CmdLayout} {off : Nat} (h : ∀ r, regOffset l r ≠ off) : regAt l off = none :=
  Option.eq_none_iff_forall_not_mem.mpr fun r hr => h r ((regAt_eq_some l off r).mp hr)

/-- Settles O13: each clause is one branch of the issue checks, and a failed check is one fault or one refusal. -/
theorem issueChecksInOrder : Obligations.IssueChecksInOrder := by
  intro s width off d v
  refine ⟨fun hwidth => ?_, fun hwidth halign => ?_, fun hwidth halign hrange => ?_,
    fun hwidth halign hrange hblock => ?_⟩
  · exact access_refuse (by simp [checkAccess, hwidth]) d v
  · exact access_fault (by simp [checkAccess, hwidth, halign]) d v
  · exact access_fault (by simp [checkAccess, hwidth, halign, windowBytes, hrange]) d v
  · exact access_refuse (by simp [checkAccess, hwidth, halign, windowBytes, hrange, regAt_eq_none hblock]) d v

/-! ## What WB may take -/

/-- The entries of a queue with no older one for their offset, each with the rest of the queue. -/
theorem mem_takeableFrom (older wq rest : List Pending) (e : Pending) :
    (e, rest) ∈ takeableFrom older wq ↔
      ∃ passed newer, wq = passed ++ e :: newer ∧ rest = older ++ passed ++ newer ∧
        ∀ o ∈ older ++ passed, o.off ≠ e.off := by
  induction wq generalizing older with
  | nil => simp [takeableFrom]
  | cons a wq ih =>
    have hhead : ((e, rest) ∈ if older.any (fun o => o.off == a.off) then [] else [(a, older ++ wq)]) ↔
        e = a ∧ rest = older ++ wq ∧ ∀ o ∈ older, o.off ≠ e.off := by
      by_cases hany : ∃ o ∈ older, o.off = a.off
      · obtain ⟨o, ho, hoff⟩ := hany
        rw [if_pos (List.any_eq_true.mpr ⟨o, ho, by simpa using hoff⟩)]
        exact ⟨(fun h => absurd h List.not_mem_nil), fun ⟨he, _, hold⟩ => absurd (he ▸ hoff) (hold o ho)⟩
      · rw [if_neg (by simpa using hany), List.mem_singleton, Prod.mk.injEq]
        exact ⟨fun ⟨he, hr⟩ => ⟨he, hr, fun o ho hoff => hany ⟨o, ho, he ▸ hoff⟩⟩,
          fun ⟨he, hr, _⟩ => ⟨he, hr⟩⟩
    rw [takeableFrom, List.mem_append, hhead, ih]
    constructor
    · rintro (⟨rfl, rfl, hold⟩ | ⟨passed, newer, rfl, rfl, hold⟩)
      · exact ⟨[], wq, rfl, by simp, by simpa using hold⟩
      · exact ⟨a :: passed, newer, rfl, by simp, by simpa using hold⟩
    · rintro ⟨_ | ⟨b, passed⟩, newer, hwq, rfl, hold⟩
      · obtain ⟨rfl, rfl⟩ := List.cons.inj hwq
        exact .inl ⟨rfl, by simp, by simpa using hold⟩
      · obtain ⟨rfl, rfl⟩ := List.cons.inj hwq
        exact .inr ⟨passed, newer, rfl, by simp, by simpa using hold⟩

/-- Of a queue WB may take the entries with no older one for their offset, under STRICT_MMIO_ORDER only the oldest. -/
theorem mem_takeable (strict : Bool) (wq rest : List Pending) (e : Pending) :
    (e, rest) ∈ takeable strict wq ↔
      ∃ older newer, wq = older ++ [e] ++ newer ∧ rest = older ++ newer ∧ (∀ o ∈ older, o.off ≠ e.off) ∧
        (strict = true → older = []) := by
  cases strict with
  | false => simp [takeable, mem_takeableFrom]
  | true =>
    cases wq with
    | nil => simp [takeable, takeableFrom]
    | cons a wq =>
      suffices (e = a ∧ rest = wq) ↔ ∃ newer, a :: wq = e :: newer ∧ rest = newer by
        simpa [takeable, takeableFrom, and_comm]
      constructor
      · rintro ⟨rfl, rfl⟩
        exact ⟨_, rfl, rfl⟩
      · rintro ⟨newer, h, rfl⟩
        obtain ⟨rfl, rfl⟩ := List.cons.inj h
        exact ⟨rfl, rfl⟩

/-- A turn of WB can take every entry WB may take, and no other. -/
theorem exists_chooseWrite (strict : Bool) (wq : List Pending) (p : Pending × List Pending) :
    (∃ pick, chooseWrite strict pick wq = some p) ↔ p ∈ takeable strict wq := by
  constructor
  · rintro ⟨pick, h⟩
    exact List.mem_of_getElem? h
  · intro h
    obtain ⟨pick, hlt, hp⟩ := List.mem_iff_getElem.mp h
    exact ⟨pick, by simp [chooseWrite, Nat.mod_eq_of_lt hlt, hlt, hp]⟩

/-- Settles O15: a choice is a member of the takeable list, which is the posting rule's. -/
theorem writeBufferMayTake : Obligations.WriteBufferMayTake :=
  fun strict wq rest e => (exists_chooseWrite strict wq (e, rest)).trans (mem_takeable strict wq rest e)

/-! ## Reads behind posted writes -/

/-- Settles O17: the hold is the test of WQ that R61 writes, and a read that does not hold runs its transaction. -/
theorem readHoldsBehindPostedWrites : Obligations.ReadHoldsBehindPostedWrites := by
  intro s r d
  refine ⟨fun hpending => ?_, fun hoff hstrict => execStmt_rd d ?_⟩
  · have hholds : s.readHolds (regOffset s.cfg.layout r) = true := by simpa [State.readHolds] using hpending
    simp [execStmt, mmioRead, hholds]
  · simpa [State.readHolds] using And.intro hoff hstrict

/-! ## The buffer while a frame is posted -/

/-- While a frame is posted no write transaction reaches the buffer or the chain (42_command_bus.md R141). -/
theorem exec_writeInstr_posted {r : BlockReg} {v : Word} {s t : State} (hready : s.cmdReady = true)
    (h : exec (writeInstr r v) s = .next t) : sameBus s t := by
  obtain ⟨t', ht, hcases⟩ := exec_writeInstr r v s
  obtain rfl : t' = t := by simpa [ht] using h
  rcases hcases with ⟨_, _, rfl⟩ | ⟨_, _, rfl⟩ | ⟨_, _, hfree, _⟩ | ⟨_, hfree, _⟩ | ⟨_, rfl⟩
  · simp [sameBus]
  · simp [sameBus]
  · simp [hready] at hfree
  · simp [hready] at hfree
  · simp [sameBus]

/-- A move from a state with a frame posted leaves the buffer, its written flags and the chain. -/
theorem Move.buffer_of_posted {s t : State} {turn : Turn} (h : Move s turn t) (hready : s.cmdReady = true) :
    t.cmdBuf = s.cmdBuf ∧ t.cmdBufW = s.cmdBufW ∧ t.cmdChain = s.cmdChain := by
  cases turn with
  | host | rx =>
    obtain ⟨hbuf, hbufW, -, hchain⟩ := h.sameBus_of_not_tx_wb (by simp) (by simp)
    exact ⟨hbuf, hbufW, hchain⟩
  | tx => cases h with
    | idle => exact ⟨rfl, rfl, rfl⟩
    | send => simp
  | wb pick => cases h with
    | idle | performNowhere => exact ⟨rfl, rfl, rfl⟩
    | perform _ e rest r m hc ho hx =>
      obtain ⟨hbuf, hbufW, -, hchain⟩ := exec_writeInstr_posted (s := s.setWq rest) hready hx
      exact ⟨hbuf, hbufW, hchain⟩

/-- Settles O31: TX alone ends the posting, and nothing stores in the buffer or the chain before it. -/
theorem bufferUnchangedWhilePosted : Obligations.BufferUnchangedWhilePosted := by
  intro s t hready hstep
  have hstart : sameBus s ((turnTaken s).forTurn (turnOf s)) := by cases turnOf s <;> simp [State.forTurn, sameBus]
  obtain ⟨hbuf, hbufW, hready', hchain⟩ := hstart
  simpa [hbuf, hbufW, hchain] using (move_of_step hstep).buffer_of_posted (hready'.trans hready)

/-! ## A fence is passed -/

/-- A task of HOST stands at a fence and the other one takes no steps. -/
structure State.atFence (k : HostTask) (s : State) : Prop where
  running : (s.task k).status = .running
  fence : (s.task k).script[(s.task k).pc]? = some .fence
  alone : ∀ j, j ≠ k → (s.task j).status ≠ .running

/-- The next step is the task's and WQ is empty, so that a fence of the task passes. -/
def State.fenceOpens (k : HostTask) (s : State) : Prop := turnOf s = .host k ∧ s.wq = []

/-- What waiting at a fence leads to: HOST's tasks as they were, no write joined to WQ, and HIST at most longer. -/
structure Waits (s t : State) : Prop where
  task : ∀ j, t.task j = s.task j
  wq : t.wq.length ≤ s.wq.length
  hist : ∃ new, t.hist = s.hist ++ new

theorem Waits.refl (s : State) : Waits s s := ⟨fun _ => rfl, Nat.le_refl _, [], by simp⟩

theorem Waits.trans {s t u : State} (hst : Waits s t) (htu : Waits t u) : Waits s u where
  task j := (htu.task j).trans (hst.task j)
  wq := htu.wq.trans hst.wq
  hist := by
    obtain ⟨new, hnew⟩ := hst.hist
    obtain ⟨new', hnew'⟩ := htu.hist
    exact ⟨new ++ new', by simp [hnew, hnew']⟩

theorem Waits.atFence {s t : State} {k : HostTask} (h : Waits s t) (hs : s.atFence k) : t.atFence k where
  running := by rw [h.task]; exact hs.running
  fence := by rw [h.task]; exact hs.fence
  alone j hj := by rw [h.task]; exact hs.alone j hj

/-- A fence passes once WQ is empty (20_memory.md R62). -/
theorem hostStep_fence_passes {s : State} (hr : s.host = .running) (hs : s.script[s.pc]? = some .fence)
    (hw : s.wq = []) : hostStep s = .next (s.record .fence).nextPc := by
  simp [hostStep_of_stmt hr hs, execStmt, fenceStmt, hw]

/-- HIST only grows, and a turn that is not HOST's adds nothing to WQ. -/
theorem QueueMove.waits {s t : State} {turn : Turn} (h : QueueMove s turn t) (hturn : ∀ k, turn ≠ .host k)
    (htask : ∀ j, t.task j = s.task j) : Waits s t := by
  cases h with
  | keep new hnew hhist hwq => exact ⟨htask, by rw [hwq], new, hhist⟩
  | issue st e hhost => exact absurd hhost (hturn _)
  | perform older newer e new hnew hhist hfirst hwq hrest => exact ⟨htask, by simp [hwq, hrest], _, hhist⟩

/-- A step waits at a fence that does not open. -/
theorem State.atFence.waits_of_step {s t : State} {k : HostTask} (hs : s.atFence k) (hclosed : ¬ s.fenceOpens k)
    (hstep : step s = .next t) : Waits s t := by
  cases hturn : turnOf s with
  | host j =>
    have hholds : hostStep ((turnTaken s).activate j) = .next ((turnTaken s).activate j) := by
      by_cases hj : j = k
      · subst hj
        exact hostStep_fence_holds (by simpa using hs.fence) (by simpa using fun hw => hclosed ⟨hturn, hw⟩)
      · exact hostStep_of_not_running (by simpa using hs.alone j hj)
    obtain rfl : (turnTaken s).activate j = t := by simpa [step, hturn, runTurn, hholds] using hstep
    exact ⟨by simp, by simp, [], by simp⟩
  | tx | rx | wb =>
    have htask := ((otherAgentsLeaveHostAlone s t hstep).1 (by simp [hturn])).task
    have hwaits := (move_of_step hstep).queueMove.waits (by simp [hturn]) (by simpa using htask)
    exact ⟨htask, by simpa using hwaits.wq, by simpa using hwaits.hist⟩

/-- A step passes a fence that opens. -/
theorem State.atFence.passes_of_step {s t : State} {k : HostTask} (hs : s.atFence k) (hopen : s.fenceOpens k)
    (hstep : step s = .next t) : (t.task k).pc = (s.task k).pc + 1 ∧ t.hist = s.hist ++ [.fence] := by
  obtain ⟨hturn, hw⟩ := hopen
  have hpasses := hostStep_fence_passes (s := (turnTaken s).activate k) (by simpa using hs.running)
    (by simpa using hs.fence) (by simpa using hw)
  obtain rfl : (((turnTaken s).activate k).record .fence).nextPc = t := by
    simpa [step, hturn, runTurn, hpasses] using hstep
  exact ⟨by simp, by simp⟩

/-- At a fence of a task alone, that task has an enabled step exactly once WQ is empty, and the other has none
(assumption log 31). -/
theorem State.atFence.enabled_iff {s : State} {k : HostTask} (hs : s.atFence k) (j : HostTask) :
    s.enabled j ↔ j = k ∧ s.wq = [] := by
  by_cases hj : j = k
  · subst hj
    by_cases hw : s.wq = []
    · have hpasses := hostStep_fence_passes (s := s.activate j) (by simpa using hs.running)
        (by simpa using hs.fence) hw
      simp only [State.enabled, hpasses, hw, and_self, iff_true]
      intro h
      have hhist := congrArg State.hist (Host.Outcome.next.inj h)
      simp at hhist
    · simp [State.enabled, hw, hostStep_fence_holds (s := s.activate j) (by simpa using hs.fence) hw]
  · simp [State.enabled, hj, hostStep_of_not_running (s := s.activate j) (by simpa using hs.alone j hj)]

/-- WB has a step while a write is posted: it may take the oldest. -/
theorem chooseWrite_ne_none (strict : Bool) (pick : Nat) {wq : List Pending} (hw : wq ≠ []) :
    chooseWrite strict pick wq ≠ none := by
  obtain ⟨e, rest, rfl⟩ := List.exists_cons_of_ne_nil hw
  have hmem : (e, rest) ∈ takeable strict (e :: rest) :=
    (mem_takeable strict _ rest e).mpr ⟨[], rest, rfl, rfl, by simp, fun _ => rfl⟩
  have hlt := Nat.mod_lt pick (List.length_pos_of_mem hmem)
  simp [chooseWrite, hlt]

/-- A turn of WB takes a posted write where there is one. -/
theorem Move.wb_shortens {s t : State} {pick : Nat} (h : Move s (.wb pick) t) (hw : s.wq ≠ []) :
    t.wq.length < s.wq.length := by
  cases h with
  | idle _ _ _ _ hnone => exact absurd (hnone pick rfl) (chooseWrite_ne_none _ _ hw)
  | perform _ e rest r m hc ho hx =>
    obtain ⟨older, newer, hwq, rfl, -⟩ := chooseWrite_eq_some hc
    simp [hwq, (exec_writeInstr_queues hx).1]
  | performNowhere _ e rest hc =>
    obtain ⟨older, newer, hwq, rfl, -⟩ := chooseWrite_eq_some hc
    simp [hwq]

section Run
variable {σ : Nat → State} {n : Nat} {k : HostTask}

/-- A run waits at a fence until it opens. -/
theorem waits_until_open (hrun : IsRun σ) (hs : (σ n).atFence k) {m : Nat} (hnm : n ≤ m)
    (hclosed : ∀ i, n ≤ i → i < m → ¬ (σ i).fenceOpens k) : Waits (σ n) (σ m) := by
  induction m, hnm using Nat.le_induction with
  | base => exact .refl _
  | succ m hnm ih =>
    have hwait := ih fun i hni him => hclosed i hni (Nat.lt_succ_of_lt him)
    exact hwait.trans ((hwait.atFence hs).waits_of_step (hclosed m hnm (Nat.lt_succ_self m)) (hrun m))

/-- While a task waits at a fence WB empties WQ, by its fairness: each of its turns takes a write and none joins. -/
theorem wq_empties (hrun : IsRun σ) (hfair : WeaklyFair σ)
    (hwait : ∀ i j, n ≤ i → i ≤ j → Waits (σ i) (σ j)) : ∃ m, n ≤ m ∧ (σ m).wq = [] := by
  suffices h : ∀ len i, n ≤ i → (σ i).wq.length ≤ len → ∃ m, n ≤ m ∧ (σ m).wq = [] from
    h _ n (Nat.le_refl n) (Nat.le_refl _)
  intro len
  induction len with
  | zero => exact fun i hni hlen => ⟨i, hni, List.eq_nil_of_length_eq_zero (Nat.le_zero.mp hlen)⟩
  | succ len ih =>
    intro i hni hlen
    by_contra! hfull
    obtain ⟨m, pick, him, hturn⟩ := hfair.wb i fun j hij => hfull j (hni.trans hij)
    have hmove := move_of_step (hrun m)
    rw [hturn] at hmove
    have hshort := hmove.wb_shortens (by simpa using hfull m (hni.trans him))
    rw [State.forTurn_wq, turnTaken_wq] at hshort
    obtain ⟨m', hnm', hempty⟩ := ih (m + 1) (by omega) (by have := (hwait i m hni him).wq; omega)
    exact hfull m' hnm' hempty

/-- In a weakly fair run a fence opens: WB empties WQ, and then the task is the one enabled at HOST. -/
theorem fence_opens (hrun : IsRun σ) (hfair : WeaklyFair σ) (hs : (σ n).atFence k) :
    ∃ m, n ≤ m ∧ (σ m).fenceOpens k := by
  by_contra! hclosed
  have hat : ∀ i, n ≤ i → (σ i).atFence k := fun i hni =>
    (waits_until_open hrun hs hni fun j hnj _ => hclosed j hnj).atFence hs
  have hwait : ∀ i j, n ≤ i → i ≤ j → Waits (σ i) (σ j) := fun i j hni hij =>
    waits_until_open hrun (hat i hni) hij fun l hil _ => hclosed l (hni.trans hil)
  obtain ⟨e, hne, hempty⟩ := wq_empties hrun hfair hwait
  have hstays : ∀ i, e ≤ i → (σ i).wq = [] := fun i hei => by simpa [hempty] using (hwait e i hne hei).wq
  obtain ⟨m, j, hem, hturn, hen⟩ := hfair.host e fun i hei =>
    ⟨k, ((hat i (hne.trans hei)).enabled_iff k).mpr ⟨rfl, hstays i hei⟩⟩
  obtain ⟨rfl, hw⟩ := ((hat m (hne.trans hem)).enabled_iff j).mp hen
  exact hclosed m (hne.trans hem) ⟨hturn, hw⟩

end Run

/-- Settles O60: the fence opens at some step, and the first step at which it opens passes it. -/
theorem fenceIsEventuallyPassed : Obligations.FenceIsEventuallyPassed := by
  classical
  intro σ hrun hfair n k hr hfence halone
  have hs : (σ n).atFence k := ⟨hr, hfence, halone⟩
  have hopens := fence_opens hrun hfair hs
  obtain ⟨hnm, hopen⟩ := Nat.find_spec hopens
  have hwait := waits_until_open hrun hs hnm fun i hni him hi => Nat.find_min hopens him ⟨hni, hi⟩
  obtain ⟨hpc, hhist⟩ := (hwait.atFence hs).passes_of_step hopen (hrun _)
  obtain ⟨mid, hmid⟩ := hwait.hist
  exact ⟨_, Nat.lt_succ_of_le hnm, by rw [hpc, hwait.task], mid, by rw [hhist, hmid]⟩

end Sys2Proof.Machine
end

section
/-! SUPPORT. The encoding statements of 30_encoding.md: decode inverts encode, the frame decoder's five tests, and the
bytes of the command buffer. -/

namespace Sys2Proof.Machine

/-! ## Transaction records -/

/-- The low bytes of a number are those of the number below the byte count's power of 256. -/
theorem numberUp_bytesUp (n w : Nat) : numberUp (bytesUp n w) = w % 256 ^ n := by
  induction n generalizing w with
  | zero => simp [bytesUp, numberUp, Nat.mod_one]
  | succ n ih => simp [bytesUp, numberUp, ih, pow_succ', Nat.mod_mul]

/-- A record's code and operand are read back from its six bytes. -/
theorem decodeTransaction_record (l : CmdLayout) {code operand : Nat} (hc : code < 2 ^ 16) (ho : operand < 2 ^ 32) :
    decodeTransaction l (bytesUp 2 code ++ bytesUp 4 operand) = transactionAt l code operand := by
  have hcode : numberUp (bytesUp 2 code) = code := by rw [numberUp_bytesUp]; omega
  have hoperand : numberUp (bytesUp 4 operand) = operand := by rw [numberUp_bytesUp]; omega
  calc decodeTransaction l (bytesUp 2 code ++ bytesUp 4 operand)
      = transactionAt l (numberUp (bytesUp 2 code)) (numberUp (bytesUp 4 operand)) := rfl
    _ = transactionAt l code operand := by rw [hcode, hoperand]

/-- The transaction code carries the register's offset and, above it, the direction (30_encoding.md R87). -/
theorem transactionCode_regOffset (write : Bool) (l : CmdLayout) (r : BlockReg) :
    transactionCode write (regOffset l r) = (if write then 0x2000 else 0) + regOffset l r := by
  rw [transactionCode, Nat.mod_eq_of_lt (regOffset_lt l r)]

/-- A read's code and register number decode to the read. -/
theorem transactionAt_read (l : CmdLayout) (r : BlockReg) (d : Fin 8) :
    transactionAt l (transactionCode false (regOffset l r)) d.val = .ok (readInstr r d) := by
  have hoff := regOffset_lt l r
  simp [transactionAt, transactionCode_regOffset, Nat.mod_eq_of_lt hoff, show ¬ 0x4000 ≤ regOffset l r by omega,
    Nat.not_le.mpr hoff]

/-- A write's code and word decode to the write. -/
theorem transactionAt_write (l : CmdLayout) (r : BlockReg) (v : Word) :
    transactionAt l (transactionCode true (regOffset l r)) v.toNat = .ok (writeInstr r v) := by
  have hoff := regOffset_lt l r
  simp [transactionAt, transactionCode_regOffset, Nat.mod_eq_of_lt hoff,
    show ¬ 0x4000 ≤ 0x2000 + regOffset l r by omega]

/-- The instruction a transaction is (30_encoding.md R88). -/
def Transaction.instr : Transaction → Instr
  | .read r d => readInstr r d
  | .write r v => writeInstr r v

/-- An instruction is the read or write it takes apart to. -/
theorem transactionOf_eq_some {i : Instr} {t : Transaction} (h : transactionOf i = some t) : t.instr = i := by
  cases i <;> cases h <;> rfl

/-- The code of an access fits in the record's two code bytes. -/
theorem transactionCode_lt (write : Bool) (off : Nat) : transactionCode write off < 2 ^ 16 := by
  unfold transactionCode
  split <;> omega

/-- Settles O4: a frame is read back by its parser, and a record's six bytes give back the code and the operand, which
name the access and its register. -/
theorem decodeOfEncodeIsTheInstruction : Obligations.DecodeOfEncodeIsTheInstruction := by
  intro l i
  cases ht : transactionOf i with
  | none =>
    have hframe : i.language = .frame := by rw [Instr.language, ht]
    simp [hframe, encode, ht, decode, parseFrame_frameBytes hframe, Except.mapError]
  | some t =>
    have hi : t.instr = i := transactionOf_eq_some ht
    cases t with
    | read r d =>
      have hrecord := decodeTransaction_record l (transactionCode_lt false (regOffset l r))
        (operand := d.val) (by omega)
      simpa [Instr.language, ht, encode, decode, hrecord, transactionAt_read, Except.mapError, Transaction.instr]
        using hi
    | write r v =>
      have hrecord := decodeTransaction_record l (transactionCode_lt true (regOffset l r)) v.isLt
      simpa [Instr.language, ht, encode, decode, hrecord, transactionAt_write, Except.mapError, Transaction.instr]
        using hi

/-! ## The frame parser -/

/-- The CRC byte is made of its field (30_encoding.md R76). -/
theorem crcField_eq_ok {b : Byte} {c : BitVec 5} (h : crcField b = .ok c) : crcByte c = b := by
  unfold crcField at h
  split at h
  · rename_i hhigh
    cases h
    unfold crcByte
    bv_omega
  · cases h

/-- A frame built on a CRC byte carries the byte's field. -/
theorem crcField_map_eq_ok {b : Byte} {f : BitVec 5 → Instr} {i : Instr} (h : (crcField b).map f = .ok i) :
    ∃ c, b = crcByte c ∧ i = f c := by
  cases hc : crcField b with
  | error e => simp [hc, Except.map] at h
  | ok c =>
    simp only [hc, Except.map, Except.ok.injEq] at h
    exact ⟨c, (crcField_eq_ok hc).symm, h.symm⟩

/-- The five-byte parser gives the frame its bytes spell. -/
theorem frameBytes_of_parseF5 {b0 b1 b2 b3 b4 : Byte} {i : Instr} (h : parseF5 b0 b1 b2 b3 b4 = .ok i) :
    frameBytes i = [b0, b1, b2, b3, b4] := by
  unfold parseF5 at h
  split_ifs at h
  all_goals
    obtain ⟨c, rfl, rfl⟩ := crcField_map_eq_ok h
    simp_all [frameBytes, frameCrc, frameBody]

/-- The nine-byte parser gives the frame its bytes spell. -/
theorem frameBytes_of_parseF9 {b0 b1 b2 b3 b4 b5 b6 b7 b8 : Byte} {i : Instr}
    (h : parseF9 b0 b1 b2 b3 b4 b5 b6 b7 b8 = .ok i) : frameBytes i = [b0, b1, b2, b3, b4, b5, b6, b7, b8] := by
  unfold parseF9 at h
  split_ifs at h
  all_goals
    obtain ⟨c, rfl, rfl⟩ := crcField_map_eq_ok h
    simp_all [frameBytes, frameCrc, frameBody]

/-- The frame parser reads exactly the frames, each from its bytes (30_encoding.md R73, R92). -/
theorem parseFrame_eq_ok {bs : List Byte} {i : Instr} :
    parseFrame bs = .ok i ↔ i.language = .frame ∧ bs = frameBytes i := by
  refine ⟨fun h => ⟨parseFrame_language h, ?_⟩, fun ⟨hi, hbs⟩ => hbs ▸ parseFrame_frameBytes hi⟩
  unfold parseFrame at h
  split at h
  · exact (frameBytes_of_parseF5 h).symm
  · exact (frameBytes_of_parseF9 h).symm
  · cases h

/-- The frame decoder accepts what the parser reads with the right CRC. -/
theorem decodeFrame_eq_ok {bs : List Byte} {i : Instr} :
    decodeFrame bs = .ok i ↔ parseFrame bs = .ok i ∧ i.wellFormed = true := by
  unfold decodeFrame
  cases parseFrame bs with
  | error e => simp
  | ok j =>
    by_cases hj : j.wellFormed
    · simp only [hj, if_true, Except.ok.injEq]
      exact ⟨fun h => ⟨h, h ▸ hj⟩, And.left⟩
    · simp only [hj, Bool.false_eq_true, if_false, reduceCtorEq, Except.ok.injEq, false_iff]
      exact fun ⟨h, hi⟩ => hj (h ▸ hi)

/-- Settles O5: the parser's frames, and the CRC check the decoder adds. -/
theorem frameDecoderAcceptsExactlyTheFrames : Obligations.FrameDecoderAcceptsExactlyTheFrames := by
  intro bs i
  rw [decodeFrame_eq_ok, parseFrame_eq_ok]
  tauto

/-! ## The five tests of the frame decoder -/

/-- Test 1 of R77: the length. -/
abbrev lengthOk (bs : List Byte) : Prop := bs.length = 5 ∨ bs.length = 9

/-- Test 2 of R77: the length byte. -/
abbrev lengthByteOk (bs : List Byte) : Prop := (padByte bs 1).toNat = bs.length

/-- Test 3 of R77: the header of a frame of that length. -/
abbrev headerOk (bs : List Byte) : Prop :=
  (bs.length = 5 ∧ (padByte bs 0 = 0x53 ∨ padByte bs 0 = 0x40)) ∨
    (bs.length = 9 ∧ (padByte bs 0 = 0x41 ∨ padByte bs 0 = 0x51 ∨ padByte bs 0 = 0x42 ∨ padByte bs 0 = 0x52))

/-- Test 4 of R77: the bytes that are fixed at 0. -/
abbrev fixedZero (bs : List Byte) : Prop :=
  (bs.length = 5 → padByte bs 3 = 0) ∧ (padByte bs 0 = 0x53 → padByte bs 2 = 0) ∧
    (padByte bs 0 = 0x42 ∨ padByte bs 0 = 0x52 →
      padByte bs 4 = 0 ∧ padByte bs 5 = 0 ∧ padByte bs 6 = 0 ∧ padByte bs 7 = 0)

/-- The fixed bits of test 5 of R77. -/
abbrev crcHighZero (bs : List Byte) : Prop := padByte bs (bs.length - 1) >>> 5 = 0

/-- The value of the CRC in test 5 of R77. -/
abbrev crcMatches (bs : List Byte) : Prop :=
  crc5 (bs.take (bs.length - 1)) (8 * (bs.length - 1)) = .ok ((padByte bs (bs.length - 1)).setWidth 5)

/-- The outcome of five tests made in order, with the reasons R77 gives them. -/
def firstFailing (length lengthByte header fixed crc : Prop) [Decidable length] [Decidable lengthByte]
    [Decidable header] [Decidable fixed] [Decidable crc] : Except FrameError Unit :=
  if ¬length then .error .badLength
  else if ¬lengthByte then .error .lengthMismatch
  else if ¬header then .error .badHeader
  else if ¬fixed then .error .nonzeroReserved
  else if ¬crc then .error .badCrc
  else .ok ()

section Tests
variable (length lengthByte header fixed crc : Prop) [Decidable length] [Decidable lengthByte]
  [Decidable header] [Decidable fixed] [Decidable crc]

/-- Each reason is given exactly when its test is the first to fail. -/
theorem firstFailing_cases :
    (firstFailing length lengthByte header fixed crc = .error .badLength ↔ ¬length) ∧
    (firstFailing length lengthByte header fixed crc = .error .lengthMismatch ↔ length ∧ ¬lengthByte) ∧
    (firstFailing length lengthByte header fixed crc = .error .badHeader ↔ length ∧ lengthByte ∧ ¬header) ∧
    (firstFailing length lengthByte header fixed crc = .error .nonzeroReserved ↔
      length ∧ lengthByte ∧ header ∧ ¬fixed) ∧
    (firstFailing length lengthByte header fixed crc = .error .badCrc ↔
      length ∧ lengthByte ∧ header ∧ fixed ∧ ¬crc) ∧
    (firstFailing length lengthByte header fixed crc = .ok () ↔ length ∧ lengthByte ∧ header ∧ fixed ∧ crc) := by
  unfold firstFailing
  split_ifs <;> simp [*]

/-- A second half of the last test is made after all the others. -/
theorem firstFailing_and (value : Prop) [Decidable value] :
    firstFailing length lengthByte header fixed (crc ∧ value) =
      (firstFailing length lengthByte header fixed crc).bind
        fun _ => if value then .ok () else .error .badCrc := by
  unfold firstFailing
  split_ifs <;> simp_all [Except.bind]

end Tests

/-- The tests of R77 on a byte list, the last one as an argument: the parser makes its first half alone. -/
def frameTests (bs : List Byte) (crc : Prop) [Decidable crc] : Except FrameError Unit :=
  firstFailing (lengthOk bs) (lengthByteOk bs) (headerOk bs) (fixedZero bs) crc

/-- A map keeps an error. -/
@[simp] theorem except_map_error {ε α β : Type} (f : α → β) (e : ε) : (Except.error e).map f = .error e := rfl

/-- What a success carries does not matter to an error. -/
theorem map_unit_eq_error {α : Type} {x : Except FrameError α} {e : FrameError} :
    x.map (fun _ => ()) = .error e ↔ x = .error e := by
  cases x <;> simp [Except.map]

/-- What a success carries does not matter to whether there is one. -/
theorem map_unit_eq_ok {α : Type} {x : Except FrameError α} : x.map (fun _ => ()) = .ok () ↔ ∃ a, x = .ok a := by
  cases x <;> simp [Except.map]

/-- Reading the CRC byte fails for a bit above the field alone. -/
theorem crcField_map_unit (b : Byte) (f : BitVec 5 → Instr) : ((crcField b).map f).map (fun _ => ()) =
    if b >>> 5 = 0 then .ok () else .error .badCrc := by
  unfold crcField
  split <;> rfl

/-- The five-byte parser makes the tests in their order. -/
theorem parseF5_tests (b0 b1 b2 b3 b4 : Byte) : (parseF5 b0 b1 b2 b3 b4).map (fun _ => ()) =
    frameTests [b0, b1, b2, b3, b4] (b4 >>> 5 = 0) := by
  simp only [parseF5, ne_eq, or_comm (a := ¬b2 = 0), ← not_and_or]
  split_ifs <;> simp_all [frameTests, firstFailing, padByte, crcField_map_unit, BitVec.toNat_eq]

/-- The nine-byte parser makes the tests in their order. -/
theorem parseF9_tests (b0 b1 b2 b3 b4 b5 b6 b7 b8 : Byte) :
    (parseF9 b0 b1 b2 b3 b4 b5 b6 b7 b8).map (fun _ => ()) =
      frameTests [b0, b1, b2, b3, b4, b5, b6, b7, b8] (b8 >>> 5 = 0) := by
  simp only [parseF9, ne_eq, ← not_and_or]
  split_ifs <;> simp_all [frameTests, firstFailing, padByte, crcField_map_unit, BitVec.toNat_eq]

/-- The parser makes the tests of R77 in their order, but for the CRC's value. -/
theorem parseFrame_tests (bs : List Byte) : (parseFrame bs).map (fun _ => ()) = frameTests bs (crcHighZero bs) := by
  unfold parseFrame
  split
  · exact parseF5_tests ..
  · exact parseF9_tests ..
  · rename_i h5 h9
    have hlen : ¬lengthOk bs := by
      rintro (h | h)
      · match bs, h with
        | [b0, b1, b2, b3, b4], _ => exact h5 b0 b1 b2 b3 b4 rfl
      · match bs, h with
        | [b0, b1, b2, b3, b4, b5, b6, b7, b8], _ => exact h9 b0 b1 b2 b3 b4 b5 b6 b7 b8 rfl
    simp only [frameTests, firstFailing, hlen, not_false_eq_true, if_true, except_map_error]

/-- The CRC over a whole byte list is the CRC of all its bits (40_crc5.md R103). -/
theorem crc5_length (d : List Byte) : crc5 d (8 * d.length) = .ok (crc5All d) := by
  have hbits : (bitsOf d).length = 8 * d.length := by simp [bitsOf, bitsOfByte, List.length_flatMap, Nat.mul_comm]
  simp [crc5, crc5All, ← hbits]

/-- A frame's CRC field is right when the value in its last byte is the CRC of the bytes before it. -/
theorem wellFormed_iff_crcMatches {i : Instr} (h : i.language = .frame) :
    i.wellFormed = true ↔ crcMatches (frameBytes i) := by
  obtain ⟨crc, hcrc⟩ : ∃ crc, frameCrc i = some crc := by
    induction i, h using Instr.frameCases <;> exact ⟨_, rfl⟩
  have hfield : (crcByte crc).setWidth 5 = crc := by simp [crcByte]
  have hbytes : frameBytes i = frameBody i ++ [crcByte crc] := by rw [frameBytes, hcrc]
  have hlen : (frameBytes i).length - 1 = (frameBody i).length := by simp [hbytes]
  have hlast : padByte (frameBytes i) (frameBody i).length = crcByte crc := by simp [padByte, hbytes]
  have hbody : (frameBytes i).take (frameBody i).length = frameBody i := by simp [hbytes]
  rw [crcMatches, hlen, hlast, hbody, hfield, crc5_length, Instr.wellFormed, hcrc, Except.ok.injEq]
  exact (beq_iff_eq (α := BitVec 5)).trans eq_comm

/-- The decoder makes the five tests of R77 in their order. -/
theorem decodeFrame_tests (bs : List Byte) :
    (decodeFrame bs).map (fun _ => ()) = frameTests bs (crcHighZero bs ∧ crcMatches bs) := by
  rw [decodeFrame, frameTests, firstFailing_and, ← frameTests, ← parseFrame_tests]
  cases hp : parseFrame bs with
  | error e => rfl
  | ok i =>
    obtain ⟨hi, rfl⟩ := parseFrame_eq_ok.mp hp
    simp only [Except.map, Except.bind, wellFormed_iff_crcMatches hi]
    split_ifs <;> rfl

/-- Settles O6: the decoder's outcome is the first failing test's, and by O5 a frame spells its bytes. -/
theorem frameDecoderRejectsByTheFirstFailingTest : Obligations.FrameDecoderRejectsByTheFirstFailingTest := by
  intro bs
  have hcases := firstFailing_cases (lengthOk bs) (lengthByteOk bs) (headerOk bs) (fixedZero bs)
    (crcHighZero bs ∧ crcMatches bs)
  rw [← frameTests, ← decodeFrame_tests] at hcases
  simp only [map_unit_eq_error, map_unit_eq_ok] at hcases
  obtain ⟨hlength, hlengthByte, hheader, hfixed, hcrc, hok⟩ := hcases
  refine ⟨hlength, hlengthByte, hheader, hfixed, hcrc, hok, fun i hi => ?_⟩
  obtain ⟨-, -, hbs⟩ := (frameDecoderAcceptsExactlyTheFrames bs i).mp hi
  exact hbs.symm

/-! ## The bytes of the command buffer -/

/-- Byte `j` of a word, counted from its high end (30_encoding.md R81). -/
theorem wordBytes_getElem (w : Word) (j : Fin 4) : (wordBytes w)[j.val]'j.isLt = w.extractLsb' (24 - 8 * j.val) 8 := by
  match j with
  | 0 | 1 | 2 | 3 => ext i hi; simp [wordBytes]

/-- The buffer's bytes are those of its words, four to a word. -/
theorem bufByte_word (buf : Vector Word 3) (k : Fin 3) (j : Fin 4) :
    bufByte buf (4 * k.val + j.val) = (wordBytes buf[k])[j.val]'j.isLt := by
  obtain ⟨⟨ws⟩, hws⟩ := buf
  match ws, hws with
  | [w0, w1, w2], _ => fin_cases k <;> fin_cases j <;> rfl

/-- The buffer has twelve bytes. -/
theorem bufByte_of_ge (buf : Vector Word 3) {i : Nat} (hi : 12 ≤ i) : bufByte buf i = 0 := by
  have hlen : (buf.toList.flatMap wordBytes).length = 12 := by simp [List.length_flatMap, wordBytes]
  simp [bufByte, List.getElem?_eq_none (hlen ▸ hi)]

/-- Settles O10: the packed bytes and their padding, and the bits of a word's bytes. -/
theorem bufferBytesInvertPacking : Obligations.BufferBytesInvertPacking := by
  refine ⟨fun bs i hbs => ?_, fun buf k j => by rw [bufByte_word, wordBytes_getElem]⟩
  by_cases hi : i < 12
  · exact bufByte_pack bs hi
  · have hi : 12 ≤ i := Nat.not_lt.mp hi
    rw [bufByte_of_ge _ hi, List.getD_eq_default _ _ (hbs.trans hi)]

/-! ## Words of the opcode table -/

/-- Settles O11: each word decoded. -/
theorem tableWordsDecode : Obligations.TableWordsDecode := by
  refine ⟨?_, ?_, ?_, ?_, ?_, ?_⟩ <;> decide

end Sys2Proof.Machine
end

section
/-! SUPPORT. The statements of 40_crc5.md: the register as a linear map of register and input bit (R102, R107), the
pattern a flipped bit leaves in the CRC5 and its period, and the three laws R108, R109 and R110. -/

namespace Sys2Proof.Machine

/-! ## The step is linear -/

/-- The step shifts and, when the top bit and the input bit differ, adds the polynomial (40_crc5.md R102). -/
theorem crc5Step_eq (c : BitVec 5) (b : Bool) :
    crc5Step c b = c <<< 1 ^^^ if c.getLsbD 4 ^^ b then crcPoly else 0#5 := by
  cases hdiff : c.getLsbD 4 ^^ b <;> simp_all [crc5Step]

/-- The step is linear in the register and the input bit together (40_crc5.md R107). -/
theorem crc5Step_xor (c d : BitVec 5) (a b : Bool) :
    crc5Step (c ^^^ d) (a ^^ b) = crc5Step c a ^^^ crc5Step d b := by
  have hfeedback : ((c ^^^ d).getLsbD 4 ^^ (a ^^ b)) = ((c.getLsbD 4 ^^ a) ^^ (d.getLsbD 4 ^^ b)) := by
    simp [Bool.xor_comm, Bool.xor_left_comm]
  have hpoly (f g : Bool) : (if f ^^ g then crcPoly else 0#5) =
      (if f then crcPoly else 0#5) ^^^ if g then crcPoly else 0#5 := by cases f <;> cases g <;> simp
  rw [crc5Step_eq, crc5Step_eq, crc5Step_eq, hfeedback, hpoly, BitVec.shiftLeft_xor_distrib]
  ac_rfl

/-- The step of a zero input bit: the register as a polynomial, times `x` (40_crc5.md R106). -/
def crcDrift (c : BitVec 5) : BitVec 5 := crc5Step c false

/-- A difference of two registers drifts by itself, whatever the input bit. -/
theorem crc5Step_xor_left (c p : BitVec 5) (b : Bool) : crc5Step (c ^^^ p) b = crc5Step c b ^^^ crcDrift p := by
  simpa [crcDrift] using crc5Step_xor c p b false

/-- A flipped input bit adds the polynomial to the register. -/
theorem crc5Step_not (c : BitVec 5) (b : Bool) : crc5Step c (!b) = crc5Step c b ^^^ crcPoly := by
  simpa [crc5Step] using crc5Step_xor c 0 b true

/-- A run is linear in its first register and its input together. -/
theorem foldl_crc5Step_zipWith_xor {x y : List Bool} (h : x.length = y.length) (c d : BitVec 5) :
    (List.zipWith (· ^^ ·) x y).foldl crc5Step (c ^^^ d) = x.foldl crc5Step c ^^^ y.foldl crc5Step d := by
  induction x generalizing y c d with
  | nil => simp [List.length_eq_zero_iff.mp h.symm]
  | cons a x ih =>
    cases y with
    | nil => cases h
    | cons b y => simpa [crc5Step_xor] using ih (Nat.succ.inj h) _ _

/-- A difference of the first registers drifts once for each input bit. -/
theorem foldl_crc5Step_xor_left (bits : List Bool) (c p : BitVec 5) :
    bits.foldl crc5Step (c ^^^ p) = bits.foldl crc5Step c ^^^ crcDrift^[bits.length] p := by
  induction bits generalizing c p with
  | nil => rfl
  | cons b bits ih => simp [crc5Step_xor_left, ih]

/-- Zero input bits make the register drift. -/
theorem foldl_crc5Step_replicate_false (n : Nat) (c : BitVec 5) :
    (List.replicate n false).foldl crc5Step c = crcDrift^[n] c := by
  induction n generalizing c with
  | zero => rfl
  | succ n ih => exact ih (crcDrift c)

/-- The affine law (40_crc5.md R109). -/
theorem crc5Bits_zipWith_xor {x y : List Bool} (h : x.length = y.length) :
    crc5Bits (List.zipWith (· ^^ ·) x y) =
      crc5Bits x ^^^ crc5Bits y ^^^ crc5Bits (List.replicate x.length false) := by
  have hxy : crc5Bits (List.zipWith (· ^^ ·) x y) = crc5Bits x ^^^ y.foldl crc5Step 0 := by
    simpa [crc5Bits] using foldl_crc5Step_zipWith_xor h crcSeed 0
  have hy : crc5Bits y = y.foldl crc5Step 0 ^^^ crcDrift^[y.length] crcSeed := by
    simpa [crc5Bits] using foldl_crc5Step_xor_left y 0 crcSeed
  have hzero : crc5Bits (List.replicate x.length false) = crcDrift^[y.length] crcSeed := by
    rw [h]; exact foldl_crc5Step_replicate_false _ _
  rw [hxy, hy, hzero]
  simp [BitVec.xor_assoc]

/-! ## The pattern of a flipped bit -/

/-- What a flipped bit changes in the CRC5 when `m` bits follow it: the polynomial, drifted `m` times. -/
def flipPattern (m : Nat) : BitVec 5 := crcDrift^[m] crcPoly

/-- A flipped input bit changes the CRC5 by its pattern. -/
theorem crc5Bits_modify_not {x : List Bool} {j : Nat} (h : j < x.length) :
    crc5Bits (x.modify j (! ·)) = crc5Bits x ^^^ flipPattern (x.length - (j + 1)) := by
  have hx : crc5Bits x = crc5Bits (x.take j ++ x[j] :: x.drop (j + 1)) := by simp
  rw [hx, List.modify_eq_take_cons_drop h]
  simp [crc5Bits, crc5Step_not, foldl_crc5Step_xor_left, flipPattern, -List.getElem_cons_drop]

/-- Two flipped bits change the CRC5 by both patterns. -/
theorem crc5Bits_modify_not_twice {x : List Bool} {j k : Nat} (hj : j < x.length) (hk : k < x.length) :
    crc5Bits ((x.modify j (! ·)).modify k (! ·)) =
      crc5Bits x ^^^ (flipPattern (x.length - (j + 1)) ^^^ flipPattern (x.length - (k + 1))) := by
  rw [crc5Bits_modify_not (by simpa using hk), crc5Bits_modify_not hj, List.length_modify, BitVec.xor_assoc]

/-- No register but zero drifts to zero. -/
theorem crcDrift_ne_zero : ∀ {c : BitVec 5}, c ≠ 0 → crcDrift c ≠ 0 := by decide

/-- The pattern of a flipped bit is never zero. -/
theorem flipPattern_ne_zero (m : Nat) : flipPattern m ≠ 0 := by
  induction m with
  | zero => decide
  | succ m ih =>
    rw [flipPattern, Function.iterate_succ_apply']
    exact crcDrift_ne_zero ih

/-- Thirty-one drifts give the polynomial back. -/
theorem isPeriodicPt_crcDrift_crcPoly : Function.IsPeriodicPt crcDrift 31 crcPoly := by
  simp [Function.IsPeriodicPt, Function.IsFixedPt, crcDrift, crc5Step, crcPoly]

/-- `x` has the order 31 modulo the polynomial (40_crc5.md R109): the period divides the prime 31 and is not 1. -/
theorem minimalPeriod_crcDrift_crcPoly : Function.minimalPeriod crcDrift crcPoly = 31 :=
  have : Fact (Nat.Prime 31) := ⟨by norm_num⟩
  Function.minimalPeriod_eq_prime isPeriodicPt_crcDrift_crcPoly (by decide)

/-- Two flipped bits have one pattern exactly when their places differ by a multiple of 31. -/
theorem flipPattern_eq_iff {m n : Nat} : flipPattern m = flipPattern n ↔ m % 31 = n % 31 := by
  have hperiod := minimalPeriod_crcDrift_crcPoly
  have hmod (k : Nat) : flipPattern k = crcDrift^[k % 31] crcPoly :=
    (isPeriodicPt_crcDrift_crcPoly.iterate_mod_apply k).symm
  rw [hmod m, hmod n]
  exact Function.iterate_eq_iterate_iff_of_lt_minimalPeriod (by omega) (by omega)

/-- Two flipped bits leave the CRC5 unchanged exactly when their places differ by a multiple of 31. -/
theorem crc5Bits_modify_not_twice_eq_iff {x : List Bool} {j k : Nat} (hj : j < x.length) (hk : k < x.length) :
    crc5Bits ((x.modify j (! ·)).modify k (! ·)) = crc5Bits x ↔ j % 31 = k % 31 := by
  have hcancel : crc5Bits ((x.modify j (! ·)).modify k (! ·)) = crc5Bits x ↔
      flipPattern (x.length - (j + 1)) = flipPattern (x.length - (k + 1)) := by
    simp [crc5Bits_modify_not_twice hj hk]
  rw [hcancel, flipPattern_eq_iff]
  omega

/-! ## The three laws -/

/-- The CRC5 of an input is the register after its bits (40_crc5.md R103). -/
theorem crc5_eq_ok {d : List Byte} {nbits : Nat} {c : BitVec 5} (h : crc5 d nbits = .ok c) :
    crc5Bits ((bitsOf d).take nbits) = c := by
  unfold crc5 at h
  split at h
  · exact Except.ok.inj h
  · cases h

/-- The register after the register's own bits, most significant first: each equals the top bit, so no step adds the
polynomial and the register shifts out (40_crc5.md R108). -/
theorem foldl_crc5Step_own_bits (c : BitVec 5) :
    [c.getLsbD 4, c.getLsbD 3, c.getLsbD 2, c.getLsbD 1, c.getLsbD 0].foldl crc5Step c = 0 := by
  simp [crc5Step]

/-- The CRC5 of the chain-inactive frame's body (40_crc5.md R110). -/
theorem crc5All_chainInactive : crc5All [0x53, 0x05, 0x00, 0x00] = 0x03 := by
  simp [crc5All, crc5Bits, bitsOf, bitsOfByte, crc5Step, crcSeed, crcPoly]

/-- A run over a frame's bytes goes on from the CRC5 of its body through the bits of its CRC byte. -/
theorem crc5All_append_byte (d : List Byte) (b : Byte) :
    crc5All (d ++ [b]) = (bitsOfByte b).foldl crc5Step (crc5All d) := by
  simp [crc5All, crc5Bits, bitsOf]

/-- Settles O1: the register shifts out its own bits, and the chain-inactive frame leaves another register. -/
theorem crcResidueIsZero : Obligations.CrcResidueIsZero := by
  refine ⟨fun d nbits c hc => ?_, .chainInactive 0x03, rfl, ?_, ?_⟩
  · rw [← crc5_eq_ok hc, crc5Bits, List.foldl_append]
    exact foldl_crc5Step_own_bits _
  · exact beq_iff_eq.mpr crc5All_chainInactive.symm
  · have hbytes : frameBytes (.chainInactive 0x03) = [0x53, 0x05, 0x00, 0x00] ++ [0x03] := rfl
    rw [hbytes, crc5All_append_byte, crc5All_chainInactive]
    decide

/-- Settles O2: the affine law of a linear step, and the flips by their patterns. -/
theorem crcAffineAndErrorDetection : Obligations.CrcAffineAndErrorDetection := by
  refine ⟨fun x y h => crc5Bits_zipWith_xor h, fun x y j h hj => ?_, fun x j hj => ?_, fun x j hj => ?_,
    fun x j k hjk hk31 hk => ?_⟩
  · have hpattern {z : List Bool} (hz : j < z.length) :
        crc5Bits (z.modify j (! ·)) ^^^ crc5Bits z = flipPattern (z.length - (j + 1)) := by
      simp [crc5Bits_modify_not hz]
    rw [hpattern hj, hpattern (h ▸ hj), h]
  · rw [crc5Bits_modify_not hj, ne_eq, xor_left_eq_self_iff]
    exact flipPattern_ne_zero _
  · rw [crc5Bits_modify_not_twice_eq_iff (by omega) hj]
    omega
  · rw [ne_eq, crc5Bits_modify_not_twice_eq_iff (by omega) hk]
    omega

/-- The CRC5s of an input's beginnings are the registers of one run over it. -/
theorem crc5Bits_take_succ (bits : List Bool) :
    (List.range bits.length).map (fun n => crc5Bits (bits.take (n + 1))) = (bits.scanl crc5Step crcSeed).tail :=
  List.ext_getElem (by simp) fun n _ _ => by simp [crc5Bits, List.getElem_scanl]

/-- Settles O3: the registers of one run over the frame's 32 bits. -/
theorem crcChainInactiveTrace : Obligations.CrcChainInactiveTrace := by
  refine ⟨?_, (crc5Bits_take_succ (bitsOf [0x53, 0x05, 0x00, 0x00])).trans ?_⟩
  · exact (crc5_length _).trans (congrArg _ crc5All_chainInactive)
  · simp [bitsOf, bitsOfByte, crc5Step, crcSeed, crcPoly]

end Sys2Proof.Machine
end

section
/-! SUPPORT. The statements of 41_command_frames.md: what the framer gives for each request (R120, R128), that its
frames decode (R129), and the words they are packed into (R130). -/

namespace Sys2Proof.Machine

/-! ## The framer's outcome -/

/-- Every request of one of the six kinds has a frame (41_command_frames.md R121 to R127). -/
theorem exists_requestFrame {q : FrameRequest} (hq : ∀ k, q ≠ .unknown k) :
    ∃ frame, requestFrame q = some frame := by
  cases q with
  | unknown k => exact absurd rfl (hq k)
  | _ => exact ⟨_, rfl⟩

section Frame
variable {q : FrameRequest} {frame : BitVec 5 → Instr} (hframe : requestFrame q = some frame)
include hframe

/-- A request's frame is a chip command frame, whatever its CRC. -/
theorem requestFrame_language (crc : BitVec 5) : (frame crc).language = .frame := by
  cases q <;> cases hframe <;> rfl

/-- The body of a request's frame does not depend on the CRC. -/
theorem requestFrame_body (crc : BitVec 5) : frameBody (frame crc) = frameBody (frame 0) := by
  cases q <;> cases hframe <;> rfl

/-- The CRC is a field of a request's frame. -/
theorem requestFrame_crc (crc : BitVec 5) : frameCrc (frame crc) = some crc := by
  cases q <;> cases hframe <;> rfl

/-- The CRC the framer fills in is the right one (41_command_frames.md R120). -/
theorem withCrc_wellFormed : (withCrc frame).wellFormed = true := by
  rw [withCrc, Instr.wellFormed, requestFrame_crc hframe, requestFrame_body hframe (crc5All _)]
  exact beq_self_eq_true (crc5All (frameBody (frame 0)))

/-- No frame is longer than the command buffer. -/
theorem withCrc_length_le : (frameBytes (withCrc frame)).length ≤ maxFrameBytes := by
  obtain ⟨hlen, -⟩ := frameBytes_length (requestFrame_language hframe (crc5All (frameBody (frame 0))))
  rw [withCrc, maxFrameBytes]
  omega

/-- The widths of the operands alone decide whether a request with a frame is given it: the length check never fires
(41_command_frames.md R128). -/
theorem framer_of_requestFrame :
    framer q = if operandsFit q then .ok (withCrc frame) else .error (.fail .validationError) := by
  cases hfit : operandsFit q <;> simp [framer, hframe, hfit, withCrc_length_le hframe]

/-- A request whose operands fit is given its frame. -/
theorem framer_of_operandsFit (hfit : operandsFit q = true) : framer q = .ok (withCrc frame) := by
  rw [framer_of_requestFrame hframe, if_pos hfit]

end Frame

/-- What the framer gives is the frame of its request with the CRC filled in. -/
theorem eq_withCrc_of_framer {q : FrameRequest} {i : Instr} (h : framer q = .ok i) :
    ∃ frame, requestFrame q = some frame ∧ i = withCrc frame := by
  cases hframe : requestFrame q with
  | none => simp [framer, hframe] at h
  | some frame =>
    rw [framer_of_requestFrame hframe] at h
    split at h
    · exact ⟨frame, rfl, (Except.ok.inj h).symm⟩
    · cases h

/-- The framer gives chip command frames alone. -/
theorem language_of_framer {q : FrameRequest} {i : Instr} (h : framer q = .ok i) : i.language = .frame := by
  obtain ⟨frame, hframe, rfl⟩ := eq_withCrc_of_framer h
  exact requestFrame_language hframe _

/-- The framer gives frames with the right CRC alone (41_command_frames.md R120). -/
theorem wellFormed_of_framer {q : FrameRequest} {i : Instr} (h : framer q = .ok i) : i.wellFormed = true := by
  obtain ⟨frame, hframe, rfl⟩ := eq_withCrc_of_framer h
  exact withCrc_wellFormed hframe

/-- Settles O7: an unknown kind has no frame, and the operands' widths decide the rest. -/
theorem framerChecksInOrder : Obligations.FramerChecksInOrder := by
  refine ⟨fun k => rfl, ?_⟩
  intro q fits hq
  obtain ⟨frame, hframe⟩ := exists_requestFrame hq
  have hfits : fits ↔ operandsFit q = true := by
    cases q with
    | unknown k => exact absurd rfl (hq k)
    | _ => simp [fits, operandsFit, and_assoc]
  rw [hfits]
  refine ⟨fun hfit => ?_, fun hfit => ⟨_, framer_of_operandsFit hframe hfit, withCrc_length_le hframe⟩⟩
  rw [framer_of_requestFrame hframe, if_neg hfit]

/-- Settles O8: the framer's frames are well formed, so the decoder reads them back, and operands that are a byte's or a
word's number fit. -/
theorem framerOutputDecodes : Obligations.FramerOutputDecodes := by
  have hframer {q : FrameRequest} {frame : BitVec 5 → Instr} (hframe : requestFrame q = some frame)
      (hfit : operandsFit q = true) : ∃ crc, framer q = .ok (frame crc) :=
    ⟨_, framer_of_operandsFit hframe hfit⟩
  refine ⟨fun q i h => ?_, hframer rfl rfl, fun a => ?_, fun c r v => ?_, fun r v => ?_, fun c r => ?_, fun r => ?_⟩
  · exact (frameDecoderAcceptsExactlyTheFrames _ i).mpr ⟨language_of_framer h, wellFormed_of_framer h, rfl⟩
  all_goals
    refine hframer (by simp [requestFrame]) ?_
    simp only [operandsFit, Bool.and_eq_true, decide_eq_true_eq]
    omega

/-! ## The words of a frame -/

/-- The word that starts with the CRC byte and goes on with padding. -/
theorem wordOf_crcByte (crc : BitVec 5) : wordOf (crcByte crc) 0 0 0 = crc.setWidth 32 <<< 24 := by
  revert crc
  decide

/-- The words of a five-byte frame: the CRC in word 1, nothing in word 2. -/
theorem pack_f5 (b0 b1 b2 b3 : Byte) (crc : BitVec 5) :
    (pack [b0, b1, b2, b3, crcByte crc])[1] = crc.setWidth 32 <<< 24 ∧ (pack [b0, b1, b2, b3, crcByte crc])[2] = 0 :=
  ⟨wordOf_crcByte crc, wordOf_bytes 0⟩

/-- The words of a nine-byte frame: the value in word 1, the CRC in word 2. -/
theorem pack_f9 (b0 b1 b2 b3 : Byte) (value : Word) (crc : BitVec 5) :
    (pack ([b0, b1, b2, b3] ++ wordBytes value ++ [crcByte crc]))[1] = value ∧
      (pack ([b0, b1, b2, b3] ++ wordBytes value ++ [crcByte crc]))[2] = crc.setWidth 32 <<< 24 :=
  ⟨wordOf_bytes value, wordOf_crcByte crc⟩

/-- Settles O9: the five-byte kinds and the nine-byte kinds, the value of a read being 0. -/
theorem frameWordsShape : Obligations.FrameWordsShape := by
  intro q i w hi hw
  have hwords : w = pack (frameBytes i) := by
    rw [frameWords, hi] at hw
    exact (Except.ok.inj hw).symm
  subst hwords
  refine ⟨rfl, ?_⟩
  induction i, language_of_framer hi using Instr.frameCases with
  | chainInactive | setAddress => exact pack_f5 ..
  | writeReg _ _ value | writeRegBc _ _ value => exact pack_f9 _ _ _ _ value _
  | readReg | readRegBc => exact pack_f9 _ _ _ _ 0 _

end Sys2Proof.Machine
end

section
/-! SUPPORT. The statements of 42_command_bus.md: what every move records and what it keeps of the invariant, the
writes and the trigger, the reads, and the frames TX sends. -/

namespace Sys2Proof.Machine

/-! ## The record of a move -/

/-- What `t` has recorded after `s`: the events `new` joined HIST, and FAULT and REFUSED took up what they say
(60_exceptions.md R240, R242). -/
structure Records (s t : State) (new : List Event) : Prop where
  cfg : t.cfg = s.cfg
  hist : t.hist = s.hist ++ new
  faults : ∀ k, k ∈ t.faults ↔ k ∈ s.faults ∨ ∃ off, Event.fault k off ∈ new
  order : kindsInOrder s.faults → kindsInOrder t.faults
  refused : t.refused = true ↔ s.refused = true ∨ ∃ r, Event.refuse r ∈ new

/-- Events that are neither a fault nor a refusal. -/
def noMarks (new : List Event) : Prop := (∀ k off, Event.fault k off ∉ new) ∧ ∀ r, Event.refuse r ∉ new

/-- Events that mark nothing, with FAULT and REFUSED left alone. -/
theorem Records.of_noMarks {s t : State} {new : List Event} (hcfg : t.cfg = s.cfg) (hhist : t.hist = s.hist ++ new)
    (hmarks : sameMarks s t) (hnew : noMarks new := by simp [noMarks]) : Records s t new := by
  obtain ⟨hfaults, hrefused⟩ := hmarks
  exact ⟨hcfg, hhist, by simp [hfaults, hnew.1], by simp [hfaults], by simp [hrefused, hnew.2]⟩

/-- One fault. -/
theorem Records.fault {s t : State} {k : FaultKind} {off : Option Nat} (hcfg : t.cfg = s.cfg)
    (hhist : t.hist = s.hist ++ [.fault k off]) (hfaults : t.faults = insertKind k s.faults)
    (hrefused : t.refused = s.refused) : Records s t [.fault k off] where
  cfg := hcfg
  hist := hhist
  faults k' := by simp [hfaults, or_comm]
  order hs := hfaults ▸ insertKind_keeps_order k s.faults hs
  refused := by simp [hrefused]

/-- One refusal. -/
theorem Records.refuse {s t : State} {r : RefusalReason} (hcfg : t.cfg = s.cfg) (hhist : t.hist = s.hist ++ [.refuse r])
    (hfaults : t.faults = s.faults) (hrefused : t.refused = true) : Records s t [.refuse r] :=
  ⟨hcfg, hhist, by simp [hfaults], by simp [hfaults], by simp [hrefused]⟩

/-- One record after another. -/
theorem Records.trans {s t u : State} {new new' : List Event} (hst : Records s t new) (htu : Records t u new') :
    Records s u (new ++ new') where
  cfg := htu.cfg.trans hst.cfg
  hist := by rw [htu.hist, hst.hist, List.append_assoc]
  faults k := by simp [htu.faults, hst.faults, or_assoc, exists_or]
  order hs := htu.order (hst.order hs)
  refused := by simp [htu.refused, hst.refused, or_assoc, exists_or]

/-- FAULT and REFUSED go on saying what HIST records. -/
theorem Records.marksMatchHist {s t : State} {new : List Event} (h : Records s t new) (hs : s.marksMatchHist) :
    t.marksMatchHist := by
  obtain ⟨hfaults, hrefused⟩ := hs
  exact ⟨fun k => by simp [h.faults, h.hist, hfaults, exists_or], by simp [h.refused, h.hist, hrefused, exists_or]⟩

/-- Draws mark nothing. -/
theorem noMarks_draws {draws : List Event} (h : ∀ e ∈ draws, ∃ w, e = Event.draw w) : noMarks draws := by
  refine ⟨fun k off hmem => ?_, fun r hmem => ?_⟩ <;>
  · obtain ⟨w, hw⟩ := h _ hmem
    cases hw

/-- Draws emit nothing. -/
theorem emitted_draws {draws : List Event} (h : ∀ e ∈ draws, ∃ w, e = Event.draw w) : emitted draws = [] :=
  List.filterMap_eq_nil_iff.mpr fun e he => by obtain ⟨w, rfl⟩ := h e he; rfl

/-- A read transaction records draws and the read, or a fault of an empty FIFO, and emits nothing. -/
theorem exec_readInstr_records {r : BlockReg} {d : Fin 8} {s t : State} (h : exec (readInstr r d) s = .next t) :
    ∃ new, Records s t new ∧ emitted new = [] := by
  obtain ⟨t', ht, hcfg, -, -, -, -, -, -, hrefused, -, -, -, -, -, -, -, hread⟩ := exec_readInstr r d s
  obtain rfl : t' = t := by simpa [ht] using h
  rcases hread with ⟨-, -, -, -, hfaults, hhist⟩ | ⟨hfaults, v, draws, hhist, hdraws, -⟩
  · exact ⟨_, .fault hcfg hhist hfaults hrefused, rfl⟩
  · obtain ⟨hnofault, hnorefuse⟩ := noMarks_draws hdraws
    refine ⟨draws ++ [.read (regOffset s.cfg.layout r) v], .of_noMarks hcfg (by simpa using hhist) ⟨hfaults, hrefused⟩
      (by simp [noMarks, hnofault, hnorefuse]), ?_⟩
    simp [emitted_draws hdraws]

/-- A write transaction records its own fault or refusal and emits nothing. -/
theorem exec_writeInstr_records {r : BlockReg} {v : Word} {s t : State} (h : exec (writeInstr r v) s = .next t) :
    ∃ new, Records s t new ∧ emitted new = [] := by
  obtain ⟨t', ht, hcases⟩ := exec_writeInstr r v s
  obtain rfl : t' = t := by simpa [ht] using h
  rcases hcases with ⟨k, off, rfl⟩ | ⟨-, reason, rfl⟩ | ⟨-, -, -, rfl⟩ | ⟨-, -, -, -, rfl⟩ | ⟨-, rfl⟩
  · exact ⟨_, .fault rfl rfl rfl rfl, rfl⟩
  · exact ⟨_, .refuse rfl rfl rfl rfl, rfl⟩
  all_goals exact ⟨[], .of_noMarks rfl (by simp) ⟨rfl, rfl⟩, rfl⟩

/-- Taking a write out of WQ records nothing. -/
theorem setWq_records (wq : List Pending) (s : State) : Records s (s.setWq wq) [] :=
  .of_noMarks rfl (by simp) ⟨rfl, rfl⟩

/-- The hazard check records its fault, if there is one. -/
theorem hazardChecked_records (s : State) :
    Records s s.hazardChecked (if hazard s.cmdChain s.hist then [.fault .hazard none] else []) := by
  unfold State.hazardChecked
  split
  · exact .fault rfl rfl rfl rfl
  · exact .of_noMarks rfl (by simp) ⟨rfl, rfl⟩

/-- TX records the hazard check and the frame sent (42_command_bus.md R150). -/
theorem sendFrame_records (bytes : List Byte) (s : State) : Records s (s.sendFrame bytes)
    ((if hazard s.cmdChain s.hist then [.fault .hazard none] else []) ++ [.emit s.cmdChain bytes]) :=
  (hazardChecked_records s).trans (.of_noMarks (by simp) (by simp) (by simp [sameMarks]))

/-- The frames a move sends, and one more while a frame is posted after it, are no more than the triggers it performs,
and one more if a frame was posted before it (42_command_bus.md R152). -/
def sendsWithinTriggers (s t : State) (new : List Event) : Prop :=
  (emitted new).length + t.cmdReady.toNat ≤
    s.cmdReady.toNat + (performedAt (regOffset s.cfg.layout .cmdCtl) new).length

/-- A move that sends nothing and leaves CMD_READY. -/
theorem sendsWithinTriggers_of_quiet {s t : State} {new : List Event} (hemit : emitted new = [] := by simp)
    (hready : t.cmdReady = s.cmdReady := by simp) : sendsWithinTriggers s t new := by
  simp [sendsWithinTriggers, hemit, hready]

/-- What every move records: FAULT and REFUSED agree with it, and the frames in it are paid for by triggers. -/
theorem Move.records {s t : State} {turn : Turn} (h : Move s turn t) :
    ∃ new, Records s t new ∧ sendsWithinTriggers s t new := by
  cases h with
  | idle => exact ⟨[], .of_noMarks rfl (by simp) ⟨rfl, rfl⟩, sendsWithinTriggers_of_quiet⟩
  | noStmt => exact ⟨_, .refuse rfl rfl rfl rfl, sendsWithinTriggers_of_quiet⟩
  | quiet st t hr hs hx hkeep hq =>
    obtain ⟨hcfg, ⟨-, -, hready, -⟩, -⟩ := hkeep
    obtain ⟨hmarks, -, hhist | ⟨-, hhist⟩ | ⟨n, hhist⟩⟩ := hq
    · exact ⟨[], .of_noMarks hcfg (by simpa using hhist) hmarks, sendsWithinTriggers_of_quiet (hready := hready)⟩
    · exact ⟨_, .of_noMarks hcfg hhist hmarks, sendsWithinTriggers_of_quiet (hready := hready)⟩
    · exact ⟨_, .of_noMarks hcfg hhist hmarks, sendsWithinTriggers_of_quiet (hready := hready)⟩
  | hostFault st k off =>
    exact ⟨_, .fault (by simp) (s.hostFault_hist k off) (by simp) (by simp), sendsWithinTriggers_of_quiet⟩
  | branchFault => exact ⟨_, .fault rfl rfl rfl rfl, sendsWithinTriggers_of_quiet⟩
  | hostRefuse st r =>
    exact ⟨_, .refuse (by simp) (s.hostRefuse_hist r) (by simp) (by simp), sendsWithinTriggers_of_quiet⟩
  | issue st r v =>
    exact ⟨[.issued (regOffset s.cfg.layout r) v], .of_noMarks (by simp [postWrite]) (by simp [postWrite])
      (by simp [postWrite, sameMarks]), sendsWithinTriggers_of_quiet (hready := by simp [postWrite])⟩
  | read r d t hr hs hh hx =>
    obtain ⟨-, -, hready, -⟩ := Move.sameBus_of_not_tx_wb (.read r d t hr hs hh hx) (by simp) (by simp)
    obtain ⟨new, hrec, hemit⟩ := exec_readInstr_records hx
    exact ⟨new, hrec, sendsWithinTriggers_of_quiet hemit hready⟩
  | send bytes hc =>
    refine ⟨_, sendFrame_records bytes s, ?_⟩
    have hpre : emitted (if hazard s.cmdChain s.hist then [Event.fault .hazard none] else []) = [] := by split <;> rfl
    simp [sendsWithinTriggers, hpre, hc]
  | offer =>
    obtain ⟨n, m, ⟨-, h⟩ | ⟨-, h⟩, hn, hm⟩ := rxPush_cases s <;> rw [h]
    · exact ⟨[.draw n, .draw m, .push n m], .of_noMarks (by simp) (by simp [hn, hm]) (by simp [sameMarks]),
        sendsWithinTriggers_of_quiet⟩
    · exact ⟨[.draw n, .draw m, .drop n m], .of_noMarks (by simp) (by simp [hn, hm]) (by simp [sameMarks]),
        sendsWithinTriggers_of_quiet⟩
  | perform pick e rest r m hc ho hx =>
    obtain ⟨new, hrec, hemit⟩ := exec_writeInstr_records hx
    refine ⟨new ++ [.performed e.off e.value],
      ((setWq_records rest s).trans hrec).trans (.of_noMarks rfl rfl ⟨rfl, rfl⟩), ?_⟩
    rcases exec_writeInstr_cmdReady hx with hsame | ⟨rfl, hset, -⟩
    · exact sendsWithinTriggers_of_quiet (by simp [hemit]) hsame
    · have hemits : emitted (new ++ [.performed e.off e.value]) = [] := by simp [hemit]
      have hpaid : performedAt (regOffset s.cfg.layout .cmdCtl) (new ++ [.performed e.off e.value]) =
        performedAt (regOffset s.cfg.layout .cmdCtl) new ++ [e.value] := by simp [ho]
      simp only [sendsWithinTriggers, hemits, hpaid, State.record_cmdReady, hset, List.length_append, List.length_nil,
        List.length_singleton, Bool.toNat_true]
      omega
  | performNowhere pick e rest =>
    have hrefuse : Records (s.setWq rest) ((s.setWq rest).refuse .outOfBlock) [.refuse .outOfBlock] :=
      .refuse rfl rfl rfl rfl
    exact ⟨[.refuse .outOfBlock, .performed e.off e.value],
      ((setWq_records rest s).trans hrefuse).trans (.of_noMarks rfl rfl ⟨rfl, rfl⟩), sendsWithinTriggers_of_quiet⟩

/-- What every step records. -/
theorem step_records {s t : State} (h : step s = .next t) : ∃ new, Records s t new ∧ sendsWithinTriggers s t new := by
  obtain ⟨new, hrec, hsends⟩ := (move_of_step h).records
  have hstart : Records s ((turnTaken s).forTurn (turnOf s)) [] :=
    .of_noMarks (by simp) (by simp) (by cases turnOf s <;> simp [State.forTurn, sameMarks])
  exact ⟨new, hstart.trans hrec, by simpa [sendsWithinTriggers] using hsends⟩

/-- Settles O32: each step's frames are paid for by its triggers and by the frame posted before it. -/
theorem emittedFramesNeverOutnumberTriggers : Obligations.EmittedFramesNeverOutnumberTriggers := by
  intro s t hstep hs
  obtain ⟨new, hrec, hsends⟩ := step_records hstep
  simp only [hrec.cfg, hrec.hist, emitted_append, performedAt_append, List.length_append]
  rw [sendsWithinTriggers] at hsends
  omega

/-! ## The invariant -/

/-- A posted frame that TX can send: the first part of the invariant. -/
def State.postedSendable (s : State) : Prop := s.cmdReady = true → s.sendable

/-- The same command bus is as sendable as before. -/
theorem State.postedSendable.of_sameBus {s t : State} (hs : s.postedSendable) (h : sameBus s t) : t.postedSendable := by
  obtain ⟨hbuf, hbufW, hready, -⟩ := h
  simpa [State.postedSendable, State.sendable, hbuf, hbufW, hready] using hs

/-- The trigger posts only what passes its check, and nothing stores in the buffer while a frame is posted. -/
theorem exec_writeInstr_postedSendable {r : BlockReg} {v : Word} {s t : State} (hs : s.postedSendable)
    (h : exec (writeInstr r v) s = .next t) : t.postedSendable := by
  obtain ⟨t', ht, hcases⟩ := exec_writeInstr r v s
  obtain rfl : t' = t := by simpa [ht] using h
  rcases hcases with ⟨k, off, rfl⟩ | ⟨-, reason, rfl⟩ | ⟨k, -, hfree, rfl⟩ | ⟨-, -, c, hcheck, rfl⟩ | ⟨-, rfl⟩
  · exact hs
  · exact hs
  · intro hready
    simp [hfree] at hready
  · obtain ⟨hmin, hmax, hwritten, -⟩ := triggerCheck_ok hcheck
    exact fun _ => ⟨hmin, hmax, hwritten⟩
  · exact hs

/-- Every move keeps a posted frame sendable. -/
theorem Move.postedSendable {s t : State} {turn : Turn} (h : Move s turn t) (hs : s.postedSendable) :
    t.postedSendable := by
  cases turn with
  | host | rx => exact hs.of_sameBus (h.sameBus_of_not_tx_wb (by simp) (by simp))
  | tx => cases h with
    | idle => exact hs
    | send bytes hc => simp [State.postedSendable]
  | wb pick => cases h with
    | idle | performNowhere => exact hs
    | perform _ e rest r m hc ho hx =>
      have hm : m.postedSendable := exec_writeInstr_postedSendable (s := s.setWq rest) hs hx
      exact hm.of_sameBus ⟨rfl, rfl, rfl, rfl⟩

/-- The FIFO within its depth, and a half-read entry still in it. -/
def State.fifoOk (s : State) : Prop := s.nfQ.length ≤ s.cfg.fifoDepth ∧ (s.nfPhase = true → s.nfQ ≠ [])

/-- The FIFO and its depth left alone. -/
theorem State.fifoOk.of_eq {s t : State} (hs : s.fifoOk) (hcfg : t.cfg = s.cfg) (hq : t.nfQ = s.nfQ)
    (hphase : t.nfPhase = s.nfPhase) : t.fifoOk := by
  simpa [State.fifoOk, hcfg, hq, hphase] using hs

/-- A read takes an entry only with its second half (43_nonce_fifo.md R175). -/
theorem exec_readInstr_fifoOk {r : BlockReg} {d : Fin 8} {s t : State} (hs : s.fifoOk)
    (h : exec (readInstr r d) s = .next t) : t.fifoOk := by
  obtain ⟨t', ht, hcfg, -, -, -, -, -, -, -, -, -, -, -, -, -, -, hread⟩ := exec_readInstr r d s
  obtain rfl : t' = t := by simpa [ht] using h
  rcases hread with ⟨-, hq, hq', hphase, -⟩ | ⟨-, v, draws, -, -, ⟨-, hq, hphase⟩ | ⟨-, e, rest, hq, htake⟩⟩
  · exact hs.of_eq hcfg (hq'.trans hq.symm) hphase
  · exact hs.of_eq hcfg hq hphase
  · obtain ⟨hdepth, -⟩ := hs
    rw [hq, List.length_cons] at hdepth
    rcases htake with ⟨-, -, -, hq'⟩ | ⟨-, -, hphase', hq'⟩
    · exact ⟨by simpa [hcfg, hq', hq] using hdepth, by simp [hq', hq]⟩
    · exact ⟨by rw [hcfg, hq']; omega, by simp [hphase']⟩

/-- Every move keeps the FIFO within its depth and a half-read entry in it (43_nonce_fifo.md R175, R186). -/
theorem Move.fifoOk {s t : State} {turn : Turn} (h : Move s turn t) (hs : s.fifoOk) : t.fifoOk := by
  cases h with
  | idle | noStmt | branchFault | performNowhere => exact hs
  | quiet st t hr hst hx hkeep hq =>
    obtain ⟨hcfg, -, ⟨hnfQ, hphase, -⟩, -⟩ := hkeep
    exact hs.of_eq hcfg hnfQ hphase
  | hostFault | hostRefuse | send => exact hs.of_eq (by simp) (by simp) (by simp)
  | issue => exact hs.of_eq (by simp [postWrite]) (by simp [postWrite]) (by simp [postWrite])
  | read r d t hr hst hh hx => exact exec_readInstr_fifoOk hs hx
  | offer =>
    obtain ⟨n, m, ⟨hroom, h⟩ | ⟨-, h⟩, -⟩ := rxPush_cases s <;> rw [h]
    · exact ⟨by simpa using hroom, by simp⟩
    · exact hs.of_eq rfl rfl rfl
  | perform pick e rest r m hc ho hx =>
    obtain ⟨-, hq, hphase, -⟩ := exec_writeInstr_queues hx
    obtain ⟨new, hrec, -⟩ := exec_writeInstr_records hx
    exact hs.of_eq hrec.cfg hq hphase

/-- A write that a move adds to WQ names a register of the block (20_memory.md R54, R60). -/
theorem Move.mem_wq {s t : State} {turn : Turn} (h : Move s turn t) :
    ∀ e ∈ t.wq, e ∈ s.wq ∨ ∃ r, regOffset s.cfg.layout r = e.off := by
  have hkeep {u : State} (hwq : u.wq = s.wq) : ∀ e ∈ u.wq, e ∈ s.wq ∨ ∃ r, regOffset s.cfg.layout r = e.off :=
    fun e he => .inl (hwq ▸ he)
  have htaken {pick : Nat} {e : Pending} {rest : List Pending}
      (hc : chooseWrite s.cfg.strictOrder pick s.wq = some (e, rest)) :
      ∀ e' ∈ rest, e' ∈ s.wq ∨ ∃ r, regOffset s.cfg.layout r = e'.off := by
    obtain ⟨older, newer, hwq, rfl, -⟩ := chooseWrite_eq_some hc
    intro e' he'
    simp only [hwq, List.mem_append, List.mem_cons] at he' ⊢
    tauto
  cases h with
  | idle | noStmt | branchFault => exact hkeep rfl
  | quiet st t hr hst hx hkeeps hq =>
    obtain ⟨-, hwq, -⟩ := hq
    exact hkeep hwq
  | hostFault | hostRefuse | send => exact hkeep (by simp)
  | issue st r v =>
    intro e he
    simp only [postWrite, State.nextPc_wq, State.record_wq, State.setWq_wq, List.mem_append, List.mem_singleton] at he
    exact he.imp id fun he => ⟨r, by rw [he]⟩
  | read r d t hr hst hh hx => exact hkeep (exec_readInstr_queue hx).1
  | offer =>
    obtain ⟨n, m, ⟨-, h⟩ | ⟨-, h⟩, -⟩ := rxPush_cases s <;> exact hkeep (by simp [h])
  | perform pick e rest r m hc ho hx =>
    have hwq := (exec_writeInstr_queues hx).1
    simpa [hwq] using htaken hc
  | performNowhere pick e rest hc => simpa using htaken hc

/-- The turn's choice and HOST's taking up of a task touch nothing the invariant speaks of. -/
theorem State.Inv.forTurn {s : State} (h : s.Inv) (turn : Turn) : ((turnTaken s).forTurn turn).Inv := by
  cases turn <;>
  exact {
    posted := by simpa [State.forTurn, State.sendable] using h.posted
    depth := by simpa [State.forTurn] using h.depth
    phase := by simpa [State.forTurn] using h.phase
    queue := by simpa [State.forTurn, State.queueInBlock] using h.queue
    kinds := by simpa [State.forTurn] using h.kinds
    marks := by simpa [State.forTurn, State.marksMatchHist] using h.marks }

/-- Every move keeps the invariant. -/
theorem Move.inv {s t : State} {turn : Turn} (h : Move s turn t) (hs : s.Inv) : t.Inv := by
  obtain ⟨new, hrec, -⟩ := h.records
  obtain ⟨hdepth, hphase⟩ := h.fifoOk ⟨hs.depth, hs.phase⟩
  exact {
    posted := h.postedSendable hs.posted
    depth := hdepth
    phase := hphase
    queue := fun e he => by
      rw [hrec.cfg]
      rcases h.mem_wq e he with hmem | ⟨r, hr⟩
      · exact hs.queue e hmem
      · exact ⟨r, (regAt_eq_some _ _ _).mpr hr⟩
    kinds := hrec.order hs.kinds
    marks := hrec.marksMatchHist hs.marks }

/-- Settles O55: every step is a move, and every move keeps each part of the invariant. -/
theorem everyStepKeepsTheInvariant : Obligations.EveryStepKeepsTheInvariant :=
  fun _ _ hs hstep => (move_of_step hstep).inv (hs.forTurn _)

/-! ## Writes to the buffer and the trigger -/

/-- Settles O20: with no frame posted each buffer write is `State.setBuf` of its own word. -/
theorem bufferWriteStores : Obligations.BufferWriteStores := by
  intro s v hfree
  simp [exec, execCmdBuf0Wr, execCmdBuf1Wr, execCmdBuf2Wr, bufWrite, hfree, State.setBuf]

/-- A fault raised by no statement changes nothing but the record (60_exceptions.md R240). -/
theorem faultOnly_raise (k : FaultKind) (off : Option Nat) (s : State) : faultOnly k off false s (s.raise k off) := by
  simp [faultOnly, sameBus, sameNonce, sameRest, pcAt]

/-- A refusal of no statement changes nothing but the record (60_exceptions.md R242). -/
theorem refusalOnly_refuse (r : RefusalReason) (s : State) : refusalOnly r false s (s.refuse r) := by
  simp [refusalOnly, sameBus, sameNonce, sameRest, pcAt]

/-- Settles O21: with a frame posted each of the four writes raises F_BUSY at its own offset. -/
theorem busyWritesFault : Obligations.BusyWritesFault := by
  intro s v hposted
  have hbuf (k : Fin 3) : bufWrite k v s = s.raise .busy (some (regOffset s.cfg.layout (.cmdBuf k))) := by
    simp [bufWrite, hposted, regOffset]
  have hctl : exec (.cmdCtlWr v) s = .next (s.raise .busy (some (regOffset s.cfg.layout .cmdCtl))) := by
    simp [exec, execCmdCtlWr, hposted, regOffset]
  exact ⟨⟨_, congrArg Host.Outcome.next (hbuf 0), faultOnly_raise _ _ s⟩,
    ⟨_, congrArg Host.Outcome.next (hbuf 1), faultOnly_raise _ _ s⟩,
    ⟨_, congrArg Host.Outcome.next (hbuf 2), faultOnly_raise _ _ s⟩, ⟨_, hctl, faultOnly_raise _ _ s⟩⟩

/-! ## Reads of the command bus -/

/-- A read that draws once and returns `v` at `off`: the draw and the read recorded, `v` in x[d], and no block state
changed (42_command_bus.md R142, R148). -/
theorem finishRead_afterDraw (d : Fin 8) (off : Nat) (v : Word) (s : State) :
    let t := s.afterDraw.finishRead d off v
    readInto d v s t ∧ t.hist = s.hist ++ [.draw (Config.freeWord s.drawNo), .read off v] ∧
      t.drawNo = s.drawNo + 1 ∧ sameBus s t ∧ sameNonce s t ∧ sameMarks s t ∧ sameRest s t := by
  have hother (r : Fin 8) (hr : r ≠ d) {α : Type} (w : Vector α 8) (a : α) : (w.set d a)[r] = w[r] :=
    Vector.getElem_set_ne d.isLt r.isLt fun h => hr (Fin.ext h.symm)
  simpa +contextual [readInto, pcAt, sameBus, sameNonce, sameMarks, sameRest, State.nextDraw] using
    fun r hr => ⟨hother r hr s.x v, hother r hr s.xW true⟩

/-- Settles O22: each of the four reads returns the value drawn. -/
theorem readsWithoutAValueReturnDraws : Obligations.ReadsWithoutAValueReturnDraws := by
  intro s d drawn returnsDraw
  have hread (i : Instr) (off : Nat) (hx : exec i s = .next (s.afterDraw.finishRead d off s.nextDraw)) :
      returnsDraw i off := by
    obtain ⟨hinto, hhist, hdraw, hsame⟩ := finishRead_afterDraw d off s.nextDraw s
    exact ⟨_, hx, hinto, hdraw, hhist, hsame⟩
  exact ⟨hread _ _ rfl, hread _ _ rfl, hread _ _ rfl, hread _ _ rfl⟩

/-- The bits of a word with one bit replaced. -/
theorem getLsbD_withBit (v : Word) {n : Nat} (hn : n < 32) (b : Bool) (i : Nat) :
    (withBit v n b).getLsbD i = if i = n then b else v.getLsbD i := by
  have hmask : ((1 : Word) <<< n).getLsbD i = decide (i = n) := by
    simpa [hn, BitVec.twoPow_eq, eq_comm] using BitVec.getLsbD_twoPow (w := 32) n i
  have hv : v.getLsbD i = true → i < 32 := BitVec.lt_of_getLsbD
  cases b <;> simp only [withBit, BitVec.getLsbD_or, BitVec.getLsbD_and, BitVec.getLsbD_not, hmask, if_true, if_false,
    Bool.false_eq_true] <;> grind

/-- Settles O25: the word of a poll is the draw with the ready bit replaced. -/
theorem statusPollReadsReadyBit : Obligations.StatusPollReadsReadyBit := by
  intro s d hbit
  obtain ⟨hinto, hhist, hdraw, hsame⟩ :=
    finishRead_afterDraw d (ctlOffset s.cfg.layout) (statusWord s.cfg s.nextDraw s.cmdReady) s
  refine ⟨_, _, rfl, hinto, ?_, fun n hn => ?_, hhist, hdraw, hsame⟩
  · simp [statusWord, getLsbD_withBit _ hbit]
  · simp [statusWord, getLsbD_withBit _ hbit, hn, State.nextDraw]

/-! ## The trigger -/

/-- READY_MASK is one bit. -/
theorem readyMask_eq_twoPow (p : Params) : readyMask p = BitVec.twoPow 32 p.readyBit := (BitVec.twoPow_eq 32 _).symm

/-- READY_MASK asks for the ready bit. -/
theorem and_readyMask_eq_zero {p : Params} (h : p.readyBit < 32) (v : Word) :
    v &&& readyMask p = 0#32 ↔ v.getLsbD p.readyBit = false := by
  have hmask : BitVec.twoPow 32 p.readyBit ≠ 0#32 := fun h0 => by
    simpa [h] using congrArg (·.getLsbD p.readyBit) h0
  rw [readyMask_eq_twoPow, BitVec.and_twoPow]
  cases v.getLsbD p.readyBit <;> simp [hmask]

/-- The words a frame of at most twelve bytes needs, one by one. -/
theorem wordsWritten_iff (w : Vector Bool 3) {n : Nat} (hn : n ≤ 12) :
    wordsWritten w n = true ↔ ∀ k : Fin 3, k.val < (n + 3) / 4 → w[k] = true := by
  simp only [wordsWritten, wordsNeeded, List.all_eq_true, List.mem_range]
  refine ⟨fun h k hk => by simpa using h k hk, fun h k hk => by simpa [show k < 3 by omega] using h ⟨k, by omega⟩ hk⟩

/-- The trigger with no frame posted does what its check says (42_command_bus.md R145). -/
theorem exec_cmdCtlWr {s : State} (hfree : s.cmdReady = false) (v : Word) :
    exec (.cmdCtlWr v) s = .next (match triggerCheck s.cfg s.cmdBuf s.cmdBufW v with
      | .ok c => s.post c
      | .fault k => s.raise k (some (regOffset s.cfg.layout .cmdCtl))
      | .refuse r => s.refuse r) := by
  simp only [exec, execCmdCtlWr, hfree, Bool.false_eq_true, if_false]
  cases triggerCheck s.cfg s.cmdBuf s.cmdBufW v <;> rfl

/-- A trigger word of the right form, for a chain, with a sendable frame in the buffer, passes the check. -/
theorem triggerCheck_passes {p : Params} {buf : Vector Word 3} {w : Vector Bool 3} {v : Word}
    (hready : v &&& readyMask p ≠ 0#32) (hextra : v &&& ~~~(readyMask p ||| chainMask p) = p.ctlExtra)
    (hchain : chainField p v < 3) (hmin : 2 ≤ lengthByte buf) (hmax : lengthByte buf ≤ 12)
    (hwritten : wordsWritten w (lengthByte buf) = true) : triggerCheck p buf w v = .ok ⟨chainField p v, hchain⟩ := by
  have hfirst : w[0] = true := (wordsWritten_iff w hmax).mp hwritten 0 (by simp; omega)
  simp [triggerCheck, hready, hextra, hchain, hfirst, hwritten, Nat.not_lt.mpr hmin, Nat.not_lt.mpr hmax]

/-- Settles O24: each clause's conditions evaluate the check to its outcome. -/
theorem triggerChecksInOrder : Obligations.TriggerChecksInOrder := by
  intro s v hfree off noReady badExtra badChain badLen hbit
  have hready : v &&& readyMask s.cfg = 0#32 ↔ noReady := and_readyMask_eq_zero hbit v
  have hextra (h : ¬badExtra) : v &&& ~~~(readyMask s.cfg ||| chainMask s.cfg) = s.cfg.ctlExtra := not_not.mp h
  have hchain (h : ¬badChain) : chainField s.cfg v < 3 := Nat.not_le.mp h
  have hrange (h : ¬badLen) : 2 ≤ lengthByte s.cmdBuf ∧ lengthByte s.cmdBuf ≤ 12 := by
    have := not_or.mp h
    omega
  have hfault {k : FaultKind} (hc : triggerCheck s.cfg s.cmdBuf s.cmdBufW v = .fault k) :
      ∃ t, exec (.cmdCtlWr v) s = .next t ∧ faultOnly k off false s t :=
    ⟨_, by rw [exec_cmdCtlWr hfree, hc], faultOnly_raise k off s⟩
  refine ⟨fun hform => ⟨s.refuse .trigForm, ?_, refusalOnly_refuse _ s⟩, fun hset hrest hch => hfault ?_,
    fun hset hrest hch hw0 => hfault ?_, fun hset hrest hch hw0 hlen => hfault ?_,
    fun hset hrest hch hw0 hlen hw => hfault ?_,
    fun hset hrest hch hw0 hlen hw => ?_⟩
  · have hc : triggerCheck s.cfg s.cmdBuf s.cmdBufW v = .refuse .trigForm := by
      rcases hform with h | h
      · simp [triggerCheck, hready.mpr h]
      · simp [triggerCheck, show v &&& ~~~(readyMask s.cfg ||| chainMask s.cfg) ≠ s.cfg.ctlExtra from h]
    rw [exec_cmdCtlWr hfree, hc]
  · simp [triggerCheck, hready, hset, hextra hrest, show ¬chainField s.cfg v < 3 from Nat.not_lt.mpr hch]
  · simp [triggerCheck, hready, hset, hextra hrest, hchain hch, hw0]
  · rcases hlen with hlen | hlen <;> simp [triggerCheck, hready, hset, hextra hrest, hchain hch, hw0, hlen]
  · obtain ⟨hmin, hmax⟩ := hrange hlen
    have hmissing : wordsWritten s.cmdBufW (lengthByte s.cmdBuf) = false := by
      obtain ⟨k, hk, hwk⟩ := hw
      refine Bool.eq_false_iff.mpr fun hall => ?_
      simpa [hwk] using (wordsWritten_iff _ hmax).mp hall k hk
    simp [triggerCheck, hready, hset, hextra hrest, hchain hch, hw0, Nat.not_lt.mpr hmin, Nat.not_lt.mpr hmax, hmissing]
  · obtain ⟨hmin, hmax⟩ := hrange hlen
    refine ⟨⟨_, hchain hch⟩, rfl, ?_⟩
    rw [exec_cmdCtlWr hfree, triggerCheck_passes (hready.not.mpr hset) (hextra hrest) (hchain hch) hmin hmax
      ((wordsWritten_iff _ hmax).mpr hw)]
    rfl

/-! ## The trigger word of a chain -/

/-- The bits of CHAIN_MASK are the chain field's (42_command_bus.md R146). -/
theorem getLsbD_chainMask {p : Params} (h : p.chainLsb + p.chainWidth ≤ 32) (i : Nat) :
    (chainMask p).getLsbD i = decide (p.chainLsb ≤ i ∧ i < p.chainLsb + p.chainWidth) := by
  have hones : ((1 : Word) <<< p.chainWidth) - 1 = BitVec.ofNat 32 (2 ^ p.chainWidth - 1) := by
    apply BitVec.eq_of_toNat_eq
    have hpos := Nat.one_le_two_pow (n := p.chainWidth)
    simp only [BitVec.toNat_sub, BitVec.toNat_shiftLeft, BitVec.toNat_ofNat, BitVec.ofNat_eq_ofNat,
      Nat.reducePow, Nat.reduceMod, Nat.one_shiftLeft]
    omega
  rw [chainMask, hones]
  simp only [BitVec.getLsbD_shiftLeft, BitVec.getLsbD_ofNat, Nat.testBit_two_pow_sub_one]
  grind

/-- What decision D3's conditions say bit by bit. -/
structure TrigFields (p : Params) : Prop where
  readyBit : p.readyBit < 32
  width : 2 ≤ p.chainWidth
  inWord : p.chainLsb + p.chainWidth ≤ 32
  disjoint : p.chainLsb ≤ p.readyBit → p.chainLsb + p.chainWidth ≤ p.readyBit
  extraReady : p.ctlExtra.getLsbD p.readyBit = false
  extraChain : ∀ i, p.chainLsb ≤ i → i < p.chainLsb + p.chainWidth → p.ctlExtra.getLsbD i = false

/-- The parameters decision D3 allows have these fields. -/
theorem trigFields_of_paramsOk {p : Params} (h : paramsOk p = true) : TrigFields p := by
  simp only [paramsOk, Bool.and_eq_true, decide_eq_true_eq, beq_iff_eq] at h
  obtain ⟨⟨⟨⟨⟨⟨hbit, hwidth⟩, hword⟩, hdisj⟩, hextra⟩, -⟩, -⟩ := h
  have hmasks (i : Nat) := congrArg (·.getLsbD i) hdisj
  have hextras (i : Nat) := congrArg (·.getLsbD i) hextra
  simp only [readyMask_eq_twoPow, BitVec.getLsbD_and, BitVec.getLsbD_or, BitVec.getLsbD_twoPow,
    getLsbD_chainMask hword] at hmasks hextras
  refine ⟨hbit, hwidth, hword, ?_, ?_, fun i hi hi' => ?_⟩
  · grind
  · grind
  · grind

/-- The bits of the trigger word of a chain: the ready bit, the chain's number in its field, and the constant bits. -/
theorem getLsbD_trigWord {p : Params} (h : TrigFields p) (c : Fin 3) {i : Nat} (hi : i < 32) :
    (trigWord p c).getLsbD i = (decide (i = p.readyBit) ||
      (decide (p.chainLsb ≤ i) && c.val.testBit (i - p.chainLsb)) || p.ctlExtra.getLsbD i) := by
  have := h.readyBit
  simp only [trigWord, readyMask_eq_twoPow, BitVec.getLsbD_or, BitVec.getLsbD_twoPow, BitVec.getLsbD_shiftLeft,
    BitVec.getLsbD_ofNat]
  grind

/-- The chain's number has no bit past its field. -/
theorem TrigFields.testBit_chain {p : Params} (h : TrigFields p) (c : Fin 3) {j : Nat} (hj : c.val.testBit j = true) :
    j < p.chainWidth := by
  by_contra! hle
  have hpow : 2 ^ 2 ≤ 2 ^ j := Nat.pow_le_pow_right (by omega) (h.width.trans hle)
  simp [Nat.testBit_lt_two_pow (show c.val < 2 ^ j by omega)] at hj

/-- The trigger word of a chain has the ready bit. -/
theorem trigWord_ready {p : Params} (h : TrigFields p) (c : Fin 3) : trigWord p c &&& readyMask p ≠ 0#32 := by
  rw [Ne, and_readyMask_eq_zero h.readyBit, getLsbD_trigWord h c h.readyBit]
  simp

/-- The trigger word of a chain has the constant bits outside its two fields. -/
theorem trigWord_extra {p : Params} (h : TrigFields p) (c : Fin 3) :
    trigWord p c &&& ~~~(readyMask p ||| chainMask p) = p.ctlExtra := by
  refine BitVec.eq_of_getLsbD_eq fun i hi => ?_
  have hc := h.testBit_chain c (j := i - p.chainLsb)
  have hr := h.extraReady
  have hx := h.extraChain i
  simp only [BitVec.getLsbD_and, BitVec.getLsbD_not, BitVec.getLsbD_or, getLsbD_trigWord h c hi, readyMask_eq_twoPow,
    BitVec.getLsbD_twoPow, getLsbD_chainMask h.inWord]
  grind

/-- The chain field of the trigger word of a chain holds the chain's number. -/
theorem chainField_trigWord {p : Params} (h : TrigFields p) (c : Fin 3) : chainField p (trigWord p c) = c.val := by
  refine Nat.eq_of_testBit_eq fun j => ?_
  have hc := h.testBit_chain c (j := j)
  have hx := h.extraChain (p.chainLsb + j)
  have hd := h.disjoint
  have hw := h.inWord
  rw [chainField, BitVec.testBit_toNat, BitVec.getLsbD_extractLsb']
  by_cases hj : j < p.chainWidth
  · rw [getLsbD_trigWord h c (by omega)]
    grind
  · grind

/-- Settles O23: the trigger word passes every test of the check. -/
theorem triggerPostsTheFrame : Obligations.TriggerPostsTheFrame := by
  intro s c hok hfree hsendable
  have h := trigFields_of_paramsOk hok
  obtain ⟨hmin, hmax, hwritten⟩ := hsendable
  have hfield := chainField_trigWord h c
  rw [exec_cmdCtlWr hfree, triggerCheck_passes (trigWord_ready h c) (trigWord_extra h c) (hfield ▸ c.isLt) hmin hmax
    hwritten]
  simp [State.post, hfield]

/-! ## The frames TX sends -/

/-- A frame sent: its bytes emitted to the posted chain after the hazard check, the ready bit cleared, and nothing else
changed but for the check's fault (42_command_bus.md R150, 70_reset_and_hazards.md R294). -/
theorem sendFrame_sends (bytes : List Byte) (s : State) :
    let t := s.sendFrame bytes
    t.hist = s.hist ++ (if hazard s.cmdChain s.hist then [.fault .hazard none] else []) ++
        [.emit s.cmdChain bytes] ∧
      (∀ k, k ∈ t.faults ↔ k ∈ s.faults ∨ (hazard s.cmdChain s.hist = true ∧ k = .hazard)) ∧
      t.refused = s.refused ∧ t.cmdReady = false ∧ t.cmdBuf = s.cmdBuf ∧ t.cmdBufW = s.cmdBufW ∧
      t.cmdChain = s.cmdChain ∧ sameNonce s t ∧ sameHost s t ∧ sameRest s t ∧ t.drawNo = s.drawNo := by
  have hrec := sendFrame_records bytes s
  refine ⟨by simpa using hrec.hist, fun k => ?_, by simp, by simp, by simp, by simp, by simp, by simp [sameNonce],
    by simp [sameHost], by simp [sameRest], by simp⟩
  rw [hrec.faults]
  split <;> simp_all

/-- A posted frame is sent. -/
theorem exec_frame_of_posted {i : Instr} (h : i.language = .frame) {s : State} (hposted : s.cmdReady = true) :
    exec i s = .next (s.sendFrame (frameBytes i)) := by
  simp [exec_frame h, transmit, hposted]

/-- The CRC byte is the CRC field under three zero bits (30_encoding.md R76). -/
theorem crcByte_eq (crc : BitVec 5) : crcByte crc = 0#3 ++ crc := by
  revert crc
  decide

/-- Settles O26: the two frames' bytes, sent. -/
theorem fiveByteFramesAreSent : Obligations.FiveByteFramesAreSent := by
  intro s addr crc hposted sent
  have hsent (i : Instr) (h : i.language = .frame) : ∃ t, exec i s = .next t ∧ sent t (frameBytes i) :=
    ⟨_, exec_frame_of_posted h hposted, sendFrame_sends _ s⟩
  rw [← crcByte_eq]
  exact ⟨hsent (.chainInactive crc) rfl, hsent (.setAddress addr crc) rfl⟩

/-- Settles O27: the four frames' bytes, sent; a written value's bytes are those it was made of. -/
theorem nineByteFramesAreSent : Obligations.NineByteFramesAreSent := by
  intro s chip reg b4 b5 b6 b7 crc hposted sent
  have hsent (i : Instr) (bytes : List Byte) (h : i.language = .frame) (hbytes : frameBytes i = bytes) :
      ∃ t, exec i s = .next t ∧ sent t bytes :=
    ⟨_, exec_frame_of_posted h hposted, hbytes ▸ sendFrame_sends _ s⟩
  have hvalue : wordBytes (b4 ++ b5 ++ b6 ++ b7) = [b4, b5, b6, b7] := wordBytes_wordOf b4 b5 b6 b7
  rw [← crcByte_eq]
  exact ⟨hsent _ _ rfl (by simp [frameBytes, frameCrc, frameBody, hvalue]),
    hsent _ _ rfl (by simp [frameBytes, frameCrc, frameBody, hvalue]), hsent _ _ rfl rfl, hsent _ _ rfl rfl⟩

/-- TX sends the posted bytes, whether they spell a frame or not (42_command_bus.md R150, R151). -/
theorem txStep_of_posted {s : State} (hposted : s.cmdReady = true) (hmax : lengthByte s.cmdBuf ≤ maxFrameBytes) :
    txStep s = .next (s.sendFrame (postedBytes s.cmdBuf)) := by
  cases hp : parseFrame (postedBytes s.cmdBuf) with
  | ok i =>
    obtain ⟨hframe, hbytes⟩ := parseFrame_eq_ok.mp hp
    have hdecode : decode s.cfg.layout .frame (postedBytes s.cmdBuf) = .ok i := by
      rw [decode, hp]
      rfl
    rw [txStep_of_decode hposted hmax hdecode, exec_frame_of_posted hframe hposted, hbytes]
  | error e => simp [txStep, hposted, Nat.not_lt.mpr hmax, decode, hp, Except.mapError, transmit]

/-- TX answers a next state only where the posted frame lies in the buffer (assumption log 14). -/
theorem length_le_of_txStep {s t : State} (hposted : s.cmdReady = true) (h : txStep s = .next t) :
    lengthByte s.cmdBuf ≤ maxFrameBytes := by
  by_contra hlong
  simp [txStep, hposted, Nat.not_le.mp hlong] at h

/-- The posted bytes at the bits 30_encoding.md R81 and R82 give. -/
theorem postedBytes_eq {buf : Vector Word 3} (hmax : lengthByte buf ≤ 12) :
    postedBytes buf = (List.range (buf[0].extractLsb' 16 8).toNat).map
      (fun i => (buf.toList.getD (i / 4) 0).extractLsb' (24 - 8 * (i % 4)) 8) := by
  have hlen : lengthByte buf = (buf[0].extractLsb' 16 8).toNat := by simp [lengthByte, BitVec.extractLsb']
  rw [postedBytes, hlen]
  refine List.map_congr_left fun i hi => ?_
  have hi : i < 12 := by have := List.mem_range.mp hi; omega
  have hbyte := bufByte_word buf ⟨i / 4, by omega⟩ ⟨i % 4, by omega⟩
  rw [wordBytes_getElem] at hbyte
  simpa [Nat.div_add_mod, show i / 4 < 3 by omega] using hbyte

/-- Settles O28: TX sends the posted bytes, which are the buffer's at the bits of R82. -/
theorem transmitterSendsTheBufferVerbatim : Obligations.TransmitterSendsTheBufferVerbatim := by
  intro s hposted hmax
  obtain ⟨hhist, -, -, hready, hbuf, hbufW, hchain, hnonce, hhost, hrest, -⟩ := sendFrame_sends (postedBytes s.cmdBuf) s
  exact ⟨_, txStep_of_posted hposted hmax, postedBytes_eq hmax ▸ hhist, hready, hbuf, hbufW, hchain, hnonce, hhost,
    hrest⟩

/-- Settles O29: TX and every frame ask for the ready bit first. -/
theorem transmitterIdlesWithoutPostedFrame : Obligations.TransmitterIdlesWithoutPostedFrame := by
  intro s hfree
  exact ⟨by simp [txStep, hfree], fun i hi => by simp [exec_frame hi, transmit, hfree]⟩

/-! ## A posted frame is sent in time -/

/-- What waiting for TX leads to: the frame still posted, and HIST at most longer. -/
structure StillPosted (s t : State) : Prop where
  ready : t.cmdReady = true
  buf : t.cmdBuf = s.cmdBuf
  chain : t.cmdChain = s.cmdChain
  hist : ∃ mid, t.hist = s.hist ++ mid

/-- A step of another agent than TX leaves a posted frame posted. -/
theorem StillPosted.of_step {s t u : State} (h : StillPosted s t) (hturn : turnOf t ≠ .tx) (hstep : step t = .next u) :
    StillPosted s u := by
  obtain ⟨hbuf, -, hchain⟩ := bufferUnchangedWhilePosted t u h.ready hstep
  obtain ⟨new, hrec, -⟩ := step_records hstep
  obtain ⟨mid, hmid⟩ := h.hist
  have hready : u.cmdReady = true := Bool.not_eq_false _ ▸ fun hclear =>
    hturn ((onlyTriggerSetsAndOnlyTxClearsReady t u hstep).2 h.ready hclear).1
  exact ⟨hready, hbuf.trans h.buf, hchain.trans h.chain, mid ++ new, by rw [hrec.hist, hmid, List.append_assoc]⟩

/-- A step of TX sends the posted frame. -/
theorem StillPosted.sent {s t u : State} (h : StillPosted s t) (hturn : turnOf t = .tx) (hstep : step t = .next u) :
    u.cmdReady = false ∧ ∃ mid, u.hist = s.hist ++ mid ++ [.emit s.cmdChain (postedBytes s.cmdBuf)] := by
  have hrun : txStep (turnTaken t) = .next u := by simpa [step, hturn, runTurn] using hstep
  have hposted : (turnTaken t).cmdReady = true := by simpa using h.ready
  obtain rfl : (turnTaken t).sendFrame (postedBytes (turnTaken t).cmdBuf) = u := by
    simpa [txStep_of_posted hposted (length_le_of_txStep hposted hrun)] using hrun
  obtain ⟨mid, hmid⟩ := h.hist
  obtain ⟨hhist, -, -, hclear, -⟩ := sendFrame_sends (postedBytes (turnTaken t).cmdBuf) (turnTaken t)
  refine ⟨hclear, mid ++ (if hazard t.cmdChain t.hist then [.fault .hazard none] else []), ?_⟩
  rw [hhist]
  simp [hmid, h.buf, h.chain]

/-- A run leaves a posted frame posted until TX's turn. -/
theorem stillPosted_until_tx {σ : Nat → State} (hrun : IsRun σ) {n m : Nat} (hposted : (σ n).cmdReady = true)
    (hnm : n ≤ m) (hturn : ∀ i, n ≤ i → i < m → turnOf (σ i) ≠ .tx) : StillPosted (σ n) (σ m) := by
  induction m, hnm using Nat.le_induction with
  | base => exact ⟨hposted, rfl, rfl, [], by simp⟩
  | succ m hnm ih =>
    exact (ih fun i hni him => hturn i hni (Nat.lt_succ_of_lt him)).of_step (hturn m hnm (Nat.lt_succ_self m)) (hrun m)

/-- Settles O59: by fairness TX's turn comes, and the first one sends the frame. -/
theorem postedFrameIsEventuallySent : Obligations.PostedFrameIsEventuallySent := by
  classical
  intro σ hrun hfair n hposted
  have hturn : ∃ m, n ≤ m ∧ turnOf (σ m) = .tx := by
    by_contra! hnever
    obtain ⟨m, hnm, htx⟩ := hfair.tx n fun m hnm =>
      (stillPosted_until_tx hrun hposted hnm fun i hni _ => hnever i hni).ready
    exact hnever m hnm htx
  obtain ⟨hnm, htx⟩ := Nat.find_spec hturn
  have hstill := stillPosted_until_tx hrun hposted hnm fun i hni him hi => Nat.find_min hturn him ⟨hni, hi⟩
  obtain ⟨hclear, hemit⟩ := hstill.sent htx (hrun _)
  exact ⟨_, Nat.lt_succ_of_le hnm, hclear, hemit⟩

end Sys2Proof.Machine
end

section
/-! SUPPORT. The statements of 43_nonce_fifo.md: the reads and writes of the nonce registers, the return path, the
collection of responses, alone and among the other agents' steps, and the correlation. -/

namespace Sys2Proof.Machine

/-! ## Reads of the nonce registers -/

/-- The end of a read: the word in x[d] and the pc at the next statement (47_host_script.md R224). -/
theorem readInto_finishRead (d : Fin 8) (off : Nat) (v : Word) (s : State) : readInto d v s (s.finishRead d off v) :=
  (finishRead_afterDraw d off v s).1

/-- A count read sees no more entries than the FIFO holds. -/
theorem visibleCount_le (s : State) : visibleCount s ≤ s.nfQ.length := by
  unfold visibleCount State.chooseOf
  split
  · split <;> omega
  · exact Nat.le_refl _

/-- The count of a half-read entry is one of two (43_nonce_fifo.md R170). -/
theorem visibleCount_half {s : State} (hphase : s.nfPhase = true) :
    visibleCount s = s.nfQ.length ∨ visibleCount s = s.nfQ.length - 1 := by
  rw [visibleCount, if_pos hphase, State.chooseOf]
  exact ite_eq_or_eq ..

/-- The bits above the count field of the word a count read returns are the draw's (43_nonce_fifo.md R170). -/
theorem getLsbD_countWord (drawn : Word) (c : Nat) {n : Nat} (hn : 15 ≤ n) :
    (countWord drawn c).getLsbD n = drawn.getLsbD n := by
  have hmask : (0x7FFF : Word).getLsbD n = false :=
    Nat.testBit_lt_two_pow (Nat.lt_of_lt_of_le (by decide) (Nat.pow_le_pow_right two_pos hn))
  have hdrawn : drawn.getLsbD n = true → n < 32 := BitVec.lt_of_getLsbD
  simp only [countWord, BitVec.getLsbD_or, BitVec.getLsbD_and, BitVec.getLsbD_not, hmask]
  grind

/-- The count field of the word a count read returns, as a word. -/
theorem and_countWord (drawn : Word) {c : Nat} (h : c ≤ 32767) : countWord drawn c &&& 0x7FFF = BitVec.ofNat 32 c := by
  refine BitVec.eq_of_toNat_eq ((countField_countWord drawn h).trans ?_)
  rw [BitVec.toNat_ofNat, Nat.mod_eq_of_lt (by omega)]

/-- A count read with no half-read entry draws once and returns the number of entries (43_nonce_fifo.md R170). -/
theorem exec_nonceCountRd_whole {s : State} (hphase : s.nfPhase = false) (d : Fin 8) :
    exec (.nonceCountRd d) s =
      .next (s.afterDraw.finishRead d (regOffset s.cfg.layout .nonceCount) (countWord s.nextDraw s.nfQ.length)) := by
  simp [exec, execNonceCountRd, countChosen, visibleCount, hphase]

/-- A count read of a half-read entry draws the count first (43_nonce_fifo.md R170). -/
theorem exec_nonceCountRd_half {s : State} (hphase : s.nfPhase = true) (d : Fin 8) :
    let chosen := s.drawn (BitVec.ofNat 32 (visibleCount s))
    exec (.nonceCountRd d) s = .next (chosen.afterDraw.finishRead d (regOffset s.cfg.layout .nonceCount)
      (countWord chosen.nextDraw (visibleCount s))) := by
  simp [exec, execNonceCountRd, countChosen, hphase]

/-- Settles O34: the two phases, a choice made while the head entry is half read. -/
theorem countReadReturnsQueueLength : Obligations.CountReadReturnsQueueLength := by
  intro s d hlen
  have hvisible := (visibleCount_le s).trans hlen
  cases hphase : s.nfPhase with
  | false =>
    obtain ⟨hinto, hhist, hdraw, hsame⟩ := finishRead_afterDraw d (regOffset s.cfg.layout .nonceCount)
      (countWord s.nextDraw s.nfQ.length) s
    refine ⟨_, _, exec_nonceCountRd_whole hphase d, hinto, fun _ => ⟨?_, hdraw, fun n hn => ?_, hhist⟩, by simp, hsame⟩
    · exact countField_countWord _ hlen
    · exact getLsbD_countWord _ _ hn
  | true =>
    obtain ⟨hinto, hhist, hdraw, -⟩ := finishRead_afterDraw d (regOffset s.cfg.layout .nonceCount)
      (countWord (s.drawn (BitVec.ofNat 32 (visibleCount s))).nextDraw (visibleCount s))
      (s.drawn (BitVec.ofNat 32 (visibleCount s)))
    refine ⟨_, _, exec_nonceCountRd_half hphase d, hinto, by simp, fun _ => ⟨?_, hdraw, fun n hn => ?_, ?_⟩,
      by simp [sameBus, sameNonce, sameMarks, sameRest]⟩
    · change countField _ = _ ∨ countField _ = _
      rw [countField_countWord _ hvisible]
      exact visibleCount_half hphase
    · exact getLsbD_countWord _ _ hn
    · rw [hhist, and_countWord _ hvisible]
      simp [regOffset]

/-- A data read of a whole head entry returns its nonce word (43_nonce_fifo.md R175). -/
theorem exec_nonceDataRd_nonce {s : State} {e : Entry} {rest : List Entry} (hq : s.nfQ = e :: rest)
    (hphase : s.nfPhase = false) (d : Fin 8) : exec (.nonceDataRd d) s =
      .next ((s.setNonces s.nfQ true).finishRead d (regOffset s.cfg.layout .nonceData) e.nonce) := by
  simp [exec, execNonceDataRd, hq, hphase]

/-- A data read of a half-read head entry returns its metadata word and removes it (43_nonce_fifo.md R175). -/
theorem exec_nonceDataRd_metadata {s : State} {e : Entry} {rest : List Entry} (hq : s.nfQ = e :: rest)
    (hphase : s.nfPhase = true) (d : Fin 8) : exec (.nonceDataRd d) s =
      .next ((s.setNonces rest false).finishRead d (regOffset s.cfg.layout .nonceData) e.metadata) := by
  simp [exec, execNonceDataRd, hq, hphase]

/-- Settles O35: the two phases. -/
theorem dataReadPopsHalfAnEntry : Obligations.DataReadPopsHalfAnEntry := by
  intro s d e rest hq
  cases hphase : s.nfPhase with
  | false =>
    refine ⟨_, _, exec_nonceDataRd_nonce hq hphase d, readInto_finishRead d _ _ (s.setNonces s.nfQ true), ?_⟩
    simp [regOffset, sameBus, sameMarks, sameRest]
  | true =>
    refine ⟨_, _, exec_nonceDataRd_metadata hq hphase d, readInto_finishRead d _ _ (s.setNonces rest false), ?_⟩
    simp [regOffset, sameBus, sameMarks, sameRest]

/-- A data read of an empty FIFO raises F_EMPTY (43_nonce_fifo.md R176). -/
theorem exec_nonceDataRd_empty {s : State} (hq : s.nfQ = []) (d : Fin 8) : exec (.nonceDataRd d) s =
    .next (s.hostFault .empty (some (regOffset s.cfg.layout .nonceData))) := by
  simp [exec, execNonceDataRd, hq]

/-- Settles O36: the read raises a fault as any statement that is no branch does. -/
theorem emptyDataReadFaults : Obligations.EmptyDataReadFaults :=
  fun s d hq => ⟨_, exec_nonceDataRd_empty hq d, faultOnly_hostFault .empty _ s⟩

/-! ## Writes of the nonce registers -/

/-- Settles O37: each of the three writes raises F_RO at its own offset. -/
theorem readOnlyRegisterWritesFault : Obligations.ReadOnlyRegisterWritesFault :=
  fun s _ => ⟨⟨_, rfl, faultOnly_raise .ro _ s⟩, ⟨_, rfl, faultOnly_raise .ro _ s⟩, ⟨_, rfl, faultOnly_raise .ro _ s⟩⟩

/-- Settles O38: the write stores the word, and the read returns the word held. -/
theorem timeoutRegisterReadsBackWhatWasWritten : Obligations.TimeoutRegisterReadsBackWhatWasWritten := by
  refine fun s d v => ⟨rfl, _, rfl, readInto_finishRead d _ _ s, ?_⟩
  simp [regOffset, sameBus, sameNonce, sameMarks, sameRest]

/-! ## The return path -/

/-- Settles O39: below the depth and at it. -/
theorem returnPathOffersOneEntry : Obligations.ReturnPathOffersOneEntry := by
  intro s
  refine ⟨_, rfl, ?_⟩
  obtain ⟨n, m, hoffer, rfl, rfl⟩ := rxPush_cases s
  rcases hoffer with ⟨hroom, h⟩ | ⟨hfull, h⟩ <;> rw [h]
  · refine ⟨fun _ => ?_, fun hfull => absurd hroom (Nat.not_lt.mpr hfull), ?_⟩ <;>
      simp [sameBus, sameHost, sameMarks, sameRest, State.nextDraw]
  · refine ⟨fun hroom => absurd hroom (Nat.not_lt.mpr hfull), fun _ => ?_, ?_⟩ <;>
      simp [sameBus, sameHost, sameMarks, sameRest, State.nextDraw]

/-! ## The deframer -/

/-- Settles O41: the fields are the word's four bytes (30_encoding.md R84). -/
theorem deframeSplitsTheMetadataWord : Obligations.DeframeSplitsTheMetadataWord := by
  intro w0 chain chip core work
  have hbyte := wordBytes_getElem (wordOf chain chip core work)
  simp only [wordBytes_wordOf] at hbyte
  change deframe w0 (wordOf chain chip core work) = _
  simpa [deframe] using And.intro (hbyte 0).symm
    (And.intro (hbyte 1).symm (And.intro (hbyte 2).symm (hbyte 3).symm))

/-! ## The correlation -/

/-- The value of a word made of four bytes, the first in the high bits (00_scope.md R10). -/
theorem toNat_wordOf (b0 b1 b2 b3 : Byte) : (wordOf b0 b1 b2 b3).toNat =
    b3.toNat + 2 ^ 8 * b2.toNat + 2 ^ 16 * b1.toNat + 2 ^ 24 * b0.toNat := by
  have hbyte {n : Nat} (x : BitVec n) (b : Byte) : (x ++ b).toNat = 2 ^ 8 * x.toNat + b.toNat := by
    rw [BitVec.toNat_append, ← Nat.shiftLeft_add_eq_or_of_lt b.isLt, Nat.shiftLeft_eq, Nat.mul_comm]
  simp only [wordOf, hbyte]
  omega

/-- No record matches exactly when none has the response's nonce (43_nonce_fifo.md R196). -/
theorem correlateFrom_eq_noMatch (index : Nat) (entries : List (PatternRecord × Nat)) (r : NonceResponse) :
    correlateFrom index entries r = .noMatch ↔ ∀ e ∈ entries, expectedNonce e.1 ≠ r.nonce := by
  induction entries generalizing index with
  | nil => simp [correlateFrom]
  | cons e rest ih =>
    by_cases he : expectedNonce e.1 = r.nonce
    · simp [correlateFrom, he]
    · simp [correlateFrom, he, ih]

/-- No record before the `n`-th has the response's nonce. -/
def noneBefore (entries : List (PatternRecord × Nat)) (r : NonceResponse) (n : Nat) : Prop :=
  ∀ k e, k < n → entries[k]? = some e → expectedNonce e.1 ≠ r.nonce

@[simp] theorem noneBefore_zero (entries : List (PatternRecord × Nat)) (r : NonceResponse) :
    noneBefore entries r 0 := by simp [noneBefore]

@[simp] theorem noneBefore_cons_succ (e : PatternRecord × Nat) (rest : List (PatternRecord × Nat)) (r : NonceResponse)
    (n : Nat) : noneBefore (e :: rest) r (n + 1) ↔ expectedNonce e.1 ≠ r.nonce ∧ noneBefore rest r n := by
  refine ⟨fun h => ⟨h 0 e (Nat.succ_pos n) rfl, fun k e' hk => h (k + 1) e' (Nat.succ_lt_succ hk)⟩, ?_⟩
  rintro ⟨hhead, htail⟩ (_ | k) e' hk hget
  · obtain rfl : e = e' := by simpa using hget
    exact hhead
  · exact htail k e' (Nat.lt_of_succ_lt_succ hk) hget

/-- A record matches exactly when it is the first with the response's nonce (43_nonce_fifo.md R195). -/
theorem correlateFrom_eq_matched (index : Nat) (entries : List (PatternRecord × Nat)) (r : NonceResponse) (i : Nat)
    (warn : Bool) : correlateFrom index entries r = .matched i warn ↔
      ∃ n e workId, i = index + n ∧ entries[n]? = some (e, workId) ∧ expectedNonce e = r.nonce ∧
        (warn = true ↔ r.workId.toNat ≠ workId) ∧ noneBefore entries r n := by
  induction entries generalizing index with
  | nil => simp [correlateFrom]
  | cons head rest ih =>
    obtain ⟨e, workId⟩ := head
    rw [← Nat.or_exists_add_one]
    by_cases he : expectedNonce e = r.nonce
    · cases warn <;> simp [correlateFrom, he, eq_comm (a := index)]
    · simp [correlateFrom, he, ih, Nat.add_assoc, Nat.add_comm 1]

/-- Settles O44: the record's bytes, and the first match or none. -/
theorem correlationPicksTheFirstMatch : Obligations.CorrelationPicksTheFirstMatch := by
  refine fun entries r => ⟨fun b => ?_, correlateFrom_eq_noMatch 0 entries r, fun n warn => ?_⟩
  · simp [expectedNonce, recordOf, toNat_wordOf]
  · simpa [correlate, noneBefore] using correlateFrom_eq_matched 0 entries r n warn

/-! ## One read of the driver -/

/-- A read that holds gives nothing yet (20_memory.md R61). -/
theorem readWord_held {s : State} {r : BlockReg} (d : Fin 8) (h : s.readHolds (regOffset s.cfg.layout r) = true) :
    readWord (regOffset s.cfg.layout r) d s = .held := by
  simp [readWord, mmioRead, h]

/-- A read that does not hold and finds a word gives it. -/
theorem readWord_value {s t : State} {r : BlockReg} {d : Fin 8} (h : s.readHolds (regOffset s.cfg.layout r) = false)
    (hx : exec (readInstr r d) s = .next t) (hq : r = .nonceData → s.nfQ ≠ []) :
    readWord (regOffset s.cfg.layout r) d s = .value t.x[d] t := by
  simpa [readWord, mmioRead, h, hx] using hq

/-- A data read of an empty FIFO gives no value (43_nonce_fifo.md R176). -/
theorem readWord_noValue {s : State} (d : Fin 8) (h : s.readHolds (regOffset s.cfg.layout .nonceData) = false)
    (hq : s.nfQ = []) : readWord (regOffset s.cfg.layout .nonceData) d s =
      .noValue (s.hostFault .empty (some (regOffset s.cfg.layout .nonceData))) := by
  simp [readWord, mmioRead, h, readInstr, exec_nonceDataRd_empty hq, hq]

/-! ## One step of a collection -/

/-- The register a collection reads next, if it reads on. -/
def Collection.reads : Collection → Option BlockReg
  | .counting => some .nonceCount
  | .atNonce _ _ => some .nonceData
  | .atMetadata _ _ _ => some .nonceData
  | .done _ => none
  | .stopped _ => none

/-- A collection whose read holds stays as it stands, and so does the machine (20_memory.md R61). -/
theorem collectStep_held {c : Collection} {s : State} {r : BlockReg} (hr : c.reads = some r)
    (h : s.readHolds (regOffset s.cfg.layout r) = true) : collectStep c s = (c, s) := by
  cases c <;> cases hr <;> simp [collectStep, readWord_held _ h]

/-- The count read with no half-read entry: as many pairs to go as there are entries (43_nonce_fifo.md R170). -/
theorem collectStep_counting {s : State} (h : s.readHolds (regOffset s.cfg.layout .nonceCount) = false)
    (hphase : s.nfPhase = false) (hlen : s.nfQ.length ≤ 32767) : collectStep .counting s =
      (pairsLeft s.nfQ.length [],
        s.afterDraw.finishRead 5 (regOffset s.cfg.layout .nonceCount) (countWord s.nextDraw s.nfQ.length)) := by
  simp [collectStep, readWord_value h (exec_nonceCountRd_whole hphase 5), hlen]

/-- The first read of a pair takes the head entry's nonce word (43_nonce_fifo.md R175). -/
theorem collectStep_atNonce {s : State} {e : Entry} {rest : List Entry}
    (h : s.readHolds (regOffset s.cfg.layout .nonceData) = false) (hq : s.nfQ = e :: rest) (hphase : s.nfPhase = false)
    (left : Nat) (out : List NonceResponse) : collectStep (.atNonce left out) s =
      (.atMetadata left e.nonce out,
        (s.setNonces s.nfQ true).finishRead 0 (regOffset s.cfg.layout .nonceData) e.nonce) := by
  simp [collectStep, readWord_value h (exec_nonceDataRd_nonce hq hphase 0), hq]

/-- The second read of a pair takes the head entry's metadata word and removes the entry (43_nonce_fifo.md R175). -/
theorem collectStep_atMetadata {s : State} {e : Entry} {rest : List Entry}
    (h : s.readHolds (regOffset s.cfg.layout .nonceData) = false) (hq : s.nfQ = e :: rest) (hphase : s.nfPhase = true)
    (left : Nat) (w0 : Word) (out : List NonceResponse) : collectStep (.atMetadata left w0 out) s =
      (pairsLeft (left - 1) (out ++ [deframe w0 e.metadata]),
        (s.setNonces rest false).finishRead 1 (regOffset s.cfg.layout .nonceData) e.metadata) := by
  simp [collectStep, readWord_value h (exec_nonceDataRd_metadata hq hphase 1), hq]

/-- A pair begun on an empty FIFO ends the collection at the fault (43_nonce_fifo.md R176). -/
theorem collectStep_empty {s : State} (h : s.readHolds (regOffset s.cfg.layout .nonceData) = false) (hq : s.nfQ = [])
    (left : Nat) (out : List NonceResponse) : collectStep (.atNonce left out) s =
      (.stopped out, s.hostFault .empty (some (regOffset s.cfg.layout .nonceData))) := by
  simp [collectStep, readWord_noValue 0 h hq]

/-! ## A collection with no other step between its reads -/

/-- The response an entry is decoded to (43_nonce_fifo.md R180). -/
def Entry.response (e : Entry) : NonceResponse := deframe e.nonce e.metadata

/-- Each pair still to read takes two reads. -/
theorem readsLeft_pairsLeft (left : Nat) (out : List NonceResponse) : (pairsLeft left out).readsLeft = 2 * left := by
  cases left <;> rfl

/-- The state after the two reads of the head entry. -/
def State.afterPair (e : Entry) (rest : List Entry) (s : State) : State :=
  (((s.setNonces s.nfQ true).finishRead 0 (regOffset s.cfg.layout .nonceData) e.nonce).setNonces rest false).finishRead
    1 (regOffset s.cfg.layout .nonceData) e.metadata

/-- The two reads of a pair take the head entry. -/
theorem collectSteps_pair {s : State} {e : Entry} {rest : List Entry}
    (h : s.readHolds (regOffset s.cfg.layout .nonceData) = false) (hq : s.nfQ = e :: rest) (hphase : s.nfPhase = false)
    (n left : Nat) (out : List NonceResponse) : collectSteps (n + 2) (.atNonce left out) s =
      collectSteps n (pairsLeft (left - 1) (out ++ [e.response])) (s.afterPair e rest) := by
  have hsecond := collectStep_atMetadata
    (s := (s.setNonces s.nfQ true).finishRead 0 (regOffset s.cfg.layout .nonceData) e.nonce) h hq rfl left e.nonce out
  rw [collectSteps, collectStep_atNonce h hq hphase, collectSteps, hsecond]
  rfl

/-- The reads of as many pairs as there are entries return every entry and leave the FIFO empty, and nothing else of
the block changes. -/
theorem collectSteps_pairs (q : List Entry) (out : List NonceResponse) (s : State) (hq : s.nfQ = q)
    (hphase : s.nfPhase = false) (h : s.readHolds (regOffset s.cfg.layout .nonceData) = false) :
    ∃ t, collectSteps (2 * q.length) (pairsLeft q.length out) s = (.done (out ++ q.map Entry.response), t) ∧
      t.nfQ = [] ∧ t.nfPhase = false ∧ sameBus s t ∧ sameMarks s t ∧ t.nonceTimeout = s.nonceTimeout := by
  induction q generalizing out s with
  | nil => exact ⟨s, by simp [collectSteps, pairsLeft], hq, hphase, ⟨rfl, rfl, rfl, rfl⟩, ⟨rfl, rfl⟩, rfl⟩
  | cons e rest ih =>
    obtain ⟨t, hsteps, hkeep⟩ := ih (out ++ [e.response]) (s.afterPair e rest) (by simp [State.afterPair])
      (by simp [State.afterPair]) (by simpa [State.afterPair, State.readHolds] using h)
    refine ⟨t, ?_, by simpa [State.afterPair, sameBus, sameMarks] using hkeep⟩
    simpa [pairsLeft, Nat.mul_add, collectSteps_pair h hq hphase] using hsteps

/-- Settles O42: the count read and the pairs, a count read that holds, and a pair begun on an empty FIFO. -/
theorem collectReturnsTheWholeQueue : Obligations.CollectReturnsTheWholeQueue := by
  refine fun s => ⟨fun hphase hlen hoff hstrict => ?_, fun hpending => ?_, fun left out hq hwq => ?_⟩
  · have hcount : s.readHolds (regOffset s.cfg.layout .nonceCount) = false := by
      simpa [State.readHolds, regOffset] using ⟨fun e he => (hoff e he).1, hstrict⟩
    have hdata : s.readHolds (regOffset s.cfg.layout .nonceData) = false := by
      simpa [State.readHolds, regOffset] using ⟨fun e he => (hoff e he).2, hstrict⟩
    obtain ⟨t, hsteps, hkeep⟩ := collectSteps_pairs s.nfQ [] (s.afterDraw.finishRead 5
      (regOffset s.cfg.layout .nonceCount) (countWord s.nextDraw s.nfQ.length)) (by simp) (by simpa)
      (by simpa [State.readHolds] using hdata)
    refine ⟨t, ?_, by simpa [sameBus, sameMarks] using hkeep⟩
    rw [collect, collectStep_counting hcount hphase hlen, readsLeft_pairsLeft]
    exact hsteps
  · have hholds : s.readHolds (regOffset s.cfg.layout .nonceCount) = true := by
      simpa [State.readHolds, regOffset] using hpending
    rw [collect, collectStep_held rfl hholds]
    rfl
  · have hdata : s.readHolds (regOffset s.cfg.layout .nonceData) = false := by simp [State.readHolds, hwq]
    exact ⟨_, collectStep_empty hdata hq left out, faultOnly_hostFault .empty _ s⟩

/-! ## A collection among the steps of TX, RX and WB -/

/-- A move of TX, RX or WB reads nothing and leaves the read phase, and the entries it pushes join the FIFO at its tail
(43_nonce_fifo.md R185). -/
theorem Move.pushes_of_not_host {s t : State} {turn : Turn} (h : Move s turn t) (hk : ∀ k, turn ≠ .host k) :
    ∃ new, t.hist = s.hist ++ new ∧ (∀ off, readAt off new = []) ∧ t.nfQ = s.nfQ ++ pushed new ∧
      t.nfPhase = s.nfPhase := by
  cases h with
  | idle => exact ⟨[], by simp⟩
  | send bytes =>
    refine ⟨(if hazard s.cmdChain s.hist then [.fault .hazard none] else []) ++ [.emit s.cmdChain bytes], ?_⟩
    rw [State.sendFrame_hist, State.hazardChecked_hist]
    split <;> simp
  | offer =>
    obtain ⟨n, m, ⟨-, h⟩ | ⟨-, h⟩, hn, hm⟩ := rxPush_cases s <;> rw [h]
    · exact ⟨[.draw n, .draw m, .push n m], by simp [hn, hm]⟩
    · exact ⟨[.draw n, .draw m, .drop n m], by simp [hn, hm]⟩
  | perform pick e rest r m hc ho hx =>
    obtain ⟨-, hq, hphase, new, ⟨-, hreads, hpushed⟩, hhist⟩ := exec_writeInstr_queues hx
    exact ⟨new ++ [.performed e.off e.value], by simp [hhist, hreads, hpushed, hq, hphase]⟩
  | performNowhere pick e rest => exact ⟨[.refuse .outOfBlock, .performed e.off e.value], by simp⟩
  | noStmt | quiet | hostFault | branchFault | hostRefuse | issue | read => exact absurd rfl (hk _)

/-- Where a collection that has taken the entries `taken` stands over the FIFO's entries `q` and its read phase, and the
words it has read: its count and, at NONCE_DATA, the words of what it took. It never stands stopped. -/
inductive Standing (taken q : List Entry) : Collection → Bool → List Word → List Word → Prop
  | counting (htaken : taken = []) : Standing taken q .counting false [] []
  | atNonce (left : Nat) (count : Word) (hpos : 0 < left) (hleft : left ≤ q.length)
      (hcount : taken.length + left = countField count) :
      Standing taken q (.atNonce left (taken.map Entry.response)) false [count] (entryWords taken)
  | atMetadata (left : Nat) (count : Word) (e : Entry) (rest : List Entry) (hq : q = e :: rest) (hpos : 0 < left)
      (hleft : left ≤ q.length) (hcount : taken.length + left = countField count) :
      Standing taken q (.atMetadata left e.nonce (taken.map Entry.response)) true [count]
        (entryWords taken ++ [e.nonce])
  | done (count : Word) (hcount : taken.length = countField count) :
      Standing taken q (.done (taken.map Entry.response)) false [count] (entryWords taken)

/-- Entries that join the FIFO at its tail leave a collection where it stands. -/
theorem Standing.append {taken q : List Entry} {c : Collection} {phase : Bool} {counts words : List Word}
    (h : Standing taken q c phase counts words) (later : List Entry) :
    Standing taken (q ++ later) c phase counts words := by
  have hlonger {left : Nat} (hleft : left ≤ q.length) : left ≤ (q ++ later).length :=
    hleft.trans (List.length_append ▸ Nat.le_add_right ..)
  cases h with
  | counting htaken => exact .counting htaken
  | atNonce left count hpos hleft hcount => exact .atNonce left count hpos (hlonger hleft) hcount
  | atMetadata left count e rest hq hpos hleft hcount =>
    exact .atMetadata left count e (rest ++ later) (by simp [hq]) hpos (hlonger hleft) hcount
  | done count hcount => exact .done count hcount

/-- Between pairs a collection with `left` to go stands at the next pair or at its end. -/
theorem Standing.pairsLeft {taken q : List Entry} {left : Nat} {count : Word} (hleft : left ≤ q.length)
    (hcount : taken.length + left = countField count) :
    Standing taken q (pairsLeft left (taken.map Entry.response)) false [count] (entryWords taken) := by
  cases left with
  | zero => exact .done count hcount
  | succ n => exact .atNonce (n + 1) count (Nat.succ_pos n) hleft hcount

/-- What a collection begun at `s` has come to when it stands at `c` in the state `t`: it has taken the oldest entries,
of those queued at the start and then those pushed since. -/
structure Collected (s : State) (c : Collection) (t : State) : Prop where
  cfg : t.cfg = s.cfg
  fifo : t.fifoOk
  stands : ∃ taken later counts words, Standing taken t.nfQ c t.nfPhase counts words ∧
    s.nfQ ++ later = taken ++ t.nfQ ∧ pushed t.hist = pushed s.hist ++ later ∧
    readAt 0x018 t.hist = readAt 0x018 s.hist ++ counts ∧ readAt 0x010 t.hist = readAt 0x010 s.hist ++ words

/-- A collection that has not begun. -/
theorem Collected.start {s : State} (hphase : s.nfPhase = false) (hdepth : s.nfQ.length ≤ s.cfg.fifoDepth) :
    Collected s .counting s where
  cfg := rfl
  fifo := ⟨hdepth, by simp [hphase]⟩
  stands := ⟨[], [], [], [], by rw [hphase]; exact .counting rfl, by simp⟩

/-- A step of TX, RX or WB leaves a collection where it stands. -/
theorem Collected.other {s t u : State} {c : Collection} (h : Collected s c t) {turn : Turn}
    (hturn : ∀ k, turn ≠ .host k) (hrun : runTurn turn t = .next u) : Collected s c u := by
  have hmove : Move t turn u := by
    cases turn with
    | host k => exact absurd rfl (hturn k)
    | tx | rx | wb => exact move_of_runTurn hrun
  obtain ⟨events, hrecords, -⟩ := hmove.records
  obtain ⟨new, hhist, hreads, hq, hphase⟩ := hmove.pushes_of_not_host hturn
  obtain ⟨taken, later, counts, words, hstands, hqueue, hpushed, hcounts, hwords⟩ := h.stands
  refine ⟨hrecords.cfg.trans h.cfg, hmove.fifoOk h.fifo, taken, later ++ pushed new, counts, words, ?_, ?_⟩
  · rw [hq, hphase]
    exact hstands.append _
  · simp [hq, hhist, hreads, hpushed, hcounts, hwords, ← List.append_assoc, hqueue]

/-- A read of the collection takes it on: the count read shows the entries there are, and each further read finds its
entry in the FIFO (43_nonce_fifo.md R183). -/
theorem Collected.own {s t : State} {c : Collection} (hmax : s.cfg.fifoDepth ≤ 32767) (h : Collected s c t) :
    Collected s (collectStep c t).1 (collectStep c t).2 := by
  by_cases hheld : ∃ r, c.reads = some r ∧ t.readHolds (regOffset t.cfg.layout r) = true
  · obtain ⟨r, hr, hheld⟩ := hheld
    rwa [collectStep_held hr hheld]
  have hfree (r : BlockReg) (hr : c.reads = some r) : t.readHolds (regOffset t.cfg.layout r) = false := by
    simpa [hr] using hheld
  obtain ⟨hcfg, hfifo, taken, later, counts, words, hstands, hqueue, hpushed, hcounts, hwords⟩ := h
  generalize hphase : t.nfPhase = phase at hstands
  cases hstands with
  | counting htaken =>
    subst htaken
    have hlen : t.nfQ.length ≤ 32767 := (hcfg ▸ hfifo.1).trans hmax
    rw [collectStep_counting (hfree _ rfl) hphase hlen]
    have hfifo' := exec_readInstr_fifoOk (r := .nonceCount) (d := 5) hfifo (exec_nonceCountRd_whole hphase 5)
    refine ⟨hcfg, hfifo', [], later, [countWord t.nextDraw t.nfQ.length], [], ?_, hqueue, ?_⟩
    · exact hphase ▸ Standing.pairsLeft (taken := []) (Nat.le_refl _) (by simp [hlen])
    · simp [regOffset, hpushed, hcounts, hwords]
  | atNonce left count hpos hleft hcount =>
    obtain ⟨e, rest, hq⟩ := List.exists_cons_of_length_pos (Nat.lt_of_lt_of_le hpos hleft)
    rw [collectStep_atNonce (hfree _ rfl) hq hphase]
    have hfifo' := exec_readInstr_fifoOk (r := .nonceData) (d := 0) hfifo (exec_nonceDataRd_nonce hq hphase 0)
    refine ⟨hcfg, hfifo', taken, later, [count], entryWords taken ++ [e.nonce],
      .atMetadata left count e rest hq hpos hleft hcount, hqueue, ?_⟩
    simp [regOffset, hpushed, hcounts, hwords]
  | atMetadata left count e rest hq hpos hleft hcount =>
    rw [collectStep_atMetadata (hfree _ rfl) hq hphase]
    have hnext : Standing (taken ++ [e]) rest (pairsLeft (left - 1) ((taken ++ [e]).map Entry.response)) false [count]
        (entryWords (taken ++ [e])) :=
      Standing.pairsLeft (Nat.sub_le_of_le_add (by simpa [hq] using hleft)) (by
        rw [List.length_append, List.length_singleton]
        omega)
    have hfifo' := exec_readInstr_fifoOk (r := .nonceData) (d := 1) hfifo (exec_nonceDataRd_metadata hq hphase 1)
    refine ⟨hcfg, hfifo', taken ++ [e], later, [count], entryWords (taken ++ [e]),
      by simpa [Entry.response] using hnext, by simp [hqueue, hq], ?_⟩
    simp [regOffset, hpushed, hcounts, hwords]
  | done count hcount =>
    exact ⟨hcfg, hfifo, taken, later, _, _, hphase ▸ .done count hcount, hqueue, hpushed, hcounts, hwords⟩

/-- Every collection among the steps of TX, RX and WB stands where `Collected` says. -/
theorem CollectRun.collected {s t : State} {c : Collection} (hphase : s.nfPhase = false)
    (hdepth : s.nfQ.length ≤ s.cfg.fifoDepth) (hmax : s.cfg.fifoDepth ≤ 32767) (h : CollectRun .counting s c t) :
    Collected s c t := by
  induction h with
  | start => exact .start hphase hdepth
  | own _ ih => exact (ih hphase hdepth hmax).own hmax
  | other _ turn hturn hrun ih => exact (ih hphase hdepth hmax).other hturn hrun

/-- The responses read off the words of whole entries are the entries decoded. -/
theorem responsesOf_entryWords (q : List Entry) : responsesOf (entryWords q) = q.map Entry.response := by
  induction q with
  | nil => rfl
  | cons e q ih => simp [responsesOf, ih, Entry.response]

/-- Settles O43: no collection stands stopped, and one at its end has taken as many entries as it counted. -/
theorem collectReadsWhatIsQueued : Obligations.CollectReadsWhatIsQueued := by
  intro s t c hphase hdepth hmax hrun
  obtain ⟨-, -, taken, later, counts, words, hstands, hqueue, hpushed, hcounts, hwords⟩ :=
    hrun.collected hphase hdepth hmax
  generalize hp : t.nfPhase = phase at hstands
  cases hstands with
  | counting | atNonce | atMetadata => simp
  | done count hcount =>
    refine ⟨by simp, ?_⟩
    rintro out ⟨⟩
    exact ⟨taken, later, count, hqueue, rfl, hpushed, hcounts, by simpa using hcount, rfl, hwords,
      (responsesOf_entryWords taken).symm⟩

end Sys2Proof.Machine
end

section
/-! SUPPORT. The statements of 45_payloads.md: the enumeration addresses (R211), the divisor of a baud rate and its
CLK_CTRL payload (R201 to R204), and the writes of the high-speed switch (R203). -/

namespace Sys2Proof.Machine

/-! ## The enumeration addresses -/

/-- The addresses rise by a whole interval each (45_payloads.md R211). -/
theorem enumInterval_pos (numChips : Nat) : 0 < enumInterval numChips := Nat.le_max_left ..

/-- The intervals of an admitted count of chips fit together in 256 addresses. -/
theorem mul_enumInterval_le {numChips : Nat} (hpos : 1 ≤ numChips) (hmax : numChips ≤ 256) :
    numChips * enumInterval numChips ≤ 256 := by
  rw [enumInterval, Nat.max_eq_right ((Nat.one_le_div_iff hpos).mpr hmax)]
  exact Nat.mul_div_le 256 numChips

/-- Settles O45: each address lies below the intervals of all the chips together. -/
theorem enumerationAddressesFitAByte : Obligations.EnumerationAddressesFitAByte := by
  refine ⟨fun n hpos hmax => ⟨_, if_pos ⟨hpos, hmax⟩, by simp, fun i hi => by simp [hi, enumInterval], ?_, ?_⟩,
    fun n hn => if_neg (by omega)⟩
  · exact List.pairwise_lt_range.map _ fun i j hij => Nat.mul_lt_mul_of_pos_right hij (enumInterval_pos n)
  · intro a ha
    obtain ⟨i, hi, rfl⟩ := List.mem_map.mp ha
    calc i * enumInterval n < n * enumInterval n :=
          Nat.mul_lt_mul_of_pos_right (List.mem_range.mp hi) (enumInterval_pos n)
      _ ≤ 256 := mul_enumInterval_le hpos hmax

/-! ## The divisor of a baud rate -/

/-- The reference clock of the low-speed mode (45_payloads.md R202). -/
theorem baudReference_low {baud : Nat} (h : baud ≤ 3000000) : baudReference baud = (25000000, false) := if_pos h

/-- The reference clock of the high-speed mode (45_payloads.md R203). -/
theorem baudReference_high {baud : Nat} (h : 3000000 < baud) : baudReference baud = (400000000, true) :=
  if_neg (Nat.not_le.mpr h)

/-- A divisor is one less than the quotient of its reference clock, and in the range 0 to 511 (45_payloads.md R202). -/
theorem baudDivisor_eq_ok {baud d : Nat} : baudDivisor baud = .ok d ↔
    0 < baud ∧ d ≤ 511 ∧ (baudReference baud).1 / (baud * 8) = d + 1 := by
  simp only [baudDivisor]
  generalize (baudReference baud).1 / (baud * 8) = quotient
  split_ifs with h
  · rw [false_iff]
    omega
  · rw [Except.ok.injEq]
    omega

/-- The one failure of the divisor is a ValidationError (45_payloads.md R204). -/
theorem baudDivisor_eq_error {baud : Nat} {e : HostError} (h : baudDivisor baud = .error e) :
    e = .validationError := by
  simp only [baudDivisor] at h
  split_ifs at h
  exact (Except.error.inj h).symm

/-! ## The bits of the CLK_CTRL payload -/

/-- The open bits of the payload: the base, and in the high-speed mode its bit (45_payloads.md R201). -/
def clkCtrlOpen (hs : Bool) : Word := clkCtrlBase ||| if hs then highSpeedBit else 0

/-- The fields of the divisor: d[8:5] in bits 11 to 8 and d[4:0] in bits 4 to 0 (45_payloads.md R201). -/
def divisorFields (d : Nat) : Word := (BitVec.ofNat 32 (d / 32) <<< 8 &&& 0xF00) ||| (BitVec.ofNat 32 d &&& 0x1F)

/-- A word kept off the divisor's bits has none of them. -/
theorem and_not_divisorMask_and (raw : Word) : raw &&& ~~~divisorMask &&& divisorMask = 0 := by
  simp [BitVec.and_assoc, divisorMask]

/-- The open bits are off the divisor's bits (assumption log 23). -/
theorem clkCtrlOpen_and_not_divisorMask (hs : Bool) : clkCtrlOpen hs &&& ~~~divisorMask = clkCtrlOpen hs := by
  cases hs <;> simp [clkCtrlOpen, clkCtrlBase, highSpeedBit, ← BitVec.and_or_distrib_right, BitVec.and_assoc]

/-- The divisor's fields are in the divisor's bits. -/
theorem divisorFields_and_not_divisorMask (d : Nat) : divisorFields d &&& ~~~divisorMask = 0 := by
  simp [divisorFields, divisorMask, BitVec.and_or_distrib_right, BitVec.and_assoc]

/-- The payload is its open bits and the divisor's fields. -/
theorem clkCtrl_eq (d : Nat) (hs : Bool) : clkCtrl d hs = clkCtrlOpen hs ||| divisorFields d := by
  have hlow : BitVec.ofNat 32 (d % 32) = BitVec.ofNat 32 d &&& 0x1F := by
    rw [← Nat.and_two_pow_sub_one_eq_mod d 5, BitVec.ofNat_and]
    rfl
  have hhigh : BitVec.ofNat 32 (d / 32 % 16) <<< 8 = BitVec.ofNat 32 (d / 32) <<< 8 &&& 0xF00 := by
    rw [← Nat.and_two_pow_sub_one_eq_mod (d / 32) 4, BitVec.ofNat_and, BitVec.shiftLeft_and_distrib]
    rfl
  rw [clkCtrl, hlow, hhigh, clkCtrlOpen, divisorFields]
  ac_rfl

/-- Off the divisor's bits the payload is its open bits. -/
theorem clkCtrl_and_not_divisorMask (d : Nat) (hs : Bool) : clkCtrl d hs &&& ~~~divisorMask = clkCtrlOpen hs := by
  rw [clkCtrl_eq, BitVec.and_or_distrib_right, clkCtrlOpen_and_not_divisorMask, divisorFields_and_not_divisorMask]
  exact BitVec.or_zero

/-- In the divisor's bits the payload is the divisor's fields. -/
theorem clkCtrl_and_divisorMask (d : Nat) (hs : Bool) : clkCtrl d hs &&& divisorMask = divisorFields d := by
  rw [clkCtrl_eq, ← clkCtrlOpen_and_not_divisorMask, BitVec.and_or_distrib_right, and_not_divisorMask_and]
  simp [divisorFields, divisorMask, BitVec.and_or_distrib_right, BitVec.and_assoc]

/-- A field of the payload that lies in the divisor's bits is that of the divisor's fields. -/
theorem extractLsb'_clkCtrl {start len : Nat} (hbits : divisorMask.extractLsb' start len = BitVec.allOnes len) (d : Nat)
    (hs : Bool) : (clkCtrl d hs).extractLsb' start len = (divisorFields d).extractLsb' start len := by
  rw [← clkCtrl_and_divisorMask d hs, BitVec.extractLsb'_and, hbits, BitVec.and_allOnes]

/-- Bits 4 to 0 of the payload are d[4:0]. -/
theorem clkCtrl_lowField (d : Nat) (hs : Bool) : ((clkCtrl d hs).extractLsb' 0 5).toNat = d % 32 := by
  have hmask (n : Nat) : n &&& 31 = n % 32 := Nat.and_two_pow_sub_one_eq_mod n 5
  rw [extractLsb'_clkCtrl rfl]
  simp [divisorFields, BitVec.extractLsb'_or, BitVec.extractLsb'_and, hmask]

/-- Bits 11 to 8 of the payload are d[8:5]. -/
theorem clkCtrl_highField {d : Nat} (hmax : d ≤ 511) (hs : Bool) :
    ((clkCtrl d hs).extractLsb' 8 4).toNat = d / 32 := by
  have hmask (n : Nat) : n &&& 15 = n % 16 := Nat.and_two_pow_sub_one_eq_mod n 4
  have hfit : d / 32 * 256 % 4294967296 / 256 % 16 = d / 32 := by omega
  rw [extractLsb'_clkCtrl rfl]
  simpa [divisorFields, BitVec.extractLsb'_or, BitVec.extractLsb'_and, hmask, Nat.shiftLeft_eq,
    Nat.shiftRight_eq_div_pow] using hfit

/-! ## The payload of a baud rate -/

/-- The payload of a rate that has a divisor (45_payloads.md R202, R203). -/
theorem uartPayload_eq_ok {baud d : Nat} (h : baudDivisor baud = .ok d) :
    uartPayload baud = .ok (clkCtrl d (baudReference baud).2) := by
  rw [uartPayload, h]
  rfl

/-- A rate without a divisor has no payload (45_payloads.md R204). -/
theorem uartPayload_eq_error {baud : Nat} {e : HostError} (h : baudDivisor baud = .error e) :
    uartPayload baud = .error e := by
  rw [uartPayload, h, except_map_error]

/-- Settles O46: the quotient and the open bits by speed mode, the divisor's two fields, and the switch's stage. -/
theorem baudDivisorsInRange : Obligations.BaudDivisorsInRange := by
  refine ⟨fun baud d => ?_, fun baud e he => ⟨baudDivisor_eq_error he, uartPayload_eq_error he⟩, fun baud d hd => ?_,
    and_not_divisorMask_and _, and_not_divisorMask_and _, fun o p c v hv => ?_⟩
  · rw [baudDivisor_eq_ok]
    obtain h | h := Nat.lt_or_ge 3000000 baud
    · simp [baudReference_high h, h]
    · simp [baudReference_low h, h, Nat.not_lt.mpr h]
  · obtain ⟨-, hmax, -⟩ := baudDivisor_eq_ok.mp hd
    refine ⟨_, uartPayload_eq_ok hd, clkCtrl_lowField d _, clkCtrl_highField hmax _,
      (clkCtrl_and_not_divisorMask d _).trans ?_⟩
    obtain h | h := Nat.lt_or_ge 3000000 baud
    · simp [clkCtrlOpen, baudReference_high h, h]
    · simp [clkCtrlOpen, baudReference_low h, Nat.not_lt.mpr h]
  · rw [highSpeedSwitch, hv]
    exact ⟨_, rfl, by simp⟩

end Sys2Proof.Machine
end

section
/-! SUPPORT. The statements of 47_host_script.md: the fence, the writes, the statements that compute, and those that
move HOST's tasks. -/

namespace Sys2Proof.Machine

/-! ## Reading a written source register -/

/-- A written register gives its value (60_exceptions.md R241 code 9). -/
@[simp] theorem State.readX_of_written {s : State} {xs : Fin 8} (h : s.xW[xs] = true) : s.readX xs = some s.x[xs] :=
  if_pos h

/-- A statement on a written register runs on its value (47_host_script.md R223, R227 to R230). -/
@[simp] theorem withX_of_written {s : State} {xs : Fin 8} (h : s.xW[xs] = true) (f : Word → State → State) :
    withX xs f s = f s.x[xs] s := by
  simp [withX, h]

/-- A branch on a written register sets the pc by the test of its value (47_host_script.md R231, R232). -/
theorem branch_of_written {s : State} {xs : Fin 8} (h : s.xW[xs] = true) (taken : Word → Bool) (label : Nat) :
    branch taken xs label s = s.setPc (if taken s.x[xs] then label else s.pc + 1) := by
  simp only [branch, State.readX_of_written h, jump, State.nextPc]
  split <;> rfl

/-- A shift of a written register by less than 32 sets its destination (47_host_script.md R230). -/
theorem shiftStmt_of_written {s : State} {xs : Fin 8} (h : s.xW[xs] = true) (shift : Word → Nat → Word) (d : Fin 8)
    {sh : Nat} (hsh : sh < 32) : shiftStmt shift d xs sh s = setX d (shift s.x[xs] sh) s := by
  simp [shiftStmt, h, hsh]

/-! ## What a statement that moves HOST's tasks alone leaves -/

/-- All but HOST's tasks and HIST as before. -/
def sameBesideTasks (s t : State) : Prop :=
  sameBus s t ∧ sameNonce s t ∧ sameMarks s t ∧ sameRest s t ∧ t.x = s.x ∧ t.xW = s.xW ∧ t.drawNo = s.drawNo

theorem sameBesideTasks_setTask (k : HostTask) (task : Task) (s : State) : sameBesideTasks s (s.setTask k task) := by
  simp [sameBesideTasks, sameBus, sameNonce, sameMarks, sameRest]

theorem sameBesideTasks_setPc (n : Nat) (s : State) : sameBesideTasks s (s.setPc n) := sameBesideTasks_setTask ..

theorem sameBesideTasks_setHost (h : HostStatus) (s : State) : sameBesideTasks s (s.setHost h) := by
  simp [sameBesideTasks, sameBus, sameNonce, sameMarks, sameRest]

theorem pcAt_setPc (n : Nat) (s : State) : pcAt n s (s.setPc n) := by simp +contextual [pcAt]

/-- A statement that records an event and goes on does nothing else (47_host_script.md R225, R226). -/
theorem record_nextPc (e : Event) (s : State) :
    (s.record e).nextPc.hist = s.hist ++ [e] ∧ pcAt (s.pc + 1) s (s.record e).nextPc ∧
      sameBesideTasks s (s.record e).nextPc :=
  ⟨rfl, pcAt_setPc (s.pc + 1) s, sameBesideTasks_setPc (s.pc + 1) s⟩

/-! ## The fence -/

/-- Settles O18: the fence's one test is whether WQ is empty, and passing it is `record_nextPc`. -/
theorem fenceWaitsForEmptyQueue : Obligations.FenceWaitsForEmptyQueue := by
  refine fun s => ⟨fun hw => ?_, fun hw => ⟨(s.record .fence).nextPc, ?_, record_nextPc .fence s⟩⟩
  · simp [execStmt, fenceStmt, hw]
  · simp [execStmt, fenceStmt, hw]

/-! ## The statements that compute -/

/-- The end of a statement that computes `v`: x[d] holds it, the pc is at the next statement, and nothing else changes
(47_host_script.md R222). -/
theorem setX_sets (d : Fin 8) (v : Word) (s : State) :
    readInto d v s (setX d v s) ∧ (setX d v s).hist = s.hist ∧ (setX d v s).drawNo = s.drawNo ∧
      sameBus s (setX d v s) ∧ sameNonce s (setX d v s) ∧ sameMarks s (setX d v s) ∧ sameRest s (setX d v s) := by
  refine ⟨readInto_finishRead d 0 v s, ?_⟩
  simp [setX, sameBus, sameNonce, sameMarks, sameRest]

/-- A left shift multiplies (47_host_script.md R230). -/
theorem shiftLeft_eq_ofNat_mul (v : Word) (n : Nat) : v <<< n = BitVec.ofNat 32 (v.toNat * 2 ^ n) :=
  BitVec.eq_of_toNat_eq (by simp [Nat.shiftLeft_eq])

/-- A right shift divides (47_host_script.md R230). -/
theorem ushiftRight_eq_ofNat_div (v : Word) (n : Nat) : v >>> n = BitVec.ofNat 32 (v.toNat / 2 ^ n) := by
  rw [← Nat.shiftRight_eq_div_pow, ← BitVec.toNat_ushiftRight, BitVec.ofNat_toNat, BitVec.setWidth_eq]

/-- Settles O47: on a written source each of the six statements ends in `setX` of its rule's value. -/
theorem computingStatementsSetTheirRegister : Obligations.ComputingStatementsSetTheirRegister := by
  intro s d xs imm sh sets
  have hsets {st : Stmt} {t : State} {v : Word} (ht : t = setX d v s) (hst : execStmt st s = .next t) : sets st v :=
    ⟨_, ht ▸ hst, setX_sets d v s⟩
  refine ⟨hsets rfl rfl, fun hxs => ⟨hsets (withX_of_written hxs _) rfl, hsets (withX_of_written hxs _) rfl,
    hsets (withX_of_written hxs _) rfl, fun hsh => ⟨?_, ?_⟩⟩⟩
  · rw [← shiftLeft_eq_ofNat_mul]
    exact hsets (shiftStmt_of_written hxs _ d hsh) rfl
  · rw [← ushiftRight_eq_ofNat_div]
    exact hsets (shiftStmt_of_written hxs _ d hsh) rfl

/-! ## The write statements -/

/-- A word-wide write to a register of the block is posted (20_memory.md R60). -/
theorem mmioWrite_regOffset (r : BlockReg) (v : Word) (s : State) :
    mmioWrite 32 (regOffset s.cfg.layout r) v s = postWrite (regOffset s.cfg.layout r) v s := by
  simp [mmioWrite]

/-- Settles O14: both statements come to the same posted write. -/
theorem writeStatementIssues : Obligations.WriteStatementIssues := by
  intro s r issues
  have hpost {st : Stmt} {v : Word}
      (hst : execStmt st s = .next (mmioWrite 32 (regOffset s.cfg.layout r) v s)) : issues st v := by
    rw [mmioWrite_regOffset] at hst
    refine ⟨_, hst, ?_⟩
    simp +contextual [postWrite, pcAt, sameBus, sameNonce, sameMarks]
  exact ⟨fun v => hpost rfl, fun xs hxs => hpost (by simp [execStmt, hxs])⟩

/-! ## The statements that move HOST's tasks, and the loading of a script -/

/-- The check of a script's labels (47_host_script.md R231). -/
theorem labelsOk_iff (script : List Stmt) :
    labelsOk script = true ↔ ∀ st ∈ script, ∀ l, st.target = some l → l < script.length := by
  rw [labelsOk, List.all_eq_true]
  refine forall₂_congr fun st _ => ?_
  cases st.target <;> simp

/-- A running task whose pc names no statement is refused (47_host_script.md R221). -/
theorem hostStep_noStmt {s : State} (hr : s.host = .running) (hs : s.script.length ≤ s.pc) :
    hostStep s = .next (s.refuse .noStmt) := by
  simp [hostStep, hr, hs]

/-- A script with a label that names no statement is refused (47_host_script.md R231). -/
theorem loadTask_refused {script : List Stmt} {st : Stmt} {l : Nat} (hst : st ∈ script) (hl : st.target = some l)
    (hlen : script.length ≤ l) (k : HostTask) (s : State) : loadTask k script s = s.refuse .noStmt :=
  if_neg fun hok => absurd ((labelsOk_iff script).mp hok st hst l hl) (Nat.not_lt.mpr hlen)

/-- A script whose labels all name statements starts at statement 0 (47_host_script.md R221, R231). -/
theorem loadTask_started {script : List Stmt} (h : ∀ st ∈ script, ∀ l, st.target = some l → l < script.length)
    (k : HostTask) (s : State) : loadTask k script s = s.setTask k ⟨0, script, .running⟩ :=
  if_pos ((labelsOk_iff script).mpr h)

/-- Settles O49: the moves of the pc are `State.setPc`, the ends `State.setHost`, the start `State.setTask`, and what
has no statement to go to is refused. -/
theorem controlStatementsMoveThePc : Obligations.ControlStatementsMoveThePc := by
  intro s xs label e elsewhere moves ends
  have hmoves {st : Stmt} {n : Nat} (hst : execStmt st s = .next (s.setPc n)) : moves st n :=
    ⟨_, hst, pcAt_setPc n s, rfl, sameBesideTasks_setPc n s⟩
  have hends {st : Stmt} {h : HostStatus} (hst : execStmt st s = .next (s.setHost h)) : ends st h :=
    ⟨_, hst, State.setHost_task h s, rfl, rfl, sameBesideTasks_setHost h s⟩
  refine ⟨fun hxs => ⟨hmoves ?_, hmoves ?_⟩, hmoves rfl, hends rfl, hends rfl, fun n => ?_, fun hr hs => ?_,
    hostStep_of_not_running, fun k script => ⟨?_, fun hok => ?_⟩⟩
  · simp [execStmt, branch_of_written hxs]
  · simp [execStmt, branch_of_written hxs]
  · obtain ⟨hhist, hpc, hsame⟩ := record_nextPc (.delay n) s
    exact ⟨_, rfl, hpc, hhist, hsame⟩
  · exact ⟨_, hostStep_noStmt hr hs, refusalOnly_refuse .noStmt s⟩
  · rintro ⟨st, hst, l, hl, hlen⟩
    rw [loadTask_refused hst hl hlen]
    exact refusalOnly_refuse .noStmt s
  · rw [loadTask_started hok]
    exact ⟨by simp, rfl, fun k' hk' => by simp [hk'], sameBesideTasks_setTask k _ s⟩

end Sys2Proof.Machine
end

section
/-! SUPPORT. The statements of 60_exceptions.md: what raising a fault changes, the checks of a statement's operands, what
only grows along a run, and that no step stops the machine. -/

namespace Sys2Proof.Machine

/-! ## Raising a fault -/

/-- A list in the order of the codes holds each kind once (60_exceptions.md R251). -/
theorem kindsInOrder.nodup {ks : List FaultKind} (h : kindsInOrder ks) : ks.Nodup :=
  h.imp fun hlt heq => hlt.ne (congrArg FaultKind.code heq)

/-- Settles O51: the frame is `faultOnly_raise`, and the kind is inserted at its place in the order. -/
theorem raisingAFaultChangesOnlyTheRecord : Obligations.RaisingAFaultChangesOnlyTheRecord := by
  refine fun s k off => ⟨faultOnly_raise k off s, fun hs => ?_⟩
  have horder : kindsInOrder (s.raise k off).faults := insertKind_keeps_order k s.faults hs
  exact ⟨horder.nodup, horder⟩

/-! ## The operand checks of a statement -/

/-- An unwritten register gives no value (60_exceptions.md R241 code 9). -/
@[simp] theorem State.readX_of_unwritten {s : State} {xs : Fin 8} (h : s.xW[xs] = false) : s.readX xs = none :=
  if_neg (by simp [h])

/-- A statement on an unwritten register raises F_UNDEF, whatever it would do with the value (60_exceptions.md R244
item 1). -/
theorem withX_of_unwritten {s : State} {xs : Fin 8} (h : s.xW[xs] = false) (f : Word → State → State) :
    withX xs f s = s.hostFault .undef none := by
  simp [withX, h]

/-- A branch on an unwritten register raises F_UNDEF and stays (47_host_script.md R221, 60_exceptions.md R240). -/
theorem branch_of_unwritten {s : State} {xs : Fin 8} (h : s.xW[xs] = false) (taken : Word → Bool) (label : Nat) :
    branch taken xs label s = s.raise .undef none := by
  simp [branch, h]

/-- A shift of a written register by 32 or more is refused (47_host_script.md R230). -/
theorem shiftStmt_refused {s : State} {xs : Fin 8} (h : s.xW[xs] = true) (shift : Word → Nat → Word) (d : Fin 8)
    {sh : Nat} (hsh : 32 ≤ sh) : shiftStmt shift d xs sh s = s.hostRefuse .shift := by
  simp [shiftStmt, h, Nat.not_lt.mpr hsh]

/-- Settles O48: each of the six statements begins with `withX`, the two others are `branch`, and a shift's amount is
looked at once its source has a value. -/
theorem operandChecksComeFirst : Obligations.OperandChecksComeFirst := by
  intro s d xs imm sh off label
  simp only [List.forall_mem_cons, List.not_mem_nil, false_imp_iff, implies_true, and_true]
  refine ⟨fun hxs => ?_, fun hxs => ?_, fun hxs hsh => ?_⟩
  · have hundef {st : Stmt} {f : Word → State → State} (hst : execStmt st s = .next (withX xs f s)) :
        ∃ t, execStmt st s = .next t ∧ faultOnly .undef none s.cfg.faultAdvancesPc s t :=
      ⟨_, withX_of_unwritten hxs f ▸ hst, faultOnly_hostFault .undef none s⟩
    exact ⟨hundef rfl, hundef rfl, hundef rfl, hundef rfl, hundef rfl, hundef rfl⟩
  · have hundef {st : Stmt} {taken : Word → Bool} (hst : execStmt st s = .next (branch taken xs label s)) :
        ∃ t, execStmt st s = .next t ∧ faultOnly .undef none false s t :=
      ⟨_, branch_of_unwritten hxs taken label ▸ hst, faultOnly_raise .undef none s⟩
    exact ⟨hundef rfl, hundef rfl⟩
  · have hrefused {st : Stmt} {shift : Word → Nat → Word} (hst : execStmt st s = .next (shiftStmt shift d xs sh s)) :
        ∃ t, execStmt st s = .next t ∧ refusalOnly .shift s.cfg.faultAdvancesPc s t :=
      ⟨_, shiftStmt_refused hxs shift d hsh ▸ hst, refusalOnly_hostRefuse .shift s⟩
    exact ⟨hrefused rfl, hrefused rfl⟩

/-! ## What no step takes back -/

/-- A write transaction leaves the driver's records. -/
theorem exec_writeInstr_driver {r : BlockReg} {v : Word} {s t : State} (h : exec (writeInstr r v) s = .next t) :
    t.driver = s.driver := by
  obtain ⟨t', ht, hcases⟩ := exec_writeInstr r v s
  obtain rfl : t' = t := by simpa [ht] using h
  rcases hcases with ⟨_, _, rfl⟩ | ⟨_, _, rfl⟩ | ⟨_, _, _, rfl⟩ | ⟨_, _, _, _, rfl⟩ | ⟨_, rfl⟩ <;> rfl

/-- Every move leaves the driver's records. -/
theorem Move.driver_eq {s t : State} {turn : Turn} (h : Move s turn t) : t.driver = s.driver := by
  cases h with
  | idle | noStmt | branchFault | performNowhere => rfl
  | quiet st t hr hs hx hkeep hq =>
    obtain ⟨-, -, -, -, -, -, -, hdriver, -⟩ := hkeep
    exact hdriver
  | hostFault | hostRefuse | send => simp
  | issue => simp [postWrite]
  | read r d t hr hs hh hx =>
    obtain ⟨t', ht, -, -, -, -, -, -, -, -, -, -, -, -, -, hdriver, -⟩ := exec_readInstr r d s
    obtain rfl : t' = t := by simpa [ht] using hx
    exact hdriver
  | offer => obtain ⟨n, m, ⟨-, h⟩ | ⟨-, h⟩, -⟩ := rxPush_cases s <;> simp [h]
  | perform pick e rest r m hc ho hx =>
    have hm : m.driver = (s.setWq rest).driver := exec_writeInstr_driver hx
    exact hm

/-- Every step leaves the driver's records. -/
theorem step_driver {s t : State} (h : step s = .next t) : t.driver = s.driver := by
  have hstart : ((turnTaken s).forTurn (turnOf s)).driver = s.driver := by cases turnOf s <;> simp [State.forTurn]
  exact (move_of_step h).driver_eq.trans hstart

/-- Settles O52: what a step records joins what was recorded before it (`step_records`). -/
theorem faultsAndHistoryOnlyGrow : Obligations.FaultsAndHistoryOnlyGrow := by
  intro s t hstep
  obtain ⟨new, hrec, -⟩ := step_records hstep
  exact ⟨hrec.cfg, step_driver hstep, fun k hk => (hrec.faults k).mpr (.inl hk), fun hr => hrec.refused.mpr (.inl hr),
    new, hrec.hist⟩

/-! ## Every step answers -/

/-- Every statement of HOST answers a next state. -/
theorem execStmt_answers (st : Stmt) (s : State) : ∃ t, execStmt st s = .next t := by
  rcases execStmt_cases st s with ⟨t, h, -⟩ | ⟨k, off, h⟩ | h | ⟨r, h⟩ | ⟨r, v, -, h⟩ | ⟨r, d, -, -, h⟩
  case inr.inr.inr.inr.inr =>
    obtain ⟨t, ht, -⟩ := exec_readInstr r d s
    exact ⟨t, h.trans ht⟩
  all_goals exact ⟨_, h⟩

/-- Every turn of HOST answers a next state. -/
theorem hostStep_answers (s : State) : ∃ t, hostStep s = .next t := by
  rcases hostStep_cases s with ⟨-, h⟩ | ⟨-, -, h⟩ | ⟨-, st, -, h⟩
  · exact ⟨_, h⟩
  · exact ⟨_, h⟩
  · rw [h]
    exact execStmt_answers st s

/-- TX answers a next state where what is posted is sendable (42_command_bus.md R146, R150). -/
theorem txStep_answers {s : State} (hs : s.postedSendable) : ∃ t, txStep s = .next t := by
  cases hc : s.cmdReady with
  | false => exact ⟨s, by simp [txStep, hc]⟩
  | true =>
    obtain ⟨-, hmax, -⟩ := hs hc
    obtain ⟨bytes, h⟩ := txStep_sends s hc hmax
    exact ⟨_, h⟩

/-- The write rule of any offset answers a next state (20_memory.md R60). -/
theorem performWrite_answers (off : Nat) (v : Word) (s : State) : ∃ t, performWrite off v s = .next t := by
  unfold performWrite
  cases regAt s.cfg.layout off with
  | none => exact ⟨_, rfl⟩
  | some r =>
    obtain ⟨t, ht, -⟩ := exec_writeInstr r v s
    exact ⟨t, ht⟩

/-- Every turn of WB answers a next state. -/
theorem wbStep_answers (pick : Nat) (s : State) : ∃ t, wbStep pick s = .next t := by
  unfold wbStep
  cases chooseWrite s.cfg.strictOrder pick s.wq with
  | none => exact ⟨s, rfl⟩
  | some taken =>
    obtain ⟨e, rest⟩ := taken
    obtain ⟨t, ht⟩ := performWrite_answers e.off e.value (s.setWq rest)
    exact ⟨t.record (.performed e.off e.value), by simp [ht, onNext]⟩

/-- Settles O56: only TX's turn needs the invariant, which keeps what is posted sendable. -/
theorem noStepStopsTheMachine : Obligations.NoStepStopsTheMachine := by
  intro s hs
  unfold step
  cases turnOf s with
  | host k => exact hostStep_answers _
  | tx => exact txStep_answers (hs.forTurn .tx).posted
  | rx => exact ⟨_, rfl⟩
  | wb pick => exact wbStep_answers pick _

end Sys2Proof.Machine
end

section
/-! SUPPORT. The hazard check of 70_reset_and_hazards.md R294: what its scan of HIST finds and when it faults. -/

namespace Sys2Proof.Machine

/-! ## The scan for the last frame to a chain -/

/-- An event that is no frame to the chain adds its delay to the time since the last one. -/
theorem settleStep_of_ne_emit {c : Fin 3} {e : Event} (h : ∀ bytes, e ≠ .emit c bytes) (acc : Option (Bool × Nat)) :
    settleStep c acc e = acc.map fun a => (a.1, a.2 + elapsed [e]) := by
  cases e with
  | emit c' bytes =>
    have hne : c' ≠ c := fun hc => h bytes (hc ▸ rfl)
    simp [settleStep, elapsed, hne]
  | _ => simp [settleStep, elapsed]

/-- A frame to the chain is the one the scan keeps, with no time since it. -/
theorem sinceLastFrame_append_emit (c : Fin 3) (hist : List Event) (bytes : List Byte) :
    sinceLastFrame c (hist ++ [.emit c bytes]) = some (bytes.head? == some 0x40, 0) := by
  simp [sinceLastFrame, settleStep]

/-- Events without a frame to the chain add their delays to the time since the last one. -/
theorem sinceLastFrame_append_of_no_emit {c : Fin 3} {after : List Event} (h : ∀ bytes, .emit c bytes ∉ after)
    (hist : List Event) :
    sinceLastFrame c (hist ++ after) = (sinceLastFrame c hist).map fun a => (a.1, a.2 + elapsed after) := by
  induction after using List.reverseRecOn with
  | nil => simp
  | append_singleton after e ih =>
    have hafter : ∀ bytes, .emit c bytes ∉ after := fun bytes hmem => h bytes (List.mem_append_left _ hmem)
    have he : ∀ bytes, e ≠ .emit c bytes := fun bytes heq => h bytes (by simp [heq])
    have hstep : sinceLastFrame c (hist ++ (after ++ [e])) = settleStep c (sinceLastFrame c (hist ++ after)) e := by
      simp [sinceLastFrame]
    rw [hstep, settleStep_of_ne_emit he, ih hafter, Option.map_map, elapsed_append]
    simp [Function.comp_def, Nat.add_assoc]

/-- A list of events has no frame to the chain, or a last one. -/
theorem no_emit_or_last_emit (c : Fin 3) (hist : List Event) : (∀ bytes, .emit c bytes ∉ hist) ∨
    ∃ before after bytes, hist = before ++ [.emit c bytes] ++ after ∧ ∀ bytes', .emit c bytes' ∉ after := by
  induction hist with
  | nil => simp
  | cons e hist ih =>
    rcases ih with hnone | ⟨before, after, bytes, rfl, hlast⟩
    · by_cases he : ∃ bytes, e = .emit c bytes
      · obtain ⟨bytes, rfl⟩ := he
        exact .inr ⟨[], hist, bytes, rfl, hnone⟩
      · exact .inl fun bytes hmem => (List.mem_cons.mp hmem).elim (fun heq => he ⟨bytes, heq.symm⟩) (hnone bytes)
    · exact .inr ⟨e :: before, after, bytes, rfl, hlast⟩

theorem sinceLastFrame_eq_none_of_no_emit {c : Fin 3} {hist : List Event} (h : ∀ bytes, .emit c bytes ∉ hist) :
    sinceLastFrame c hist = none :=
  sinceLastFrame_append_of_no_emit h []

theorem sinceLastFrame_of_last_emit {c : Fin 3} {after : List Event} (h : ∀ bytes, .emit c bytes ∉ after)
    (before : List Event) (bytes : List Byte) :
    sinceLastFrame c (before ++ [.emit c bytes] ++ after) = some (bytes.head? == some 0x40, elapsed after) := by
  rw [sinceLastFrame_append_of_no_emit h, sinceLastFrame_append_emit]
  simp

/-- What the scan finds is the last frame to the chain and the delays after it (R293, R294). -/
theorem sinceLastFrame_eq_some_iff {c : Fin 3} {hist : List Event} {isSet : Bool} {t : Nat} :
    sinceLastFrame c hist = some (isSet, t) ↔
      ∃ before after bytes, hist = before ++ [.emit c bytes] ++ after ∧ (∀ bytes', .emit c bytes' ∉ after) ∧
        (bytes.head? == some 0x40) = isSet ∧ elapsed after = t := by
  constructor
  · intro h
    rcases no_emit_or_last_emit c hist with hnone | ⟨before, after, bytes, rfl, hlast⟩
    · simp [sinceLastFrame_eq_none_of_no_emit hnone] at h
    · rw [sinceLastFrame_of_last_emit hlast] at h
      exact ⟨before, after, bytes, rfl, hlast, by simpa using h⟩
  · rintro ⟨before, after, bytes, rfl, hlast, rfl, rfl⟩
    exact sinceLastFrame_of_last_emit hlast before bytes

/-! ## The check -/

theorem hazard_iff {c : Fin 3} {hist : List Event} :
    hazard c hist = true ↔ ∃ t, sinceLastFrame c hist = some (true, t) ∧ t < settleMicros := by
  unfold hazard
  rcases sinceLastFrame c hist with - | ⟨- | -, t⟩ <;> simp

/-- Settles O33: the check reads the last frame to the chain and the delays after it, and TX sends the frame whatever
it finds. -/
theorem hazardExactlyWithinSettleTime : Obligations.HazardExactlyWithinSettleTime := by
  refine ⟨fun c hist => ?_, fun s bytes hposted => ?_⟩
  · simp only [hazard_iff, sinceLastFrame_eq_some_iff, beq_iff_eq, List.head?_eq_getElem?]
    constructor
    · rintro ⟨-, ⟨before, after, bytes, hhist, hlast, hset, rfl⟩, ht⟩
      exact ⟨before, after, bytes, hhist, hlast, hset, ht⟩
    · rintro ⟨before, after, bytes, hhist, hlast, hset, ht⟩
      exact ⟨_, ⟨before, after, bytes, hhist, hlast, hset, rfl⟩, ht⟩
  · obtain ⟨hhist, hfaults, -⟩ := sendFrame_sends bytes s
    exact ⟨_, by simp [transmit, hposted], hhist, fun hz => (hfaults .hazard).mpr (.inr ⟨hz, rfl⟩)⟩

end Sys2Proof.Machine
end
